-- ==== Sys2Proof/Word.lean ====
section
/-!
DEFINITION. The word and byte types of the burst buffer module.

Every special purpose register and every fetch address is 32 bits (00_scope R7, `XLEN`), an
instruction is four bytes (30_encoding R100). Bit numbers in the docstrings of this package are the
document's: bit 0 is the most significant bit of a word (00_scope R10).
-/

namespace Sys2Proof

/-- Eight bits. -/
abbrev Byte := BitVec 8

/-- Thirty-two bits: a register, a fetch address, an instruction (00_scope R7, 30_encoding R100). -/
abbrev Word := BitVec 32

end Sys2Proof
end

