-- ==== Sys2Proof/Syntax.lean ====
section
/-!
DEFINITION. The instructions of spec/opcode_table.json, one constructor per row, in the table's order.
-/

namespace Sys2Proof

/-- A general register number of the core, 0 to 31 (44_spr_access R293(b)). -/
abbrev Reg := BitVec 5

/-- The decompression mode of an access (00_scope R9 `acc.dmode`, 40_compression R130). It also tells the
two forms of a direct branch apart (30_encoding R100). -/
inductive DMode where
  | off
  | on
  deriving DecidableEq, Repr, Inhabited

/-- The ten special purpose registers of the module (10_state R20). -/
inductive Spr where
  | rba (i : Fin 4)
  | ra (i : Fin 4)
  | gra
  | bbcmcr
  deriving DecidableEq, Repr

/-- One constructor per row of spec/opcode_table.json. `n` is an SPR number (not the exchanged field),
`rS` the source and `rD` the destination general register. -/
inductive Instr where
  /-- `mtspr n, rS`, the generic row (30_encoding R101, 44_spr_access R281). -/
  | mtspr (rS : Reg) (n : BitVec 10)
  /-- `mfspr rD, n`, the generic row (30_encoding R102, 44_spr_access R282). -/
  | mfspr (rD : Reg) (n : BitVec 10)
  /-- `isync` (30_encoding R104, 44_spr_access R291). -/
  | isync
  /-- `mtspr 784, rS` (R283). -/
  | mtsprMiRba0 (rS : Reg)
  /-- `mfspr rD, 784` (R284). -/
  | mfsprMiRba0 (rD : Reg)
  /-- `mtspr 785, rS` (R283). -/
  | mtsprMiRba1 (rS : Reg)
  /-- `mfspr rD, 785` (R284). -/
  | mfsprMiRba1 (rD : Reg)
  /-- `mtspr 786, rS` (R283). -/
  | mtsprMiRba2 (rS : Reg)
  /-- `mfspr rD, 786` (R284). -/
  | mfsprMiRba2 (rD : Reg)
  /-- `mtspr 787, rS` (R283). -/
  | mtsprMiRba3 (rS : Reg)
  /-- `mfspr rD, 787` (R284). -/
  | mfsprMiRba3 (rD : Reg)
  /-- `mtspr 816, rS` (R285). -/
  | mtsprMiRa0 (rS : Reg)
  /-- `mfspr rD, 816` (R286). -/
  | mfsprMiRa0 (rD : Reg)
  /-- `mtspr 817, rS` (R285). -/
  | mtsprMiRa1 (rS : Reg)
  /-- `mfspr rD, 817` (R286). -/
  | mfsprMiRa1 (rD : Reg)
  /-- `mtspr 818, rS` (R285). -/
  | mtsprMiRa2 (rS : Reg)
  /-- `mfspr rD, 818` (R286). -/
  | mfsprMiRa2 (rD : Reg)
  /-- `mtspr 819, rS` (R285; 90_conflicts C1). -/
  | mtsprMiRa3 (rS : Reg)
  /-- `mfspr rD, 819` (R286; 90_conflicts C1). -/
  | mfsprMiRa3 (rD : Reg)
  /-- `mtspr 528, rS` (R287). -/
  | mtsprMiGra (rS : Reg)
  /-- `mfspr rD, 528` (R288). -/
  | mfsprMiGra (rD : Reg)
  /-- `mtspr 560, rS` (R289). -/
  | mtsprBbcmcr (rS : Reg)
  /-- `mfspr rD, 560` (R290). -/
  | mfsprBbcmcr (rD : Reg)
  /-- The unconditional immediate branch before compression mapping, I-form (30_encoding R105). -/
  | b (wp : BitVec 24) (aa lk : Bool)
  /-- The unconditional immediate branch after compression mapping (30_encoding R106, 40_compression R143). -/
  | bMapped (wp : BitVec 19) (ptr : BitVec 5) (aa lk : Bool)
  /-- The conditional immediate branch before compression mapping, B-form (30_encoding R107). -/
  | bc (bo bi : BitVec 5) (bd : BitVec 14) (aa lk : Bool)
  /-- The conditional immediate branch after compression mapping (30_encoding R108, 40_compression R143). -/
  | bcMapped (cond : BitVec 10) (wp : BitVec 9) (ptr : BitVec 5) (aa lk : Bool)
  deriving DecidableEq, Repr

end Sys2Proof
end

