-- ==== Sys2Proof/Decode.lean ====
section
/-!
DEFINITION. Bit fields in the document's numbering, byte order, the decoder and the encoder.

The layouts are those of 30_encoding R101 to R108. The bits of `mtspr`, `mfspr`, `isync` and the opcode
values of the branches are general knowledge of the spec (93_implementation_defined G1, G2; log 13).
-/

namespace Sys2Proof

/-- `docField v a n` is `v[a : a+n-1]`: the `n` bits of `v` that start at the document's bit `a`, bit 0 being
the most significant (00_scope R10). -/
def docField (v : Word) (a n : Nat) : BitVec n := v.extractLsb' (32 - a - n) n

/-- `docBit v a` is bit `a` of `v` in the document's numbering (00_scope R10: mask `1 << (31 - a)`). -/
def docBit (v : Word) (a : Nat) : Bool := v.getLsbD (31 - a)

/-- The four bytes X1, X2, X3, X4 of a word in address order: the byte at the lowest address is bits 0:7
(20_memory R73, decision D16; log 11). -/
def bytesOfWord (w : Word) : List Byte := [docField w 0 8, docField w 8 8, docField w 16 8, docField w 24 8]

/-- The word whose bytes in address order are the four given (20_memory R73; log 11). -/
def wordOfBytes (x1 x2 x3 x4 : Byte) : Word := x1 ++ x2 ++ x3 ++ x4

/-- The exchange of the two 5-bit halves that turns an SPR number into the `spr` field and back
(30_encoding R103). -/
def sprSwap (n : BitVec 10) : BitVec 10 := n.extractLsb' 0 5 ++ n.extractLsb' 5 5

/-- The SPR number of each of the ten registers (10_state R20; MI_RA[3] is 819, 90_conflicts C1). -/
def sprNumber : Spr → BitVec 10
  | .rba i => 784#10 + BitVec.ofNat 10 i
  | .ra i => 816#10 + BitVec.ofNat 10 i
  | .gra => 528#10
  | .bbcmcr => 560#10

/-- The register of the module that an SPR number names, if it is one of the ten (10_state R20, 44_spr_access R280). -/
def sprOfNumber (n : BitVec 10) : Option Spr :=
  if n = 784#10 then some (.rba 0)
  else if n = 785#10 then some (.rba 1)
  else if n = 786#10 then some (.rba 2)
  else if n = 787#10 then some (.rba 3)
  else if n = 816#10 then some (.ra 0)
  else if n = 817#10 then some (.ra 1)
  else if n = 818#10 then some (.ra 2)
  else if n = 819#10 then some (.ra 3)
  else if n = 528#10 then some .gra
  else if n = 560#10 then some .bbcmcr
  else none

/-- The hexadecimal number Tables 4-2 to 4-4 print beside an SPR number: the exchanged field shifted left by
four (10_state R21). No rule reads it. -/
def sprTableNumber (n : BitVec 10) : Nat := (sprSwap n).toNat * 16

/-- The `mtspr` row of the table that a word with this SPR number and source register is (30_encoding R103, R120; log 12). -/
def mtsprRow (n : BitVec 10) (rS : Reg) : Instr :=
  match sprOfNumber n with
  | some (.rba 0) => .mtsprMiRba0 rS
  | some (.rba 1) => .mtsprMiRba1 rS
  | some (.rba 2) => .mtsprMiRba2 rS
  | some (.rba 3) => .mtsprMiRba3 rS
  | some (.ra 0) => .mtsprMiRa0 rS
  | some (.ra 1) => .mtsprMiRa1 rS
  | some (.ra 2) => .mtsprMiRa2 rS
  | some (.ra 3) => .mtsprMiRa3 rS
  | some .gra => .mtsprMiGra rS
  | some .bbcmcr => .mtsprBbcmcr rS
  | none => .mtspr rS n

/-- The `mfspr` row of the table that a word with this SPR number and destination register is (30_encoding R103, R120; log 12). -/
def mfsprRow (n : BitVec 10) (rD : Reg) : Instr :=
  match sprOfNumber n with
  | some (.rba 0) => .mfsprMiRba0 rD
  | some (.rba 1) => .mfsprMiRba1 rD
  | some (.rba 2) => .mfsprMiRba2 rD
  | some (.rba 3) => .mfsprMiRba3 rD
  | some (.ra 0) => .mfsprMiRa0 rD
  | some (.ra 1) => .mfsprMiRa1 rD
  | some (.ra 2) => .mfsprMiRa2 rD
  | some (.ra 3) => .mfsprMiRa3 rD
  | some .gra => .mfsprMiGra rD
  | some .bbcmcr => .mfsprBbcmcr rD
  | none => .mfspr rD n

/-- Why bytes are no instruction of the table. -/
inductive DecodeError where
  /-- Fewer than four bytes were given (30_encoding R100: every uncompressed instruction is 32 bits). -/
  | tooShort
  /-- A whole word that is no row of the table: another instruction of the core, which the module delivers and
  the core executes (00_scope R6; log 14). -/
  | notInTable (w : Word)
  deriving DecidableEq, Repr

/-- The instruction a delivered word is (30_encoding R101 to R108). The mode of the access tells the mapped
branches from the unmapped ones (30_encoding R100). -/
def decodeWord (m : DMode) (w : Word) : Except DecodeError Instr :=
  if docField w 0 6 = 31#6 ∧ docField w 21 10 = 467#10 ∧ docBit w 31 = false then
    .ok (mtsprRow (sprSwap (docField w 11 10)) (docField w 6 5))
  else if docField w 0 6 = 31#6 ∧ docField w 21 10 = 339#10 ∧ docBit w 31 = false then
    .ok (mfsprRow (sprSwap (docField w 11 10)) (docField w 6 5))
  else if w = 0x4C00012C#32 then
    .ok .isync
  else if docField w 0 6 = 18#6 then
    match m with
    | .off => .ok (.b (docField w 6 24) (docBit w 30) (docBit w 31))
    | .on => .ok (.bMapped (docField w 6 19) (docField w 25 5) (docBit w 30) (docBit w 31))
  else if docField w 0 6 = 16#6 then
    match m with
    | .off => .ok (.bc (docField w 6 5) (docField w 11 5) (docField w 16 14) (docBit w 30) (docBit w 31))
    | .on => .ok (.bcMapped (docField w 6 10) (docField w 16 9) (docField w 25 5) (docBit w 30) (docBit w 31))
  else .error (.notInTable w)

/-- The instruction at the front of a list of bytes, and the bytes after it. -/
def decodeBytes (m : DMode) : List Byte → Except DecodeError (Instr × List Byte)
  | x1 :: x2 :: x3 :: x4 :: rest => (decodeWord m (wordOfBytes x1 x2 x3 x4)).map (fun i => (i, rest))
  | _ => .error .tooShort

/-- The word of an `mtspr` (30_encoding R101, R103). -/
def mtsprWord (n : BitVec 10) (rS : Reg) : Word := 31#6 ++ rS ++ sprSwap n ++ 467#10 ++ 0#1

/-- The word of an `mfspr` (30_encoding R102, R103). -/
def mfsprWord (n : BitVec 10) (rD : Reg) : Word := 31#6 ++ rD ++ sprSwap n ++ 339#10 ++ 0#1

/-- The word of an instruction (30_encoding R101 to R108). -/
def encode : Instr → Word
  | .mtspr rS n => mtsprWord n rS
  | .mfspr rD n => mfsprWord n rD
  | .isync => 19#6 ++ 0#15 ++ 150#10 ++ 0#1
  | .mtsprMiRba0 rS => mtsprWord 784#10 rS
  | .mfsprMiRba0 rD => mfsprWord 784#10 rD
  | .mtsprMiRba1 rS => mtsprWord 785#10 rS
  | .mfsprMiRba1 rD => mfsprWord 785#10 rD
  | .mtsprMiRba2 rS => mtsprWord 786#10 rS
  | .mfsprMiRba2 rD => mfsprWord 786#10 rD
  | .mtsprMiRba3 rS => mtsprWord 787#10 rS
  | .mfsprMiRba3 rD => mfsprWord 787#10 rD
  | .mtsprMiRa0 rS => mtsprWord 816#10 rS
  | .mfsprMiRa0 rD => mfsprWord 816#10 rD
  | .mtsprMiRa1 rS => mtsprWord 817#10 rS
  | .mfsprMiRa1 rD => mfsprWord 817#10 rD
  | .mtsprMiRa2 rS => mtsprWord 818#10 rS
  | .mfsprMiRa2 rD => mfsprWord 818#10 rD
  | .mtsprMiRa3 rS => mtsprWord 819#10 rS
  | .mfsprMiRa3 rD => mfsprWord 819#10 rD
  | .mtsprMiGra rS => mtsprWord 528#10 rS
  | .mfsprMiGra rD => mfsprWord 528#10 rD
  | .mtsprBbcmcr rS => mtsprWord 560#10 rS
  | .mfsprBbcmcr rD => mfsprWord 560#10 rD
  | .b wp aa lk => 18#6 ++ wp ++ BitVec.ofBool aa ++ BitVec.ofBool lk
  | .bMapped wp ptr aa lk => 18#6 ++ wp ++ ptr ++ BitVec.ofBool aa ++ BitVec.ofBool lk
  | .bc bo bi bd aa lk => 16#6 ++ bo ++ bi ++ bd ++ BitVec.ofBool aa ++ BitVec.ofBool lk
  | .bcMapped cond wp ptr aa lk => 16#6 ++ cond ++ wp ++ ptr ++ BitVec.ofBool aa ++ BitVec.ofBool lk

/-- The mode in which an instruction's word is read as that instruction: the mapped branches stand in
compressed code only, the unmapped ones in plain code; the other rows are the same in both (30_encoding R100). -/
def modeOfRow : Instr → DMode
  | .bMapped .. => .on
  | .bcMapped .. => .on
  | _ => .off

/-- What the decoder reads from a table row's word given as a number, in plain code (Decompression OFF). -/
def decodeTableWord (_nbits w : Nat) : Option Instr :=
  match decodeBytes .off (bytesOfWord (BitVec.ofNat 32 w)) with
  | .ok (i, _) => some i
  | .error _ => none

end Sys2Proof
end

