-- ==== Sys2Proof/Config.lean ====
section
/-!
DEFINITION. What an implementation fixes, and the free values.

00_scope R7 and 10_state R53 list the parameters of the model; every one marked OPEN there is a field of
`Config.Params`. `Config.chip` is the one machine modelled: an uninterpreted constant, so that a claim about it holds
for every value of every parameter (log 8). The free values stand in the same record (log 9).
-/

namespace Sys2Proof.Config

/-- Which part (00_scope R7, decision D1). -/
inductive Part where
  | mpc555
  | mpc556
  deriving DecidableEq, Repr, Inhabited

/-- One of the two streams of compressed memory (40_compression R140): X1, X2 left and X3, X4 right. -/
inductive Side where
  | left
  | right
  deriving DecidableEq, Repr, Inhabited

/-- Which byte of an instruction, and so which of the four vocabularies Tx1 to Tx4 (40_compression R137). -/
inductive Tx where
  | x1
  | x2
  | x3
  | x4
  deriving DecidableEq, Repr, Inhabited

/-- How much of an instruction a bypass code stands before (30_encoding R115, 40_compression R149). -/
inductive Extent where
  | byte
  | half
  | whole
  deriving DecidableEq, Repr, Inhabited

/-- What a code word stands for (40_compression R139). -/
inductive Leaf where
  /-- A byte of the vocabulary. -/
  | byte (b : Byte)
  /-- A bypass code: uncompressed bits follow (30_encoding R115). -/
  | bypass (e : Extent)
  /-- The reserved code that marks a label (30_encoding R114). -/
  | labelMark
  deriving DecidableEq, Repr, Inhabited

/-- A binary Huffman code tree (40_compression R139). A tree is prefix-free by its shape; `absent` is a bit string
that is no code word. -/
inductive CodeTree where
  | absent
  | leaf (l : Leaf)
  | node (zero one : CodeTree)
  deriving DecidableEq, Repr, Inhabited

/-- The parameters of 00_scope R7 and the free values. -/
structure Params where
  /-- `PART` (decision D1). -/
  part : Part
  /-- `IMB`, the internal memory base (decision D13). -/
  imb : Word
  /-- `COMP_BASE` as a number of words, since an ON-mode physical address is word aligned (decision D24, 20_memory R74). -/
  compWord : BitVec 30
  /-- `RESET_ETRE` (decision D30). -/
  resetEtre : Bool
  /-- `RESET_OERC` (decision D30). -/
  resetOerc : Bool
  /-- `RESERVED_READS_ZERO` (decision D9). -/
  reservedReadsZero : Bool
  /-- `PTR_ORDER`: whether bits 22:26 are the left bit pointer (decision D26). -/
  leftPointerFirst : Bool
  /-- `burstable(a)` (decision D22). -/
  burstable : Word → Bool
  /-- `BURST_LEN`, the number of words of a burst (91_not_in_source N24); no rule reads it. -/
  burstLen : Nat
  /-- `impu_addr_on(a)`, the address the IMPU compares in Decompression ON mode (decision D33). -/
  impuAddrOn : Word → Word
  /-- `BaseAddrCalc(branch_base_wp, imm_wp, AA)`; the immediate has `n` bits (decision D34). -/
  baseAddrCalc : BitVec 20 → (n : Nat) → BitVec n → Bool → BitVec 20
  /-- The four vocabularies (decision D25). -/
  vocab : Tx → CodeTree
  /-- What follows the bypass code of one byte: from the next 32 bits of the stream, the byte they give and how many of
  them it takes (91_not_in_source N12). -/
  bypass : Tx → BitVec 32 → Byte × Nat
  /-- What follows the bypass code of one half: its two bytes and how many bits they take (91_not_in_source N12). -/
  bypassHalf : Side → BitVec 32 → BitVec 16 × Nat
  /-- The stream in which the bypass code of a whole instruction stands (91_not_in_source N12). -/
  wholeSide : Side
  /-- How many of the 32 bits of a wholly bypassed instruction stand in the left stream (91_not_in_source N12). -/
  wholeLeftBits : Fin 33
  /-- The half of the target instruction that a one pointer address locates, by that address (91_not_in_source N10). -/
  labelSide : Word → Side
  /-- The value of a label's line bit that means the next line (91_not_in_source N10). -/
  labelNextLine : Bool
  /-- Bit 20 of an address whose bit 21 is zero, a don't care (30_encoding R111), by base word. -/
  dontCareBit20 : Word → Bool
  /-- The two pointer address the core issues for an exception vector in ON mode (91_not_in_source N16, N20). -/
  vectorOn : Word → Word
  /-- Whether an access falls in the same page as the memory access before, if there was one (20_memory R79,
  91_not_in_source N1). -/
  samePage : Option Word → Word → Bool
  /-- The byte the platform holds at an address nothing was placed at: the memory oracle of 20_memory R83. -/
  platformByte : Nat → Byte
  /-- A free bit (`draw({0,1})` of 00_scope R12), a fresh one for each number. -/
  freeBit : Nat → Bool
  /-- A free word, a fresh one for each number. -/
  freeWord : Nat → Word
  /-- The addresses of the bytes that an instruction of the core's own stores to, fresh ones for each number
  (20_memory R83). -/
  storedTo : Nat → List Word
  deriving Inhabited

/-- `HAS_COMP`: the compression option exists on the MPC556 only (00_scope R3, R7). -/
def Params.hasComp (p : Params) : Bool := p.part == .mpc556

/-- `COMP_BASE` as a byte address: a multiple of four (20_memory R74, 40_compression R147). -/
def Params.compBase (p : Params) : Word := p.compWord ++ 0#2

/-- The machine modelled. It has no body: nothing can be proved about its fields, so what is proved with it holds
for all of them (log 8, log 9). -/
opaque chip : Params

end Sys2Proof.Config
end

