-- ==== Sys2Proof/Machine/State.lean ====
section
/-!
DEFINITION. The state of the burst buffer module, of its port to the core and of the memory behind the U-bus; the
faults and refusals; the state after reset.

INVENTORY.md lists every field with the rule of spec/ that names it and its reset value.
-/

namespace Sys2Proof.Machine

/-- The two privilege levels (60_exceptions R324). -/
inductive Priv where
  | supervisor
  | user
  deriving DecidableEq, Repr, Inhabited

/-- The controller mode (10_state R51). -/
inductive CtrlMode where
  | idle
  | active
  | powerSave
  deriving DecidableEq, Repr, Inhabited

/-- The form of an address in Decompression ON mode (40_compression R130): the two pointer form (30_encoding R110) or
the one pointer format of a direct branch target (30_encoding R112). -/
inductive AddrForm where
  | twoPointer
  | onePointer
  deriving DecidableEq, Repr, Inhabited

/-- One fetch access of the core (00_scope R9), with two more facts the rules need: the form of its address
(40_compression R130) and whether it is the fetch at an exception vector (40_compression R133). -/
structure Access where
  addr : Word
  priv : Priv
  /-- The core's MSR[IR] bit. -/
  msrIr : Bool
  spec : Bool
  showCycle : Bool
  ptrace : Bool
  dbg : Bool
  dmode : DMode
  form : AddrForm
  entry : Bool
  deriving DecidableEq, Repr, Inhabited

/-- The stored fields of MI_RA[i] (10_state R25). -/
structure RaReg where
  rs : BitVec 20
  pp : BitVec 2
  g : Bool
  cmpr : BitVec 2
  deriving DecidableEq, Repr, Inhabited

/-- The stored fields of MI_GRA (10_state R32). -/
structure GraReg where
  enr : Vector Bool 4
  pp : BitVec 2
  g : Bool
  cmpr : BitVec 2
  deriving DecidableEq, Repr, Inhabited

/-- The nine registers of the IMPU (10_state R20): the RA field of each MI_RBA[i] (10_state R23), MI_RA[i], MI_GRA. -/
structure Impu where
  rba : Vector (BitVec 20) 4
  ra : Vector RaReg 4
  gra : GraReg
  deriving DecidableEq, Repr, Inhabited

/-- The stored fields of BBCMCR (10_state R39). -/
structure Bbcmcr where
  be : Bool
  etre : Bool
  oerc : Bool
  enComp : Bool
  excComp : Bool
  decompScEn : Bool
  deriving DecidableEq, Repr, Inhabited

/-- An access forwarded to the U-bus and not yet answered (10_state R51). `mode` is the decompression mode it is made
in, `words` the addresses forwarded, `gov` the BBCMCR value it was issued under (44_spr_access R291), `judgedBy` the IMPU
register values that govern it (20_memory R85). `refused` marks an access issued ahead that the IMPU cancelled: it waits, in
its place, for the core to come to its instruction, as guarded or as protected storage (60_exceptions R315; log 17). -/
structure Pending where
  acc : Access
  mode : DMode
  words : List Word
  gov : Bbcmcr
  judgedBy : Impu
  refused : Option Bool
  deriving DecidableEq, Repr, Inhabited

/-- A decompressed instruction (40_compression R148, R149): the address asked for, the instruction, the next
instruction address, the two pointer address the ICDU keeps for it (log 30), the memory words read, and how many bits of the two
streams it takes, labels aside (30_encoding R100). -/
structure Decoded where
  addr : Word
  instr : Word
  next : Word
  here : Word
  words : List Word
  bits : Nat
  deriving DecidableEq, Repr, Inhabited

/-- The ICDU's state (10_state R52, 40_compression R141): the five parts of the two pointer address of the current
instruction, the next instruction address it hands the core (R150), the prefetched next instruction (R151). -/
structure Icdu where
  left : BitVec 5
  right : BitVec 5
  base : BitVec 20
  leftRight : Bool
  sameLine : Bool
  next : Word
  prefetched : Option Decoded
  deriving DecidableEq, Repr, Inhabited

/-- The four bits of the core's SRR1 that receive the IMPU's error information (60_exceptions R311). -/
structure Srr1 where
  bit1 : Bool
  bit3 : Bool
  bit4 : Bool
  bit10 : Bool
  deriving DecidableEq, Repr, Inhabited

/-- What the module sees of the core besides the access it issues: the general registers named by `mtspr` and `mfspr`
(10_state R50), the three sources of an indirect branch (40_compression R145), the SRR1 bits the module writes and
MSR[IP] (10_state R49). -/
structure Core where
  x : Vector Word 32
  lr : Word
  ctr : Word
  srr0 : Word
  srr1 : Srr1
  msrIp : Bool
  deriving DecidableEq, Repr, Inhabited

/-- Where a forwarded access goes (41_modes_of_operation R189). -/
inductive Dest where
  | memory (a : Word)
  | debugPort
  deriving DecidableEq, Repr, Inhabited

/-- One access as the U-bus sees it (00_scope R12 `Forward`): its destination, the burst request attribute (R183), whether
it is carried out as a burst (R194), the attributes that travel with it (R185), the page attribute (20_memory R79), the
bit pointers of a decompression show cycle (60_exceptions R328), whether the IMPU cancelled it (60_exceptions R314). -/
structure BusAccess where
  dest : Dest
  burst : Bool
  carriedAsBurst : Bool
  showCycle : Bool
  ptrace : Bool
  dbg : Bool
  inPage : Bool
  pointers : Option (BitVec 5 × BitVec 5)
  cancelled : Bool
  deriving DecidableEq, Repr, Inhabited

/-- The report of an IMPU violation to the core (60_exceptions R310 to R314): the refused address, the SRR1 bits, the
vector the core issues, whether the cancelled access was delivered to the U-bus. -/
structure Report where
  addr : Word
  bits : Srr1
  vector : Word
  delivered : Bool
  deriving DecidableEq, Repr, Inhabited

/-- What the module gave out in the last step: accesses on the U-bus, the word delivered to the core with, in
Decompression ON mode, the next instruction address (40_compression R148), the violation reported, and whether the core
executes the delivered word (log 26). -/
structure Outputs where
  bus : List BusAccess
  word : Option Word
  next : Option Word
  report : Option Report
  executes : Bool
  deriving DecidableEq, Repr, Inhabited

/-- The register whose value an indirect branch goes to (40_compression R145). -/
inductive IndirectSource where
  | lr
  | ctr
  | srr0
  deriving DecidableEq, Repr, Inhabited

/-- What a reset event samples (70_reset_and_hazards R352): bits 21 and 22 of the hard reset configuration word and the bit
that sets MSR[IP] out of reset (43_exception_relocation R259). -/
structure ResetWord where
  rcw21 : Bool
  rcw22 : Bool
  ip : Bool
  deriving DecidableEq, Repr, Inhabited

/-- What the environment presents to the module (70_reset_and_hazards R373, R374; log 1). -/
inductive Event where
  /-- The core issues this access and executes what it gets (41_modes_of_operation R182). -/
  | fetch (acc : Access)
  /-- The core issues this access ahead; it stays pending on the U-bus (10_state R51). -/
  | issue (acc : Access)
  /-- The U-bus answers the oldest pending access (20_memory R81). -/
  | answer
  /-- An indirect branch of the core (40_compression R145). -/
  | indirect (src : IndirectSource)
  /-- The first reset of a run (70_reset_and_hazards R350). -/
  | powerOn (w : ResetWord)
  /-- Any later reset (70_reset_and_hazards R350). -/
  | hardReset (w : ResetWord)
  /-- The low power mode is entered (41_modes_of_operation R190). -/
  | standbyEnter
  /-- The low power mode is exited (41_modes_of_operation R191). -/
  | standbyExit
  deriving DecidableEq, Repr, Inhabited

/-- Why the machine stops with a fault. -/
inductive Fault where
  /-- `RelocGap`: raised by a fetch at an address between two relocated exception entries (43_exception_relocation R258,
  60_exceptions R316, decision D12). Safe: nothing is claimed about what follows. -/
  | relocGap (addr : Word)
  /-- `PrivilegedSpr`: raised by `mtspr` and `mfspr` to one of the ten registers in user mode (44_spr_access R292,
  60_exceptions R317, decision D14). Safe: nothing is claimed about what follows. -/
  | privilegedSpr (r : Spr)
  deriving DecidableEq, Repr

/-- Situations the model gives no meaning. -/
inductive Refusal where
  /-- Raised by an arm of `exec` whose instruction has no meaning yet. Safe. -/
  | notModelled (mnemonic : String)
  /-- Raised by a fetch or a register access presented in the power save state (41_modes_of_operation R190: "no fetch
  step and no SPR step is enabled"). Safe. -/
  | powerSave
  /-- Raised by a fetch in Decompression ON mode that EN_COMP or the part does not admit (40_compression R131, U7). Safe. -/
  | decompressionDisabled
  /-- Raised by an OFF-mode fetch at an address that is no multiple of four (20_memory R75, U14, decision D17). Safe. -/
  | misalignedFetch
  /-- Raised by a check while an enabled region has an unlisted size or an unaligned base (U1, U2, decision D10). Safe. -/
  | illegalRegion
  /-- Raised by a fetch the IMPU allows while relocation is on and exception routines are compressed, and by an ON-mode fetch
  in the exception table while relocation is on (43_exception_relocation R262, U12, decision D36; log 27). Safe. -/
  | relocatedCompressed
  /-- Raised by a decompression that meets no code word, no label where one must stand, a pointer outside its stream or more
  than 36 bits (U6, 30_encoding R100). Safe. -/
  | notCompressedCode
  /-- Raised by standby entry with accesses pending (41_modes_of_operation R191). Safe. -/
  | standbyWithPending
  /-- Raised by the answer to a fetch that reads a byte the core has stored to (20_memory R83, U13, decision D28). Safe. -/
  | storedLocation
  deriving DecidableEq, Repr

structure State where
  /-- The nine IMPU registers (10_state R20 to R38). -/
  impu : Impu
  /-- BBCMCR (10_state R39 to R47). -/
  bbcmcr : Bbcmcr
  /-- BBCMCR values written over since the last `isync`, oldest first (44_spr_access R291). -/
  superseded : List Bbcmcr
  /-- The controller mode (10_state R51). -/
  mode : CtrlMode
  /-- Accesses forwarded and not yet answered, oldest first (10_state R51). -/
  pending : List Pending
  /-- Parked mastership of the U-bus (10_state R51). -/
  parked : Bool
  /-- The address of the last access on the U-bus, which the page attribute compares with (20_memory R79). -/
  lastBus : Option Word
  /-- The decompressor (10_state R52). -/
  icdu : Icdu
  /-- The core at the module's port (10_state R49, R50). -/
  core : Core
  /-- The access the core issues next; while an instruction is executed, the access that fetched it (00_scope R9). -/
  acc : Access
  /-- The memory behind the U-bus (20_memory R70, R83). -/
  mem : List Host.Cell
  /-- The addresses of the bytes the core has stored to in this run, which no fetch may read (20_memory R83, decision D28). -/
  stored : List Word
  /-- What the environment presents next, oldest first (the model's own; log 1). -/
  inputs : List Event
  /-- What the last step gave out (the model's own; log 1). -/
  out : Outputs
  /-- The number of free values taken so far (the model's own; log 9). -/
  draws : Nat
  deriving DecidableEq, Repr

/-- No output. -/
def Outputs.none : Outputs := { bus := [], word := Option.none, next := Option.none, report := Option.none, executes := false }

/-- The machine right after the first reset of a run (70_reset_and_hazards R351), with the reset configuration word all
zero (R352: the default). What R351 gives no value for is 0, false or none: see log 4, 5, 6, 7, 39. -/
def State.reset : State where
  impu := {
    rba := Vector.replicate 4 0#20
    ra := Vector.replicate 4 { rs := 0#20, pp := 0#2, g := false, cmpr := 0#2 }
    gra := { enr := Vector.replicate 4 false, pp := 0#2, g := false, cmpr := 0#2 } }
  bbcmcr := {
    be := false
    etre := Config.chip.resetEtre
    oerc := Config.chip.resetOerc
    enComp := false
    excComp := false
    decompScEn := false }
  superseded := []
  mode := .idle
  pending := []
  parked := true
  lastBus := none
  icdu := {
    left := 0#5
    right := 0#5
    base := 0#20
    leftRight := false
    sameLine := false
    next := 0#32
    prefetched := none }
  core := {
    x := Vector.replicate 32 0#32
    lr := 0#32
    ctr := 0#32
    srr0 := 0#32
    srr1 := { bit1 := false, bit3 := false, bit4 := false, bit10 := false }
    msrIp := false }
  acc := {
    addr := 0x00000100#32
    priv := .supervisor
    msrIr := false
    spec := false
    showCycle := false
    ptrace := false
    dbg := false
    dmode := .off
    form := .twoPointer
    entry := true }
  mem := []
  stored := []
  inputs := []
  out := Outputs.none
  draws := 0

end Sys2Proof.Machine
end

