-- ==== Sys2Proof/Machine/Operands.lean ====
section
/-!
DEFINITION. Operands: the general registers, and the writable and readable images of the ten registers.

44_spr_access R281 to R290; a reserved bit is not stored, a write to it is dropped and a read of it is a free value
(10_state R48; log 40).
-/

namespace Sys2Proof.Machine

/-- The value of general register `r` of the core, any of 0 to 31 (44_spr_access R293(b)). -/
def State.getX (s : State) (r : Reg) : Word := s.core.x.get r.toFin

/-- `x[r] <- v` (00_scope R12). -/
def State.setX (s : State) (r : Reg) (v : Word) : State :=
  { s with core := { s.core with x := s.core.x.set r.toNat v r.isLt } }

/-- What a write of `v` leaves in MI_RA[i] (44_spr_access R285): CMPR is written on the MPC556 only. -/
def RaReg.write (hasComp : Bool) (old : RaReg) (v : Word) : RaReg where
  rs := docField v 0 20
  pp := docField v 20 2
  g := docBit v 25
  cmpr := if hasComp then docField v 26 2 else old.cmpr

/-- What a write of `v` leaves in MI_GRA (44_spr_access R287): CMPR is written on the MPC556 only. -/
def GraReg.write (hasComp : Bool) (old : GraReg) (v : Word) : GraReg where
  enr := #v[docBit v 0, docBit v 1, docBit v 2, docBit v 3]
  pp := docField v 20 2
  g := docBit v 25
  cmpr := if hasComp then docField v 26 2 else old.cmpr

/-- What a write of `v` leaves in BBCMCR (44_spr_access R289): EN_COMP is read only, EXC_COMP and DECOMP_SC_EN are written
on the MPC556 only. -/
def Bbcmcr.write (hasComp : Bool) (old : Bbcmcr) (v : Word) : Bbcmcr where
  be := docBit v 18
  etre := docBit v 19
  oerc := docBit v 20
  enComp := old.enComp
  excComp := if hasComp then docBit v 22 else old.excComp
  decompScEn := if hasComp then docBit v 23 else old.decompScEn

/-- What a write of `v` to register `r` leaves in the IMPU registers (44_spr_access R283, R285, R287). BBCMCR is none of them. -/
def Impu.write (hasComp : Bool) (r : Spr) (v : Word) (m : Impu) : Impu :=
  match r with
  | .rba i => { m with rba := m.rba.set i (docField v 0 20) i.isLt }
  | .ra i => { m with ra := m.ra.set i (RaReg.write hasComp m.ra[i] v) i.isLt }
  | .gra => { m with gra := GraReg.write hasComp m.gra v }
  | .bbcmcr => m

/-- MI_RBA[i] as a word, reserved positions 0 (10_state R23). -/
def rbaImage (ra : BitVec 20) : Word := ra ++ 0#12

/-- MI_RA[i] as a word, reserved positions 0 (10_state R25). -/
def RaReg.image (r : RaReg) : Word := r.rs ++ r.pp ++ 0#3 ++ BitVec.ofBool r.g ++ r.cmpr ++ 0#4

/-- MI_GRA as a word, reserved positions 0 (10_state R32). -/
def GraReg.image (r : GraReg) : Word :=
  BitVec.ofBool r.enr[0] ++ BitVec.ofBool r.enr[1] ++ BitVec.ofBool r.enr[2] ++ BitVec.ofBool r.enr[3] ++ 0#16 ++ r.pp ++ 0#3
    ++ BitVec.ofBool r.g ++ r.cmpr ++ 0#4

/-- BBCMCR as a word, reserved positions 0 (10_state R39). -/
def Bbcmcr.image (r : Bbcmcr) : Word :=
  0#18 ++ BitVec.ofBool r.be ++ BitVec.ofBool r.etre ++ BitVec.ofBool r.oerc ++ BitVec.ofBool r.enComp
    ++ BitVec.ofBool r.excComp ++ BitVec.ofBool r.decompScEn ++ 0#8

/-- A register of the module as a word, reserved positions 0. -/
def State.sprImage (s : State) : Spr → Word
  | .rba i => rbaImage s.impu.rba[i]
  | .ra i => s.impu.ra[i].image
  | .gra => s.impu.gra.image
  | .bbcmcr => s.bbcmcr.image

/-- The reserved positions of each register (30_encoding R116); on the MPC555 the MPC556-only fields are among them
(10_state R29, R47, decision D15). -/
def reservedMask (hasComp : Bool) : Spr → Word
  | .rba _ => 0x00000FFF#32
  | .ra _ => if hasComp then 0x0000038F#32 else 0x000003BF#32
  | .gra => if hasComp then 0x0FFFF38F#32 else 0x0FFFF3BF#32
  | .bbcmcr => if hasComp then 0xFFFFC0FF#32 else 0xFFFFC7FF#32

/-- What a read of the register returns when the reserved positions show `fill` (44_spr_access R284, R286, R288, R290). -/
def State.sprReadable (s : State) (hasComp : Bool) (r : Spr) (fill : Word) : Word :=
  (s.sprImage r &&& ~~~reservedMask hasComp r) ||| (fill &&& reservedMask hasComp r)

/-- What the reserved positions show: 0 under RESERVED_READS_ZERO, else a free value per bit (10_state R48). -/
def reservedFill (p : Config.Params) (n : Nat) : Word := if p.reservedReadsZero then 0#32 else p.freeWord n

end Sys2Proof.Machine
end

