-- ==== Sys2Proof/Machine/Flags.lean ====
section
/-!
DEFINITION. Flag computations.

No instruction of the table writes a flag or condition code (44_spr_access, 10_state R50). What is computed here are the
allow bits of the IMPU's three checks (42_impu_protection R217, R218, R220), the bit of SRR1 that reports a refusal (R221,
60_exceptions R311), and the BBCMCR bits that govern a fetch (44_spr_access R291).
-/

namespace Sys2Proof.Machine

/-- The protection check (42_impu_protection R217): the more significant bit of PP (register bit 20) admits both levels, PP = 01
the supervisor only. -/
def ppOk (pp : BitVec 2) (priv : Priv) : Bool := pp.getLsbD 1 || (pp == 1#2 && priv == .supervisor)

/-- The guard check (42_impu_protection R218, 90_conflicts C4, decision D6): a guarded region stops speculative fetches only. -/
def gOk (g spec : Bool) : Bool := !(g && spec)

/-- The compression check (42_impu_protection R220): the second bit of CMPR (register bit 27) turns the restriction on, the
first (register bit 26) says which mode is the allowed one; true on the MPC555. -/
def cmprOk (hasComp : Bool) (cmpr : BitVec 2) (m : DMode) : Bool :=
  !hasComp || !cmpr.getLsbD 0 || (cmpr.getLsbD 1 == (m == .on))

/-- Whether a refusal is reported as guarded storage (SRR1 bit 3) rather than protected storage (SRR1 bit 4)
(42_impu_protection R221). Where the spec names no bit, `tie` decides: a free value (decisions D7, D8; log 18). -/
def reportsGuarded (pp_ok g_ok tie : Bool) : Bool :=
  if !pp_ok && g_ok then false
  else if pp_ok && !g_ok then true
  else tie

/-- The SRR1 bits of an IMPU exception (60_exceptions R311): one bit set, bits 1 and 10 zero. -/
def violationBits (guarded : Bool) : Srr1 where
  bit1 := false
  bit3 := guarded
  bit4 := !guarded
  bit10 := false

/-- One field of BBCMCR as it governs a fetch: its value where every value since the last `isync` agrees, else a free
value (44_spr_access R291, decision D20). -/
def State.drawField (p : Config.Params) (s : State) (field : Bbcmcr → Bool) (k : Nat) : Bool :=
  if s.superseded.all (fun o => field o == field s.bbcmcr) then field s.bbcmcr else p.freeBit (s.draws + k)

/-- The BBCMCR value that governs a fetch issued now (44_spr_access R291). EN_COMP is never in doubt: no write changes it. -/
def State.governing (p : Config.Params) (s : State) : Bbcmcr where
  be := s.drawField p Bbcmcr.be 0
  etre := s.drawField p Bbcmcr.etre 1
  oerc := s.drawField p Bbcmcr.oerc 2
  enComp := s.bbcmcr.enComp
  excComp := s.drawField p Bbcmcr.excComp 3
  decompScEn := s.drawField p Bbcmcr.decompScEn 4

end Sys2Proof.Machine
end

