-- ==== Sys2Proof/Machine/Ops.lean ====
section
/-!
DEFINITION. The named operations: memory, the core's flow, writing and reading a register of the module, forwarding to
the U-bus, taking an exception, an instruction of the core's own.
-/

namespace Sys2Proof.Machine

/-! ## Memory -/

/-- The canonical form of memory: addresses strictly rising and below 2^32 (20_memory R70; log 10). -/
def Memory.wf : List Host.Cell → Bool
  | [] => true
  | [c] => decide (c.1 < 2 ^ 32)
  | c :: d :: rest => decide (c.1 < d.1) && Memory.wf (d :: rest)

/-- The byte placed at an address, if one was. An address nothing was placed at holds no value of the model's (log 10). -/
def Memory.placed : List Host.Cell → Nat → Option Byte
  | [], _ => none
  | c :: rest, a => if c.1 = a then some c.2 else Memory.placed rest a

/-- Placing a byte. Nothing in the module does this (20_memory R76): it stands for the platform's loading of memory. -/
def Memory.place (a : Nat) (v : Byte) : List Host.Cell → List Host.Cell
  | [] => [(a, v)]
  | c :: rest =>
    if a < c.1 then (a, v) :: c :: rest
    else if a = c.1 then (a, v) :: rest
    else c :: Memory.place a v rest

/-- The byte the memory oracle answers at an address (20_memory R83): what was placed there, else the platform's own. -/
def Memory.byteAt (p : Config.Params) (mem : List Host.Cell) (a : Word) : Byte :=
  (Memory.placed mem a.toNat).getD (p.platformByte a.toNat)

/-- `MemRead(a, 4)` (00_scope R12, 20_memory R76): one word, read in one step (R77), the lowest address most significant (R73). -/
def Memory.readWord (p : Config.Params) (mem : List Host.Cell) (a : Word) : Word :=
  wordOfBytes (Memory.byteAt p mem a) (Memory.byteAt p mem (a + 1#32)) (Memory.byteAt p mem (a + 2#32))
    (Memory.byteAt p mem (a + 3#32))

/-- The word at an address holds a byte the core has stored to (20_memory R83, decision D28). -/
def Memory.storedIn (stored : List Word) (a : Word) : Bool := stored.any (fun b => b - a < 4#32)

/-- Placing a word's four bytes (20_memory R73). -/
def Memory.placeWord (a w : Word) (mem : List Host.Cell) : List Host.Cell :=
  Memory.place a.toNat (docField w 0 8) (Memory.place (a + 1#32).toNat (docField w 8 8)
    (Memory.place (a + 2#32).toNat (docField w 16 8) (Memory.place (a + 3#32).toNat (docField w 24 8) mem)))

/-! ## The core's flow -/

/-- The address after the current instruction: the next word in Decompression OFF mode (43_exception_relocation R258), the
next instruction address of the ICDU in ON mode (40_compression R150). -/
def State.nextAddr (s : State) : Word :=
  match s.acc.dmode with
  | .off => s.acc.addr + 4#32
  | .on => s.icdu.next

/-- The core goes on at an address; the attributes of its accesses stay (log 3). -/
def State.goTo (s : State) (a : Word) (f : AddrForm) : State :=
  { s with acc := { s.acc with addr := a, form := f, entry := false } }

/-- The prefetched instruction is discarded, as on a change of flow (40_compression R151). -/
def State.dropPrefetch (s : State) : State := { s with icdu := { s.icdu with prefetched := none } }

/-- A change of flow to an address. -/
def State.branchTo (s : State) (a : Word) (f : AddrForm) : State := (s.goTo a f).dropPrefetch

/-- The core goes on with the next instruction. -/
def State.advance (s : State) : State := s.goTo s.nextAddr .twoPointer

/-- A level from a bit. -/
def privOf (user : Bool) : Priv := if user then .user else .supervisor

/-- The address of the exception vector at an offset (43_exception_relocation R252, 60_exceptions R318). -/
def vectorAddress (msrIp : Bool) (offset : Word) : Word := (if msrIp then 0xFFF00000#32 else 0#32) + offset

/-- The access at an exception vector (43_exception_relocation R252). Its decompression mode is settled when it is issued
(40_compression R133). That it keeps the speculative, show cycle, program trace and debug attributes of the core's flow, free
inputs by decision D32, is a DESIGN CHOICE (log 3). -/
def vectorAccess (acc : Access) (vector : Word) (priv : Priv) (msrIr : Bool) : Access :=
  { acc with addr := vector, priv := priv, msrIr := msrIr, form := .twoPointer, entry := true }

/-! ## Registers of the module -/

/-- The values that pending accesses are judged by after IMPU register `r` was written with `v`: old or new, a free
choice for each (20_memory R85, decision D21). -/
def rejudge (p : Config.Params) (r : Spr) (v : Word) : Nat → List Pending → List Pending
  | _, [] => []
  | n, e :: rest =>
    (if p.freeBit n then { e with judgedBy := Impu.write p.hasComp r v e.judgedBy } else e) :: rejudge p r v (n + 1) rest

/-- `SPR[r] <- writable(r, v)` (44_spr_access R281). A write of BBCMCR opens the isync window (R291); a write of an IMPU register
governs later accesses and leaves pending ones judged by old or new (20_memory R85). -/
def State.writeSpr (p : Config.Params) (r : Spr) (v : Word) (s : State) : State :=
  match r with
  | .bbcmcr => { s with bbcmcr := Bbcmcr.write p.hasComp s.bbcmcr v, superseded := s.superseded ++ [s.bbcmcr] }
  | r =>
    { s with
      impu := Impu.write p.hasComp r v s.impu
      pending := rejudge p r v s.draws s.pending
      draws := s.draws + s.pending.length }

/-- `readable(r)` (44_spr_access R282), with the next free value at the reserved positions. -/
def State.readSpr (p : Config.Params) (r : Spr) (s : State) : Word := s.sprReadable p.hasComp r (reservedFill p s.draws)

/-- `isync` as far as the module is concerned: the current BBCMCR value governs every later fetch (44_spr_access R291). -/
def State.settle (s : State) : State := { s with superseded := [] }

/-! ## The U-bus -/

/-- The burst request attribute (41_modes_of_operation R183, R189, R193): BE is set and the access is not for the debug port. -/
def burstRequest (gov : Bbcmcr) (acc : Access) : Bool := gov.be && !acc.dbg

/-- The left and right bit pointers of a two pointer address (30_encoding R110, `PTR_ORDER`). -/
def bitPointers (p : Config.Params) (a : Word) : BitVec 5 × BitVec 5 :=
  if p.leftPointerFirst then (docField a 22 5, docField a 27 5) else (docField a 27 5, docField a 22 5)

/-- The bit pointer information of an instruction show cycle: in Decompression ON mode with DECOMP_SC_EN set
(60_exceptions R328). An access in the one pointer format shows the two fields of its address as they stand, so that bits 27:31
show 0: a DESIGN CHOICE, for the format is not given (91_not_in_source N15; log 36). -/
def showPointers (p : Config.Params) (gov : Bbcmcr) (acc : Access) (m : DMode) : Option (BitVec 5 × BitVec 5) :=
  if acc.showCycle && m == .on && gov.decompScEn then some (bitPointers p acc.addr) else none

/-- The accesses to a list of memory words as the U-bus sees them, given the address of the memory access before, which the page
attribute compares with (20_memory R79; which address it compares with is a DESIGN CHOICE, log 35). -/
def memoryAccesses (p : Config.Params) (gov : Bbcmcr) (acc : Access) (m : DMode) (cancelled : Bool) :
    Option Word → List Word → List BusAccess
  | _, [] => []
  | before, a :: rest =>
    { dest := .memory a
      burst := burstRequest gov acc
      carriedAsBurst := burstRequest gov acc && p.burstable a
      showCycle := acc.showCycle
      ptrace := acc.ptrace
      dbg := acc.dbg
      inPage := p.samePage before a
      pointers := showPointers p gov acc m
      cancelled := cancelled } :: memoryAccesses p gov acc m cancelled (some a) rest

/-- The one access of a debug port fetch: never a burst, and not to memory (41_modes_of_operation R189). That it is in no page is
a DESIGN CHOICE (20_memory R79, 91_not_in_source N1; log 35). -/
def debugAccess (p : Config.Params) (gov : Bbcmcr) (acc : Access) (m : DMode) (cancelled : Bool) : BusAccess where
  dest := .debugPort
  burst := false
  carriedAsBurst := false
  showCycle := acc.showCycle
  ptrace := acc.ptrace
  dbg := acc.dbg
  inPage := false
  pointers := showPointers p gov acc m
  cancelled := cancelled

/-- `Forward` (00_scope R12, 41_modes_of_operation R182, R185): the access appears on the U-bus, at each of the words or at the
debug port; the BBC holds the bus as its parked master (R181). A debug port access is none that the page attribute of the next
one compares with: a DESIGN CHOICE (log 35). -/
def State.forward (p : Config.Params) (gov : Bbcmcr) (acc : Access) (m : DMode) (cancelled : Bool) (words : List Word)
    (s : State) : State :=
  if acc.dbg then
    { s with parked := true, out := { s.out with bus := s.out.bus ++ [debugAccess p gov acc m cancelled] } }
  else
    { s with
      parked := true
      lastBus := words.getLast?.or s.lastBus
      out := { s.out with bus := s.out.bus ++ memoryAccesses p gov acc m cancelled s.lastBus words } }

/-! ## Exceptions -/

/-- The offset of the IMPU's exception vector (60_exceptions R312). -/
def impuVector : Word := 0x1300#32

/-- The report of an IMPU violation (60_exceptions R310 to R314). DESIGN CHOICE (log 17): the vector it names is by MSR[IP] when
the report is made. For an access refused ahead, which decision D29 lets the core take later, the vector gone to is by MSR[IP] when it is
taken (`State.takeViolation`), so the two differ where MSR[IP] changed in between. -/
def State.reportViolation (guarded : Bool) (acc : Access) (s : State) : State :=
  { s with
    out := { s.out with
      report := some {
        addr := acc.addr
        bits := violationBits guarded
        vector := vectorAddress s.core.msrIp impuVector
        delivered := acc.showCycle || acc.ptrace } } }

/-- The return address an exception puts in SRR0: the next instruction address of the ICDU in Decompression ON mode
(40_compression R150, 60_exceptions R321), a free value in OFF mode, where the spec names none (91_not_in_source N21; log 17). -/
def State.returnAddress (p : Config.Params) (m : DMode) (s : State) : Word :=
  match m with
  | .on => s.icdu.next
  | .off => p.freeWord s.draws

/-- The four SRR1 bits with free values, from the `n`th on. -/
def freeSrr1 (p : Config.Params) (n : Nat) : Srr1 where
  bit1 := p.freeBit n
  bit3 := p.freeBit (n + 1)
  bit4 := p.freeBit (n + 2)
  bit10 := p.freeBit (n + 3)

/-- Another exception of the core, whose vector fetch the environment presents (43_exception_relocation R252): the return address
in SRR0 by the mode of the flow it leaves (60_exceptions R321); the four SRR1 bits are free values (91_not_in_source N21; log 17). That
the general registers, LR, CTR and MSR[IP] stay is a DESIGN CHOICE (log 17); so is that the mode of a flow that stands at a vector not
yet fetched is the one its access carries over from before that entry, not the one EN_COMP and EXC_COMP would settle for the vector
(40_compression R133; log 17). -/
def State.interrupted (p : Config.Params) (s : State) : State :=
  { s with
    core := { s.core with
      srr0 := s.returnAddress p s.acc.dmode
      srr1 := freeSrr1 p s.draws }
    draws := s.draws + 4 }

/-- Taking the IMPU's exception: SRR1 bits 1, 3, 4, 10 as R311 says; the return address is the ICDU's next instruction
address in Decompression ON mode (R321) and a free value in OFF mode (R311); the core goes on at the vector (R312), a change of
flow, with privilege and MSR[IR] free (R321, N21; log 17). DESIGN CHOICE (log 17): the mode that decides on SRR0 is that of
the refused access, where the flow it leaves is in another one; the general registers, LR, CTR and MSR[IP] stay; and the vector gone
to is by MSR[IP] now, whatever the report of an access refused ahead named (`State.reportViolation`). -/
def State.takeViolation (p : Config.Params) (guarded : Bool) (m : DMode) (s : State) : State :=
  { s with
    core := { s.core with
      srr1 := violationBits guarded
      srr0 := s.returnAddress p m }
    icdu := { s.icdu with prefetched := none }
    acc := vectorAccess s.acc (vectorAddress s.core.msrIp impuVector) (privOf (p.freeBit s.draws)) (p.freeBit (s.draws + 1))
    draws := s.draws + 2 }

/-- The destination of an indirect branch, copied without any change from LR, CTR or SRR0 (40_compression R145). Through SRR0 it
is the one trace of an exception return (60_exceptions R322). -/
def State.indirectTarget (s : State) : IndirectSource → Word
  | .lr => s.core.lr
  | .ctr => s.core.ctr
  | .srr0 => s.core.srr0

/-! ## An instruction of the core's own -/

/-- The core's side of the port with every value free, from the `n`th on. -/
@[irreducible] def freeCore (p : Config.Params) (n : Nat) : Core where
  x := Vector.ofFn (fun i : Fin 32 => p.freeWord (n + i))
  lr := p.freeWord (n + 32)
  ctr := p.freeWord (n + 33)
  srr0 := p.freeWord (n + 34)
  srr1 := freeSrr1 p n
  msrIp := p.freeBit (n + 4)

/-- An address the core may go to, from the `n`th free value: that of an exception vector by MSR[IP] where it enters an exception
routine (60_exceptions R321), any in Decompression ON mode, a multiple of four in OFF mode (20_memory R75). -/
def freeTarget (p : Config.Params) (enters on msrIp : Bool) (n : Nat) : Word :=
  if enters then vectorAddress msrIp (0#19 ++ (p.freeWord n).extractLsb' 0 5 ++ 0#8)
  else if on then p.freeWord n
  else p.freeWord n &&& 0xFFFFFFFC#32

/-- An access with every attribute free, from the `n`th value on, within what the core may present: ON mode only where
it is admitted (40_compression R131), an entry into an exception routine at a vector in the two pointer form. -/
@[irreducible] def freeAccess (p : Config.Params) (onAdmitted msrIp : Bool) (n : Nat) : Access where
  addr := freeTarget p (p.freeBit (n + 8)) (onAdmitted && p.freeBit (n + 6)) msrIp n
  priv := privOf (p.freeBit n)
  msrIr := p.freeBit (n + 1)
  spec := p.freeBit (n + 2)
  showCycle := p.freeBit (n + 3)
  ptrace := p.freeBit (n + 4)
  dbg := p.freeBit (n + 5)
  dmode := if onAdmitted && p.freeBit (n + 6) then .on else .off
  form := if p.freeBit (n + 7) && !p.freeBit (n + 8) then .onePointer else .twoPointer
  entry := p.freeBit (n + 8)

/-- How many free values `freeCore` and `freeAccess` take together. -/
def ownDraws : Nat := 64

/-- The core's side after an instruction of its own that goes on at `next`: every value free, but for SRR0 where it ends in an
exception of compressed code, which saves the next instruction address of the ICDU (40_compression R150, 60_exceptions R321). -/
def State.ownCore (p : Config.Params) (next : Access) (s : State) : Core :=
  if next.entry && s.acc.dmode == .on then { freeCore p s.draws with srr0 := s.icdu.next } else freeCore p s.draws

/-- The access after an instruction of the core's own. -/
def State.ownNext (p : Config.Params) (s : State) : Access :=
  freeAccess p (p.hasComp && s.bbcmcr.enComp) (freeCore p s.draws).msrIp (s.draws + 40)

/-- An instruction the core executes by itself and the spec says nothing of (00_scope R6, 44_spr_access R280): every value on
the core's side of the port and the next access are free, and it may end in an exception (60_exceptions R321); no register of the
module changes (70_reset_and_hazards R374; log 14). -/
def State.ownInstruction (p : Config.Params) (s : State) : State :=
  { s with
    core := s.ownCore p (s.ownNext p)
    acc := s.ownNext p
    draws := s.draws + ownDraws }

/-- A word of no row of the table, executed by the core: an instruction of its own, which may be a store. What it stores to is a
free value; no fetch may read it later in the run (20_memory R83, decision D28; log 10). -/
def State.foreignInstruction (p : Config.Params) (s : State) : State :=
  { s.ownInstruction p with stored := s.stored ++ p.storedTo s.draws }

end Sys2Proof.Machine
end

