-- ==== Sys2Proof/Machine/Icdu.lean ====
section
/-!
DEFINITION. The instruction code decompressor unit of the MPC556 (40_compression R130 to R151, 30_encoding R110 to R115).

The vocabularies, what a bypass code stands before, and the label's unknowns are parameters (decision D25, 91_not_in_source
N10, N12; log 29): each function takes them in `p`.
-/

namespace Sys2Proof.Machine

open Config (Side Tx Leaf CodeTree)

/-! ## Addresses (30_encoding R110 to R112, 40_compression R147) -/

/-- `B`, the byte address of the base word (40_compression R147). -/
def baseWord (p : Config.Params) (a : Word) : Word := p.compBase + ((0#12 ++ docField a 0 20) <<< 2)

/-- The word that holds the left half (30_encoding R111). -/
def leftWord (p : Config.Params) (a : Word) : Word :=
  if docBit a 21 && docBit a 20 then baseWord p a + 4#32 else baseWord p a

/-- The word that holds the right half (30_encoding R111). -/
def rightWord (p : Config.Params) (a : Word) : Word :=
  if docBit a 21 && !docBit a 20 then baseWord p a + 4#32 else baseWord p a

/-- The word or words an ON-mode access goes to first (40_compression R147). -/
def physicalWords (p : Config.Params) (f : AddrForm) (a : Word) : List Word :=
  match f with
  | .twoPointer => if docBit a 21 then [baseWord p a, baseWord p a + 4#32] else [baseWord p a]
  | .onePointer => [baseWord p a]

/-- The one pointer format of a direct branch target (30_encoding R112, decision D31). -/
def onePointer (wp : BitVec 20) (ptr : BitVec 5) : Word := wp ++ 0#2 ++ ptr ++ 0#5

/-! ## Streams (30_encoding R113, 40_compression R140) -/

/-- A place in a stream: a memory word and a bit of it, in the document's numbering. -/
structure Place where
  word : Word
  bit : Nat
  deriving DecidableEq, Repr

/-- The left/right boundary of a compressed memory word: the first bit of its right stream (30_encoding R113). -/
def boundary (w : Word) : Nat := if docBit w 31 then 12 else 19

/-- The first bit of a stream in a word (30_encoding R113). -/
def streamFirst (w : Word) : Side → Nat
  | .left => 0
  | .right => boundary w

/-- The bit after the last one of a stream in a word (30_encoding R113). -/
def streamEnd (w : Word) : Side → Nat
  | .left => boundary w
  | .right => 31

/-- The place lies in the stream's part of its word. -/
def inStream (p : Config.Params) (mem : List Host.Cell) (side : Side) (q : Place) : Bool :=
  let w := Memory.readWord p mem q.word
  decide (streamFirst w side ≤ q.bit) && decide (q.bit < streamEnd w side)

/-- The next bit of a stream: at the end of its part it goes on in the same part of the next word (40_compression R149). -/
def nextPlace (p : Config.Params) (mem : List Host.Cell) (side : Side) (q : Place) : Place :=
  if q.bit + 1 < streamEnd (Memory.readWord p mem q.word) side then { q with bit := q.bit + 1 }
  else { word := q.word + 4#32, bit := streamFirst (Memory.readWord p mem (q.word + 4#32)) side }

/-- `n` bits further. -/
def skipBits (p : Config.Params) (mem : List Host.Cell) (side : Side) : Nat → Place → Place
  | 0, q => q
  | n + 1, q => skipBits p mem side n (nextPlace p mem side q)

/-- The bit at a place. -/
def bitAt (p : Config.Params) (mem : List Host.Cell) (q : Place) : Bool := docBit (Memory.readWord p mem q.word) q.bit

/-- The next `n` bits of a stream as a number behind `acc`, the first the most significant. -/
def takeBits (p : Config.Params) (mem : List Host.Cell) (side : Side) : Nat → Place → Nat → Nat
  | 0, _, acc => acc
  | n + 1, q, acc => takeBits p mem side n (nextPlace p mem side q) (2 * acc + (bitAt p mem q).toNat)

/-! ## Symbols (40_compression R139, R149) -/

/-- Walking a code tree over a stream: what the code word stands for, and how long it is (30_encoding R100: the code word says
where it ends). -/
def walkTree (p : Config.Params) (mem : List Host.Cell) (side : Side) : CodeTree → Place → Option (Leaf × Nat)
  | .absent, _ => none
  | .leaf l, _ => some (l, 0)
  | .node zero one, q =>
    if bitAt p mem q then (walkTree p mem side one (nextPlace p mem side q)).map (fun f => (f.1, f.2 + 1))
    else (walkTree p mem side zero (nextPlace p mem side q)).map (fun f => (f.1, f.2 + 1))

/-- The length of every bypass code (30_encoding R100, R115: "A bypass instruction requires four bits"). -/
def bypassCodeBits : Nat := 4

/-- The code word at a place. A bypass code of another length than four bits is none (40_compression R149). -/
def codeAt (p : Config.Params) (mem : List Host.Cell) (side : Side) (t : Tx) (q : Place) : Option (Leaf × Nat) :=
  match walkTree p mem side (p.vocab t) q with
  | some (.bypass e, n) => if n = bypassCodeBits then some (.bypass e, n) else none
  | found => found

/-- The next `n` bits of a stream as they stand. -/
def rawBits (p : Config.Params) (mem : List Host.Cell) (side : Side) (n : Nat) (q : Place) : BitVec n :=
  BitVec.ofNat n (takeBits p mem side n q 0)

/-- `DecodeSym` (40_compression R149): a byte of the vocabulary, or what follows the bypass code of one byte; and how many bits it
takes. -/
def decodeSym (p : Config.Params) (mem : List Host.Cell) (side : Side) (t : Tx) (q : Place) : Option (Byte × Nat) :=
  match codeAt p mem side t q with
  | some (.byte b, n) => some (b, n)
  | some (.bypass .byte, n) =>
    let found := p.bypass t (rawBits p mem side 32 (skipBits p mem side n q))
    some (found.1, n + found.2)
  | _ => none

/-- The bits of a label after its mark: a 5-bit pointer and the line bit (30_encoding R114). -/
def labelBits : Nat := 6

/-- The vocabulary of the first byte of a half (40_compression R140). -/
def firstTx : Side → Tx
  | .left => .x1
  | .right => .x3

/-- The vocabulary of the second byte of a half (40_compression R140). -/
def secondTx : Side → Tx
  | .left => .x2
  | .right => .x4

/-- Where the first symbol of a half is: a label in front of it is skipped in normal sequential operation
(40_compression R144), and after any change of flow too (log 29). -/
def pastLabel (p : Config.Params) (mem : List Host.Cell) (side : Side) (q : Place) : Place :=
  match codeAt p mem side (firstTx side) q with
  | some (.labelMark, n) => skipBits p mem side (n + labelBits) q
  | _ => q

/-- The two bytes of a half, by two symbols or by the bypass of the half, and how many bits they take (40_compression R149,
30_encoding R115). -/
def decodeHalf (p : Config.Params) (mem : List Host.Cell) (side : Side) (q : Place) : Option (BitVec 16 × Nat) :=
  match codeAt p mem side (firstTx side) q with
  | some (.bypass .half, n) =>
    let found := p.bypassHalf side (rawBits p mem side 32 (skipBits p mem side n q))
    some (found.1, n + found.2)
  | _ =>
    match decodeSym p mem side (firstTx side) q with
    | none => none
    | some (b1, n1) =>
      match decodeSym p mem side (secondTx side) (skipBits p mem side n1 q) with
      | none => none
      | some (b2, n2) => some (b1 ++ b2, n1 + n2)

/-- An instruction's word, and how many bits of the left and of the right stream it takes. -/
structure Halves where
  word : Word
  leftBits : Nat
  rightBits : Nat
  deriving DecidableEq, Repr

/-- The code word in front of the first symbol of the stream `wholeSide` is the bypass of the whole instruction (30_encoding R115,
mode 3). -/
def wholeBypassed (p : Config.Params) (mem : List Host.Cell) (l r : Place) : Bool :=
  match p.wholeSide with
  | .left => codeAt p mem .left .x1 l == some (.bypass .whole, bypassCodeBits)
  | .right => codeAt p mem .right .x3 r == some (.bypass .whole, bypassCodeBits)

/-- Where the symbols of an instruction start, past its labels. The stream that holds only bits of a wholly bypassed instruction has
no code words, so no label is looked for there (91_not_in_source N12; log 29). DESIGN CHOICE (log 29): a label is skipped wherever it stands
in front of a first symbol, as in sequence (40_compression R144), however the two places were come by: by an indirect branch, which makes no
label lookup (R145), by an exception vector in Decompression ON mode, or behind the label of a direct branch. -/
def symbolPlaces (p : Config.Params) (mem : List Host.Cell) (l r : Place) : Place × Place :=
  let first := pastLabel p mem .left l
  let second := pastLabel p mem .right r
  if wholeBypassed p mem first second then
    match p.wholeSide with
    | .left => (first, r)
    | .right => (l, second)
  else (first, second)

/-- A wholly bypassed instruction: four bits for the bypass and the 32 bits as they stand (30_encoding R100), shared out between
the streams, the left stream's bits first (91_not_in_source N12; log 29). -/
def wholeHalves (p : Config.Params) (mem : List Host.Cell) (l r : Place) : Halves :=
  let codeLeft := match p.wholeSide with
    | .left => bypassCodeBits
    | .right => 0
  let codeRight := bypassCodeBits - codeLeft
  let n := p.wholeLeftBits.val
  { word := BitVec.ofNat 32 (takeBits p mem .right (32 - n) (skipBits p mem .right codeRight r)
      (takeBits p mem .left n (skipBits p mem .left codeLeft l) 0))
    leftBits := codeLeft + n
    rightBits := codeRight + (32 - n) }

/-- The three ways an instruction may be stored (30_encoding R115): wholly bypassed, or half by half. -/
def decodeHalves (p : Config.Params) (mem : List Host.Cell) (l r : Place) : Option Halves :=
  if wholeBypassed p mem l r then some (wholeHalves p mem l r)
  else
    match decodeHalf p mem .left l with
    | none => none
    | some (x12, n) =>
      match decodeHalf p mem .right r with
      | none => none
      | some (x34, k) => some { word := x12 ++ x34, leftBits := n, rightBits := k }

/-- The length of the largest compressed instruction (30_encoding R100). -/
def largestInstruction : Nat := 36

/-! ## The two pointer address of two places (40_compression R150) -/

/-- Word pointer: the lower of the two words reached; bit 21: whether they differ; bit 20: whether the right side is in the
lower word, a don't care where they do not differ (30_encoding R111); the two bit positions. A word past the last one of the
4-Mbyte space has its pointer modulo 2^20: a DESIGN CHOICE (log 31). -/
def twoPointerOf (p : Config.Params) (left right : Place) : Word :=
  let rightLow := decide (right.word - p.compBase < left.word - p.compBase)
  let low := if rightLow then right.word else left.word
  let differ := left.word != right.word
  let bit20 := if differ then rightLow else p.dontCareBit20 low
  let wp : BitVec 20 := ((low - p.compBase) >>> 2).extractLsb' 0 20
  let l := BitVec.ofNat 5 left.bit
  let r := BitVec.ofNat 5 right.bit
  let ptrs := if p.leftPointerFirst then (l, r) else (r, l)
  wp ++ BitVec.ofBool bit20 ++ BitVec.ofBool differ ++ ptrs.1 ++ ptrs.2

/-! ## Where the halves of an instruction start -/

/-- The places a two pointer address names (30_encoding R110, R111), each inside its stream. -/
def twoPointerPlaces (p : Config.Params) (mem : List Host.Cell) (a : Word) : Option (Place × Place) :=
  let ptrs := bitPointers p a
  let l : Place := { word := leftWord p a, bit := ptrs.1.toNat }
  let r : Place := { word := rightWord p a, bit := ptrs.2.toNat }
  if inStream p mem .left l && inStream p mem .right r then some (l, r) else none

/-- The other stream. -/
def otherSide : Side → Side
  | .left => .right
  | .right => .left

/-- The places of a direct branch target: the one pointer address names a label; its pointer and line bit name the other
half, and the half it stands in front of starts after it (40_compression R144, 30_encoding R114). DESIGN CHOICE: the line bit
counts from the word of the one pointer address, where the label starts, though the label may end in the next word; and which
half the address locates is an open function of the address (91_not_in_source N10; log 29). -/
def onePointerPlaces (p : Config.Params) (mem : List Host.Cell) (a : Word) : Option (Place × Place) :=
  let side := p.labelSide a
  let start : Place := { word := baseWord p a, bit := (docField a 22 5).toNat }
  if !inStream p mem side start then none
  else
    match codeAt p mem side (firstTx side) start with
    | some (.labelMark, n) =>
      let q := skipBits p mem side n start
      let line := skipBits p mem side 5 q
      let onNext := bitAt p mem line == p.labelNextLine
      let this := nextPlace p mem side line
      let other : Place := {
        word := if onNext then baseWord p a + 4#32 else baseWord p a
        bit := takeBits p mem side 5 q 0 }
      if !inStream p mem (otherSide side) other then none
      else
        match side with
        | .left => some (this, other)
        | .right => some (other, this)
    | _ => none

/-- The places an address of either form names. -/
def halfPlaces (p : Config.Params) (mem : List Host.Cell) (f : AddrForm) (a : Word) : Option (Place × Place) :=
  match f with
  | .twoPointer => twoPointerPlaces p mem a
  | .onePointer => onePointerPlaces p mem a

/-- The words from `lo` that a decompression ending at two places has read (40_compression R147). DESIGN CHOICE: the word of an end
place counts as read, also where the half before it ends exactly at the end of its part (log 45). -/
def wordsRead (lo : Word) (l r : Place) : List Word :=
  let span := max (l.word - lo).toNat (r.word - lo).toNat / 4
  (List.range (span + 1)).map (fun k => lo + BitVec.ofNat 32 (4 * k))

/-- The instruction whose halves start at two places, asked for at address `a` (40_compression R149), the next instruction address
from where they end (R150). One of more than 36 bits is none (30_encoding R100). DESIGN CHOICE: the address kept for a labelled
instruction is that of the places given, so past the label after a direct branch and at the label in sequence (40_compression R144;
log 30). -/
def decodedAt (p : Config.Params) (mem : List Host.Cell) (a : Word) (l r : Place) : Option Decoded :=
  let starts := symbolPlaces p mem l r
  match decodeHalves p mem starts.1 starts.2 with
  | none => none
  | some h =>
    if h.leftBits + h.rightBits ≤ largestInstruction then
      let l' := skipBits p mem .left h.leftBits starts.1
      let r' := skipBits p mem .right h.rightBits starts.2
      some {
        addr := a
        instr := h.word
        next := twoPointerOf p l' r'
        here := twoPointerOf p l r
        words := wordsRead (baseWord p a) l' r'
        bits := h.leftBits + h.rightBits }
    else none

/-- `Decompress` (40_compression R148). -/
def decompress (p : Config.Params) (mem : List Host.Cell) (f : AddrForm) (a : Word) : Option Decoded :=
  match halfPlaces p mem f a with
  | none => none
  | some (l, r) => decodedAt p mem a l r

/-- The decompressed instruction of an access: the prefetched one where the core goes on in sequence, else decompressed
now (40_compression R146, R151; log 32). -/
def icduDecode (p : Config.Params) (mem : List Host.Cell) (u : Icdu) (f : AddrForm) (a : Word) : Option Decoded :=
  match u.prefetched with
  | some d => if f == .twoPointer && d.addr == a then some d else decompress p mem f a
  | none => decompress p mem f a

/-- The ICDU at a two pointer address, whose five parts it keeps (40_compression R141), with the next instruction address and
what is prefetched. -/
def icduAt (p : Config.Params) (here next : Word) (prefetched : Option Decoded) : Icdu where
  left := (bitPointers p here).1
  right := (bitPointers p here).2
  base := docField here 0 20
  leftRight := docBit here 20
  sameLine := docBit here 21
  next := next
  prefetched := prefetched

/-- The ICDU after delivering an instruction: the five parts of its address (40_compression R141), the next address (R150), and
the next instruction prefetched and decoded (R151). -/
def icduAfter (p : Config.Params) (mem : List Host.Cell) (d : Decoded) : Icdu :=
  icduAt p d.here d.next (decompress p mem .twoPointer d.next)

/-- An access is the sequential successor the ICDU has prefetched (40_compression R146, R151). -/
def Icdu.hasPrefetched (u : Icdu) (acc : Access) : Bool :=
  acc.dmode == .on && !acc.entry && acc.form == .twoPointer && u.prefetched.any (fun d => d.addr == acc.addr)

end Sys2Proof.Machine
end

