-- ==== Sys2Proof/Machine/Branch.lean ====
section
/-!
DEFINITION. The direct branches before and after compression mapping (30_encoding R105 to R108, 40_compression R142, R143).

The core executes them; what they do at the module's port is to name the address of the next fetch (43_exception_relocation
R252, R260). The I-form and B-form semantics before mapping are general knowledge of the spec (93_implementation_defined
G2); whether a conditional branch is taken, and CTR after it, are free; with LK it writes LR taken or not (log 41).
-/

namespace Sys2Proof.Machine

/-- LK: a branch-and-link puts the next instruction address in LR (40_compression R150). -/
def State.link (lk : Bool) (s : State) : State :=
  if lk then { s with core := { s.core with lr := s.nextAddr } } else s

/-- The target of a branch before mapping: the branch's address plus the sign-extended displacement, or the displacement
itself when AA is set (93_implementation_defined G2). The displacement is a number of words. -/
def plainTarget (cia : Word) {n : Nat} (wp : BitVec n) (aa : Bool) : Word :=
  (if aa then 0#32 else cia) + (wp.signExtend 32) <<< 2

/-- The target of a branch after mapping, in the one pointer format (40_compression R143). -/
def mappedTarget (p : Config.Params) (base : BitVec 20) {n : Nat} (wp : BitVec n) (ptr : BitVec 5) (aa : Bool) : Word :=
  onePointer (p.baseAddrCalc base n wp aa) ptr

/-- The base address calculator the spec recommends (40_compression R143, decision D34), to compare parameters with. -/
def recommendedBaseAddrCalc (base : BitVec 20) (n : Nat) (wp : BitVec n) (aa : Bool) : BitVec 20 :=
  (if aa then 0#20 else base) + wp.signExtend 20

/-- A conditional branch goes to its target or to the next instruction, a free choice; CTR after it is free (log 41). PRESUMED from
PowerPC (log 41): with LK it writes LR also where it is not taken, which 30_encoding R107, R108 and 40_compression R150 do not say. -/
def State.conditional (p : Config.Params) (target : Word) (f : AddrForm) (lk : Bool) (s : State) : State :=
  let linked := s.link lk
  let gone := if p.freeBit s.draws then linked.branchTo target f else linked.advance
  { gone with core := { gone.core with ctr := p.freeWord s.draws }, draws := s.draws + 1 }

/-- `b` before compression mapping (30_encoding R105). -/
def execB (wp : BitVec 24) (aa lk : Bool) (s : State) : Host.Outcome State Fault Refusal :=
  .next ((s.link lk).branchTo (plainTarget s.acc.addr wp aa) .twoPointer)

/-- `b` after compression mapping (30_encoding R106, 40_compression R143). -/
def execBMapped (wp : BitVec 19) (ptr : BitVec 5) (aa lk : Bool) (s : State) : Host.Outcome State Fault Refusal :=
  .next ((s.link lk).branchTo (mappedTarget Config.chip s.icdu.base wp ptr aa) .onePointer)

/-- `bc` before compression mapping (30_encoding R107). -/
def execBc (_bo _bi : BitVec 5) (bd : BitVec 14) (aa lk : Bool) (s : State) : Host.Outcome State Fault Refusal :=
  .next (s.conditional Config.chip (plainTarget s.acc.addr bd aa) .twoPointer lk)

/-- `bc` after compression mapping (30_encoding R108, 40_compression R143). -/
def execBcMapped (_cond : BitVec 10) (wp : BitVec 9) (ptr : BitVec 5) (aa lk : Bool) (s : State) :
    Host.Outcome State Fault Refusal :=
  .next (s.conditional Config.chip (mappedTarget Config.chip s.icdu.base wp ptr aa) .onePointer lk)

end Sys2Proof.Machine
end

