-- ==== Sys2Proof/Machine/SprAccess.lean ====
section
/-!
DEFINITION. `mtspr` and `mfspr` to the ten registers (44_spr_access R280 to R290, R292, R293).
-/

namespace Sys2Proof.Machine

/-- `mtspr` to a register of the module (44_spr_access R281): supervisor only (R292), and not in standby
(41_modes_of_operation R190). -/
def mtsprTo (p : Config.Params) (r : Spr) (rS : Reg) (s : State) : Host.Outcome State Fault Refusal :=
  if s.mode = .powerSave then .refused .powerSave
  else if s.acc.priv = .user then .fault (.privilegedSpr r)
  else .next ((s.writeSpr p r (s.getX rS)).advance)

/-- `mfspr` from a register of the module (44_spr_access R282): supervisor only (R292), and not in standby. -/
def mfsprFrom (p : Config.Params) (r : Spr) (rD : Reg) (s : State) : Host.Outcome State Fault Refusal :=
  if s.mode = .powerSave then .refused .powerSave
  else if s.acc.priv = .user then .fault (.privilegedSpr r)
  else .next ({ s.setX rD (s.readSpr p r) with draws := s.draws + 1 }.advance)

/-- `mtspr n, rS`, the generic row (44_spr_access R281). For an SPR number that is not the module's it is an instruction of
the core's own (R280; log 14). -/
def execMtspr (rS : Reg) (n : BitVec 10) (s : State) : Host.Outcome State Fault Refusal :=
  match sprOfNumber n with
  | some r => mtsprTo Config.chip r rS s
  | none => .next (s.ownInstruction Config.chip)

/-- `mfspr rD, n`, the generic row (44_spr_access R282). For an SPR number that is not the module's it is an instruction of
the core's own (R280; log 14). -/
def execMfspr (rD : Reg) (n : BitVec 10) (s : State) : Host.Outcome State Fault Refusal :=
  match sprOfNumber n with
  | some r => mfsprFrom Config.chip r rD s
  | none => .next (s.ownInstruction Config.chip)

/-- `mtspr 784, rS` (44_spr_access R283). -/
def execMtsprMiRba0 (rS : Reg) (s : State) : Host.Outcome State Fault Refusal := mtsprTo Config.chip (.rba 0) rS s

/-- `mfspr rD, 784` (44_spr_access R284). -/
def execMfsprMiRba0 (rD : Reg) (s : State) : Host.Outcome State Fault Refusal := mfsprFrom Config.chip (.rba 0) rD s

/-- `mtspr 785, rS` (44_spr_access R283). -/
def execMtsprMiRba1 (rS : Reg) (s : State) : Host.Outcome State Fault Refusal := mtsprTo Config.chip (.rba 1) rS s

/-- `mfspr rD, 785` (44_spr_access R284). -/
def execMfsprMiRba1 (rD : Reg) (s : State) : Host.Outcome State Fault Refusal := mfsprFrom Config.chip (.rba 1) rD s

/-- `mtspr 786, rS` (44_spr_access R283). -/
def execMtsprMiRba2 (rS : Reg) (s : State) : Host.Outcome State Fault Refusal := mtsprTo Config.chip (.rba 2) rS s

/-- `mfspr rD, 786` (44_spr_access R284). -/
def execMfsprMiRba2 (rD : Reg) (s : State) : Host.Outcome State Fault Refusal := mfsprFrom Config.chip (.rba 2) rD s

/-- `mtspr 787, rS` (44_spr_access R283). -/
def execMtsprMiRba3 (rS : Reg) (s : State) : Host.Outcome State Fault Refusal := mtsprTo Config.chip (.rba 3) rS s

/-- `mfspr rD, 787` (44_spr_access R284). -/
def execMfsprMiRba3 (rD : Reg) (s : State) : Host.Outcome State Fault Refusal := mfsprFrom Config.chip (.rba 3) rD s

/-- `mtspr 816, rS` (44_spr_access R285). -/
def execMtsprMiRa0 (rS : Reg) (s : State) : Host.Outcome State Fault Refusal := mtsprTo Config.chip (.ra 0) rS s

/-- `mfspr rD, 816` (44_spr_access R286). -/
def execMfsprMiRa0 (rD : Reg) (s : State) : Host.Outcome State Fault Refusal := mfsprFrom Config.chip (.ra 0) rD s

/-- `mtspr 817, rS` (44_spr_access R285). -/
def execMtsprMiRa1 (rS : Reg) (s : State) : Host.Outcome State Fault Refusal := mtsprTo Config.chip (.ra 1) rS s

/-- `mfspr rD, 817` (44_spr_access R286). -/
def execMfsprMiRa1 (rD : Reg) (s : State) : Host.Outcome State Fault Refusal := mfsprFrom Config.chip (.ra 1) rD s

/-- `mtspr 818, rS` (44_spr_access R285). -/
def execMtsprMiRa2 (rS : Reg) (s : State) : Host.Outcome State Fault Refusal := mtsprTo Config.chip (.ra 2) rS s

/-- `mfspr rD, 818` (44_spr_access R286). -/
def execMfsprMiRa2 (rD : Reg) (s : State) : Host.Outcome State Fault Refusal := mfsprFrom Config.chip (.ra 2) rD s

/-- `mtspr 819, rS` (44_spr_access R285). -/
def execMtsprMiRa3 (rS : Reg) (s : State) : Host.Outcome State Fault Refusal := mtsprTo Config.chip (.ra 3) rS s

/-- `mfspr rD, 819` (44_spr_access R286). -/
def execMfsprMiRa3 (rD : Reg) (s : State) : Host.Outcome State Fault Refusal := mfsprFrom Config.chip (.ra 3) rD s

/-- `mtspr 528, rS` (44_spr_access R287). -/
def execMtsprMiGra (rS : Reg) (s : State) : Host.Outcome State Fault Refusal := mtsprTo Config.chip .gra rS s

/-- `mfspr rD, 528` (44_spr_access R288). -/
def execMfsprMiGra (rD : Reg) (s : State) : Host.Outcome State Fault Refusal := mfsprFrom Config.chip .gra rD s

/-- `mtspr 560, rS` (44_spr_access R289). -/
def execMtsprBbcmcr (rS : Reg) (s : State) : Host.Outcome State Fault Refusal := mtsprTo Config.chip .bbcmcr rS s

/-- `mfspr rD, 560` (44_spr_access R290). -/
def execMfsprBbcmcr (rD : Reg) (s : State) : Host.Outcome State Fault Refusal := mfsprFrom Config.chip .bbcmcr rD s

end Sys2Proof.Machine
end

