-- ==== Sys2Proof/Machine/Sync.lean ====
section
/-!
DEFINITION. `isync` (44_spr_access R291, 20_memory R82, 70_reset_and_hazards R365).
-/

namespace Sys2Proof.Machine

/-- `isync`: the current BBCMCR value governs every later fetch (44_spr_access R291). DESIGN CHOICE (log 24), for R291 and 30_encoding
R104 do not say what becomes of accesses issued ahead and still pending: they stay pending with the BBCMCR value drawn when they were
issued, and the core executes them after the `isync`; none is discarded and fetched again, and the ICDU keeps what it prefetched. -/
def execIsync (s : State) : Host.Outcome State Fault Refusal := .next s.settle.advance

end Sys2Proof.Machine
end

