-- ==== Sys2Proof/Machine/Dispatch.lean ====
section
/-!
DEFINITION. The one dispatch: each constructor of `Instr` to its meaning.
-/

namespace Sys2Proof.Machine

def exec (i : Instr) (s : State) : Host.Outcome State Fault Refusal :=
  match i with
  | .mtspr rS n => Sys2Proof.Machine.execMtspr rS n s
  | .mfspr rD n => Sys2Proof.Machine.execMfspr rD n s
  | .isync => Sys2Proof.Machine.execIsync s
  | .mtsprMiRba0 rS => Sys2Proof.Machine.execMtsprMiRba0 rS s
  | .mfsprMiRba0 rD => Sys2Proof.Machine.execMfsprMiRba0 rD s
  | .mtsprMiRba1 rS => Sys2Proof.Machine.execMtsprMiRba1 rS s
  | .mfsprMiRba1 rD => Sys2Proof.Machine.execMfsprMiRba1 rD s
  | .mtsprMiRba2 rS => Sys2Proof.Machine.execMtsprMiRba2 rS s
  | .mfsprMiRba2 rD => Sys2Proof.Machine.execMfsprMiRba2 rD s
  | .mtsprMiRba3 rS => Sys2Proof.Machine.execMtsprMiRba3 rS s
  | .mfsprMiRba3 rD => Sys2Proof.Machine.execMfsprMiRba3 rD s
  | .mtsprMiRa0 rS => Sys2Proof.Machine.execMtsprMiRa0 rS s
  | .mfsprMiRa0 rD => Sys2Proof.Machine.execMfsprMiRa0 rD s
  | .mtsprMiRa1 rS => Sys2Proof.Machine.execMtsprMiRa1 rS s
  | .mfsprMiRa1 rD => Sys2Proof.Machine.execMfsprMiRa1 rD s
  | .mtsprMiRa2 rS => Sys2Proof.Machine.execMtsprMiRa2 rS s
  | .mfsprMiRa2 rD => Sys2Proof.Machine.execMfsprMiRa2 rD s
  | .mtsprMiRa3 rS => Sys2Proof.Machine.execMtsprMiRa3 rS s
  | .mfsprMiRa3 rD => Sys2Proof.Machine.execMfsprMiRa3 rD s
  | .mtsprMiGra rS => Sys2Proof.Machine.execMtsprMiGra rS s
  | .mfsprMiGra rD => Sys2Proof.Machine.execMfsprMiGra rD s
  | .mtsprBbcmcr rS => Sys2Proof.Machine.execMtsprBbcmcr rS s
  | .mfsprBbcmcr rD => Sys2Proof.Machine.execMfsprBbcmcr rD s
  | .b wp aa lk => Sys2Proof.Machine.execB wp aa lk s
  | .bMapped wp ptr aa lk => Sys2Proof.Machine.execBMapped wp ptr aa lk s
  | .bc bo bi bd aa lk => Sys2Proof.Machine.execBc bo bi bd aa lk s
  | .bcMapped cond wp ptr aa lk => Sys2Proof.Machine.execBcMapped cond wp ptr aa lk s

end Sys2Proof.Machine
end

