-- ==== Sys2Proof/Machine/Impu.lean ====
section
/-!
DEFINITION. The instruction memory protection unit: region match and attribute check (42_impu_protection R210 to R222).
-/

namespace Sys2Proof.Machine

/-- What the IMPU answers for an access (42_impu_protection R221). -/
inductive Verdict where
  | allowed
  /-- Refused; reported as guarded storage or as protected storage. -/
  | violation (guarded : Bool)
  /-- No result: an enabled region breaks a precondition (decision D10). -/
  | illegal
  deriving DecidableEq, Repr

/-- The base byte address of region `i` (10_state R23). -/
def Impu.base (m : Impu) (i : Fin 4) : Nat := m.rba[i].toNat * 4096

/-- The size of region `i` in bytes (10_state R26). -/
def Impu.size (m : Impu) (i : Fin 4) : Nat := (m.ra[i].rs.toNat + 1) * 4096

/-- An RS value is one of the twenty-one listed: of the form `2^k - 1` (10_state R26). -/
def legalSize (rs : BitVec 20) : Bool := rs &&& (rs + 1#20) == 0#20

/-- The two preconditions on region `i` hold, or it is off (42_impu_protection R213, U1, U2). -/
def Impu.regionLegal (m : Impu) (i : Fin 4) : Bool :=
  !m.gra.enr[i] || (legalSize m.ra[i].rs && m.rba[i] &&& m.ra[i].rs == 0#20)

/-- Every enabled region keeps the preconditions. -/
def Impu.legal (m : Impu) : Bool := m.regionLegal 0 && m.regionLegal 1 && m.regionLegal 2 && m.regionLegal 3

/-- `match(i, A)`, in natural numbers without wrap (42_impu_protection R213). -/
def Impu.matches (m : Impu) (i : Fin 4) (a : Word) : Bool :=
  m.gra.enr[i] && decide (m.base i ≤ a.toNat) && decide (a.toNat < m.base i + m.size i)

/-- The chosen region: the matching one with the lowest index; `none` is the global region (42_impu_protection R214, R215). -/
def Impu.chosen (m : Impu) (a : Word) : Option (Fin 4) :=
  if m.matches 0 a then some 0
  else if m.matches 1 a then some 1
  else if m.matches 2 a then some 2
  else if m.matches 3 a then some 3
  else none

/-- The attributes of a region or of the global region (42_impu_protection R215). -/
structure Attributes where
  pp : BitVec 2
  g : Bool
  cmpr : BitVec 2
  deriving DecidableEq, Repr

/-- The attributes that apply to an address (42_impu_protection R215). -/
def Impu.attributesAt (m : Impu) (a : Word) : Attributes :=
  match m.chosen a with
  | some k => { pp := m.ra[k].pp, g := m.ra[k].g, cmpr := m.ra[k].cmpr }
  | none => { pp := m.gra.pp, g := m.gra.g, cmpr := m.gra.cmpr }

/-- The address the IMPU compares: the one the core issued, before relocation (42_impu_protection R222, decision D5), in
Decompression ON mode through `impu_addr_on` (decision D33). -/
def compareAddr (p : Config.Params) (m : DMode) (a : Word) : Word :=
  match m with
  | .off => a
  | .on => p.impuAddrOn a

/-- `IMPU_Check` (42_impu_protection R221), for an access made in decompression mode `m`. Off while MSR[IR] = 0 (R210). -/
def Impu.check (p : Config.Params) (u : Impu) (acc : Access) (m : DMode) (tie : Bool) : Verdict :=
  if !acc.msrIr then .allowed
  else if !u.legal then .illegal
  else
    let at_ := u.attributesAt (compareAddr p m acc.addr)
    let pp_ok := ppOk at_.pp acc.priv
    let g_ok := gOk at_.g acc.spec
    let cmpr_ok := cmprOk p.hasComp at_.cmpr m
    if pp_ok && g_ok && cmpr_ok then .allowed else .violation (reportsGuarded pp_ok g_ok tie)

end Sys2Proof.Machine
end

