-- ==== Sys2Proof/Machine/Reloc.lean ====
section
/-!
DEFINITION. Exception table relocation (43_exception_relocation R250 to R262).
-/

namespace Sys2Proof.Machine

/-- What relocation makes of an address (43_exception_relocation R256). -/
inductive Relocated where
  | addr (a : Word)
  /-- An address between two entries (43_exception_relocation R258). -/
  | gap
  deriving DecidableEq, Repr

/-- The address lies in the 8-Kbyte exception table, 0xFFF0_0000 to 0xFFF0_1FFF (43_exception_relocation R256, R257). -/
def inExceptionTable (a : Word) : Bool := docField a 0 19 == 0x7FF80#19

/-- The 8-byte slot of vector `n`: moved up by 32 Kbytes under OERC, but for the reset vector
(43_exception_relocation R253, R254, R255). -/
def tableOffset (oerc : Bool) (n : BitVec 5) : Word :=
  let off : Word := (0#27 ++ n) <<< 3
  if oerc && n != 1#5 then off + 0x8000#32 else off

/-- `Relocate` (43_exception_relocation R256), for the address the core issued. -/
def relocate (p : Config.Params) (gov : Bbcmcr) (a : Word) : Relocated :=
  if !inExceptionTable a then .addr a
  else if !gov.etre then .addr a
  else if docField a 24 8 != 0#8 then .gap
  else .addr (p.imb + tableOffset gov.oerc (docField a 19 5))

/-- Relocation has no meaning (43_exception_relocation R262, decision D36): the configuration ETRE = 1, EN_COMP = 1, EXC_COMP = 1, and
an ON-mode access in the exception table while ETRE = 1, since R262 gives relocation a meaning for OFF-mode fetches only. -/
def relocationMeaningless (p : Config.Params) (gov : Bbcmcr) (m : DMode) (a : Word) : Bool :=
  ((gov.enComp && gov.excComp && p.hasComp) || (m == .on && inExceptionTable a)) && gov.etre

end Sys2Proof.Machine
end

