-- ==== Sys2Proof/Machine/Fetch.lean ====
section
/-!
DEFINITION. The fetch step (41_modes_of_operation R181 to R185, R189): an access is issued, checked, relocated and
forwarded; later, or at once, the U-bus answers it and the word is delivered.
-/

namespace Sys2Proof.Machine

/-- The decompression mode an access is made in: its own, but for the fetch at an exception vector, where EN_COMP and
EXC_COMP settle it (40_compression R133; log 33). -/
def accessMode (p : Config.Params) (gov : Bbcmcr) (acc : Access) : DMode :=
  if acc.entry then
    if gov.enComp && gov.excComp && p.hasComp then .on else .off
  else acc.dmode

/-- The access as it is made: a vector is in compressed form when it is fetched in ON mode (91_not_in_source N20; log 33). -/
def accessMade (p : Config.Params) (m : DMode) (acc : Access) : Access :=
  { acc with
    addr := if acc.entry && m == .on then p.vectorOn acc.addr else acc.addr
    dmode := m }

/-- The free values an access takes when it is issued: five BBCMCR fields and the SRR1 bit. -/
def issueDraws : Nat := 6

/-- The word addresses an allowed access goes to: the relocated address, converted in Decompression ON mode (R182). -/
def forwardedWords (p : Config.Params) (m : DMode) (f : AddrForm) (a : Word) : List Word :=
  match m with
  | .off => [a]
  | .on => physicalWords p f a

/-- A violating access (41_modes_of_operation R184, 60_exceptions R310 to R314): cancelled, but delivered to the U-bus when it
carries show cycle or program trace; reported; taken as an exception when the core's flow meets it (log 17). An access that was
forwarded when it was issued and violates by a later IMPU value (20_memory R85) appears a second time then, as cancelled, and is
reported as delivered by the same two attributes: a DESIGN CHOICE (log 37). -/
def State.refuseAccess (p : Config.Params) (taken guarded : Bool) (gov : Bbcmcr) (acc : Access) (m : DMode) (s : State) : State :=
  let shown :=
    if acc.showCycle || acc.ptrace then s.forward p gov acc m true (forwardedWords p m acc.form acc.addr) else s
  let reported := shown.reportViolation guarded acc
  if taken then reported.takeViolation p guarded m else reported

/-- An allowed access joins the accesses pending on the U-bus (10_state R51); one refused ahead of the core's flow keeps its
place there too, as refused (60_exceptions R315; log 17). -/
def State.enqueue (gov : Bbcmcr) (acc : Access) (m : DMode) (words : List Word) (refused : Option Bool) (s : State) : State :=
  { s with
    pending := s.pending ++
      [{ acc := acc, mode := m, words := words, gov := gov, judgedBy := s.impu, refused := refused }] }

/-- The state in which an access is judged: the BBC is active (41_modes_of_operation R191) and the free values are taken. -/
def State.issuing (s : State) : State := { s with mode := .active, draws := s.draws + issueDraws }

/-- The first half of the fetch step (41_modes_of_operation R182): the preconditions, the IMPU's check, relocation,
`Forward`. `taken` says whether the access is the core's flow, which takes the exception of a refused one at once; a refused one
issued ahead waits for the flow (60_exceptions R315; log 17). Relocation acts on the address the core issued (R182). -/
def issue (p : Config.Params) (taken : Bool) (acc : Access) (s : State) : Host.Outcome State Fault Refusal :=
  if s.mode = .powerSave then .refused .powerSave
  else
    let gov := s.governing p
    let m := accessMode p gov acc
    let made := accessMade p m acc
    if m = .on ∧ ¬(p.hasComp ∧ s.bbcmcr.enComp) then .refused .decompressionDisabled
    else if m = .off ∧ docField made.addr 30 2 ≠ 0#2 then .refused .misalignedFetch
    else
      match s.impu.check p made m (p.freeBit (s.draws + 5)) with
      | .illegal => .refused .illegalRegion
      | .violation guarded =>
        let refused := s.issuing.refuseAccess p taken guarded gov made m
        .next (if taken then refused else refused.enqueue gov made m [] (some guarded))
      | .allowed =>
        if relocationMeaningless p gov m acc.addr then .refused .relocatedCompressed
        else
          match relocate p gov made.addr with
          | .gap => .fault (.relocGap made.addr)
          | .addr a =>
            let words := forwardedWords p m made.form a
            .next ((s.issuing.forward p gov made m false words).enqueue gov made m words none)

/-- The word is delivered to the core (40_compression R148). -/
def State.deliver (w : Word) (next : Option Word) (s : State) : State :=
  { s with out := { s.out with word := some w, next := next } }

/-- A debug port fetch: what the port returns is a free value (41_modes_of_operation R189, U17), in Decompression ON mode
together with the next instruction address and the ICDU's place in compressed code (10_state R52), free values too
(log 34). -/
def State.answerDebug (p : Config.Params) (m : DMode) (s : State) : State :=
  match m with
  | .off => { s.deliver (p.freeWord s.draws) none with draws := s.draws + 1 }
  | .on =>
    { s.deliver (p.freeWord s.draws) (some (p.freeWord (s.draws + 1))) with
      icdu := icduAt p (p.freeWord (s.draws + 2)) (p.freeWord (s.draws + 1)) none
      draws := s.draws + 3 }

/-- The second half of the fetch step (41_modes_of_operation R182): `MemRead`, and in Decompression ON mode `Decompress`.
The rest of the words a decompression reads go the BBC's normal path (40_compression R147). DESIGN CHOICE: they appear on the U-bus
at the answer, so after the first words of accesses issued meanwhile (20_memory R81; log 45). A word the core has stored to has no
meaning (20_memory R83, decision D28). -/
def answerData (p : Config.Params) (e : Pending) (s : State) : Host.Outcome State Fault Refusal :=
  if e.acc.dbg then .next (s.answerDebug p e.mode)
  else
    match e.mode with
    | .off =>
      let a := e.words.headD e.acc.addr
      if Memory.storedIn s.stored a then .refused .storedLocation
      else .next (s.deliver (Memory.readWord p s.mem a) none)
    | .on =>
      match icduDecode p s.mem s.icdu e.acc.form e.acc.addr with
      | none => .refused .notCompressedCode
      | some d =>
        if d.words.any (Memory.storedIn s.stored) then .refused .storedLocation
        else
          let more := d.words.filter (fun a => !e.words.contains a)
          .next { ((s.forward p e.gov e.acc .on false more).deliver d.instr (some d.next)) with icdu := icduAfter p s.mem d }

/-- The core's flow goes on with this access: it is the one that is made of the flow's, an exception vector in the mode settled when
it was issued and at that mode's address (40_compression R133; log 26, log 33). -/
def Access.continues (p : Config.Params) (made next : Access) : Bool :=
  made.addr == (accessMade p made.dmode next).addr && made.form == next.form && made.entry == next.entry &&
    (next.entry || made.dmode == next.dmode)

/-- The core executes the delivered word: while it does, `acc` is the access that fetched it, with the attributes of the
core's flow. What the ICDU prefetched is discarded where the flow has left compressed code (40_compression R151). -/
def State.toExecute (made : Access) (s : State) : State :=
  { s with
    icdu := match made.dmode with
      | .off => { s.icdu with prefetched := none }
      | .on => s.icdu
    acc := { s.acc with addr := made.addr, dmode := made.dmode, form := made.form, entry := made.entry }
    out := { s.out with executes := true } }

/-- A delivered word is executed if the core's flow wants it; else it is passed over, and the ICDU stays at the instruction of
the flow (60_exceptions R315; log 26). -/
def State.handOver (wanted : Bool) (made : Access) (before : Icdu) (s : State) : State :=
  if wanted then s.toExecute made else { s with icdu := before }

/-- The U-bus answers the oldest pending access (20_memory R81). An access pending when an IMPU register was written is judged
again (20_memory R85). `wanted` says whether the core's flow goes on with this access: then it executes the word, or takes
the exception, that of an access refused ahead too; a word it does not want is delivered and passed over (60_exceptions R315;
log 26). -/
def answer (p : Config.Params) (wanted : Bool) (s : State) : Host.Outcome State Fault Refusal :=
  match s.pending with
  | [] => .next s
  | e :: rest =>
    let s1 := { s with pending := rest, draws := s.draws + 1 }
    match e.refused with
    | some guarded => .next (if wanted then s1.takeViolation p guarded e.mode else s1)
    | none =>
      match e.judgedBy.check p e.acc e.mode (p.freeBit s.draws) with
      | .illegal => .refused .illegalRegion
      | .violation guarded => .next (s1.refuseAccess p wanted guarded e.gov e.acc e.mode)
      | .allowed =>
        match answerData p e s1 with
        | .next t => .next (t.handOver wanted e.acc s.icdu)
        | .fault f => .fault f
        | .refused r => .refused r

/-- Whether the core's flow goes on with the oldest pending access. -/
def State.wantsOldest (p : Config.Params) (s : State) : Bool :=
  match s.pending with
  | [] => false
  | e :: _ => e.acc.continues p s.acc

/-- The core's flow goes to an access: what the ICDU prefetched is discarded unless the access is its sequential successor
(40_compression R151; log 32). -/
def State.flowTo (s : State) (acc : Access) : State :=
  { s with
    acc := acc
    icdu := if s.icdu.hasPrefetched acc then s.icdu else { s.icdu with prefetched := none } }

/-- `FetchStep(acc)` for the access the core's flow goes to (41_modes_of_operation R182): issued, and answered at once
unless it was refused or older accesses are pending, which are answered first (20_memory R81). -/
def fetch (p : Config.Params) (acc : Access) (s : State) : Host.Outcome State Fault Refusal :=
  match issue p true acc (s.flowTo acc) with
  | .fault f => .fault f
  | .refused r => .refused r
  | .next t => if s.pending.isEmpty && !t.pending.isEmpty then answer p true t else .next t

end Sys2Proof.Machine
end

