-- ==== Sys2Proof/Machine/Events.lean ====
section
/-!
DEFINITION. What happens in a step before an instruction is executed: the environment's event, or the core's own next
access (70_reset_and_hazards R373, R374; log 1).
-/

namespace Sys2Proof.Machine

/-- The offset of the System Reset vector (70_reset_and_hazards R354, 60_exceptions R318). -/
def resetVector : Word := 0x100#32

/-- The access the core starts with: the System Reset vector, protection off (42_impu_protection R211, 70_reset_and_hazards
R354; log 6). That it is no speculative, show cycle, program trace or debug access, free inputs by decision D32, is a DESIGN
CHOICE (log 3). -/
def resetAccess (msrIp : Bool) : Access where
  addr := vectorAddress msrIp resetVector
  priv := .supervisor
  msrIr := false
  spec := false
  showCycle := false
  ptrace := false
  dbg := false
  dmode := .off
  form := .twoPointer
  entry := true

/-- BBCMCR after either reset (10_state R47): the fields of the MPC555 have no bits 21 to 23. -/
def resetBbcmcr (p : Config.Params) (w : ResetWord) : Bbcmcr where
  be := false
  etre := p.resetEtre
  oerc := p.resetOerc
  enComp := p.hasComp && w.rcw21
  excComp := p.hasComp && w.rcw22
  decompScEn := p.hasComp && w.rcw21

/-- MI_GRA after either reset (10_state R38). -/
def resetGra : GraReg where
  enr := #v[false, false, false, false]
  pp := 0#2
  g := false
  cmpr := 0#2

/-- The ICDU after either reset: what it held is discarded (70_reset_and_hazards R351; log 39). -/
def resetIcdu : Icdu where
  left := 0#5
  right := 0#5
  base := 0#20
  leftRight := false
  sameLine := false
  next := 0#32
  prefetched := none

/-- A later reset (70_reset_and_hazards R350, R351): MI_RBA and MI_RA keep their values; pending accesses are ignored; the core's
registers are outside the spec and so free (log 5). -/
def State.hardReset (p : Config.Params) (w : ResetWord) (s : State) : State :=
  { s with
    impu := { s.impu with gra := resetGra }
    bbcmcr := resetBbcmcr p w
    superseded := []
    mode := .idle
    pending := []
    parked := true
    lastBus := none
    icdu := resetIcdu
    core := { freeCore p s.draws with msrIp := w.ip }
    acc := resetAccess w.ip
    draws := s.draws + ownDraws }

/-- MI_RBA and MI_RA at power-on: free values (10_state R24, R31). -/
def powerOnImpu (p : Config.Params) (n : Nat) : Impu where
  rba := Vector.ofFn (fun i : Fin 4 => docField (p.freeWord (n + i)) 0 20)
  ra := Vector.ofFn (fun i : Fin 4 =>
    RaReg.write p.hasComp { rs := 0#20, pp := 0#2, g := false, cmpr := 0#2 } (p.freeWord (n + 4 + i)))
  gra := resetGra

/-- The first reset of a run (70_reset_and_hazards R350, R351). -/
def State.powerOn (p : Config.Params) (w : ResetWord) (s : State) : State :=
  { s.hardReset p w with
    impu := powerOnImpu p (s.draws + ownDraws)
    draws := s.draws + ownDraws + 8 }

/-- Standby entry (41_modes_of_operation R190): the BBC enters the power save state; no access may be pending on the U-bus (R191); one
refused ahead is forgotten, the core fetching again after it (log 38). DESIGN CHOICE (log 38), since R191 and decision D19 speak of
the ten registers only: the ICDU keeps what it holds; the core's side keeps x, LR, CTR, SRR0, the SRR1 bits, MSR[IP] and its next
access; the isync window, the parked mastership and the last U-bus address stay. -/
def standbyEnter (s : State) : Host.Outcome State Fault Refusal :=
  if s.pending.all (fun e => e.refused.isSome) then .next { s with mode := .powerSave, pending := [] }
  else .refused .standbyWithPending

/-- Standby exit (41_modes_of_operation R191): clocks are back and each of the ten registers kept its value (decision D19); the first
access makes the BBC active (log 38). DESIGN CHOICE (log 38): the core's side, x, LR, CTR, SRR0, the SRR1 bits, MSR[IP] and its next
access, is after standby what it was before; so is the rest of the hidden state, the mode apart. -/
def standbyExit (s : State) : State := if s.mode = .powerSave then { s with mode := .idle } else s

/-- An event of the environment. A fetch at an exception vector is an exception the core takes, and saves the return address; an
indirect branch is a change of flow. DESIGN CHOICE (log 41): an indirect branch never links, since 40_compression R145 names no link;
one that does is an instruction of the core's own. -/
def occur (p : Config.Params) (e : Event) (s : State) : Host.Outcome State Fault Refusal :=
  match e with
  | .fetch acc => fetch p acc (if acc.entry then s.interrupted p else s)
  | .issue acc => issue p false acc s
  | .answer => answer p (s.wantsOldest p) s
  | .indirect src => fetch p { s.acc with addr := s.indirectTarget src, form := .twoPointer, entry := false } s.dropPrefetch
  | .powerOn w => .next (s.powerOn p w)
  | .hardReset w => .next (s.hardReset p w)
  | .standbyEnter => standbyEnter s
  | .standbyExit => .next (standbyExit s)

/-- With nothing presented: in standby the core issues nothing (41_modes_of_operation R190); else the U-bus answers the oldest
pending access, or the core issues its next one (log 1). -/
def goOn (p : Config.Params) (s : State) : Host.Outcome State Fault Refusal :=
  if s.mode = .powerSave then .next s
  else if s.pending.isEmpty then fetch p s.acc s
  else answer p (s.wantsOldest p) s

/-- The outputs of the step before are over. -/
def State.cleared (s : State) : State := { s with out := Outputs.none }

/-- A step up to the execution of a delivered instruction. -/
def transact (p : Config.Params) (s : State) : Host.Outcome State Fault Refusal :=
  match s.inputs with
  | [] => goOn p s.cleared
  | e :: rest => occur p e { s.cleared with inputs := rest }

/-- The access the core issues next, made one of plain code with protection off and outside the exception table, as the
placing of an instruction needs it (log 2). -/
def plainAccess (acc : Access) : Access :=
  { acc with
    addr := if docField acc.addr 30 2 == 0#2 && !inExceptionTable acc.addr then acc.addr else resetVector
    msrIr := false
    dbg := false
    dmode := .off
    entry := false }

/-- An instruction word placed where the next step fetches it: in memory at the address of the core's next access, which is
made a plain one, with nothing else presented to the module or pending and no location stored to before the load (log 2). -/
def State.placedFor (w : Word) (s : State) : State :=
  { s with
    mem := Memory.placeWord (plainAccess s.acc).addr w s.mem
    acc := plainAccess s.acc
    mode := if s.mode = .powerSave then .idle else s.mode
    pending := []
    stored := []
    inputs := [] }

/-- The word the core executes in this step, if any. -/
def State.delivered (s : State) : Option Word := if s.out.executes then s.out.word else none

end Sys2Proof.Machine
end

