-- ==== Sys2Proof/Machine/Step.lean ====
section
/-!
DEFINITION. One step of the machine, and the placing of one instruction where the next step fetches it.
-/

namespace Sys2Proof.Machine

/-- One step: the environment's event or the core's own next access; then the core executes the word delivered to it, if it
is one it wants. A word that is no row of the table is an instruction of the core's own (log 1, log 14). -/
def step (s : State) : Host.Outcome State Fault Refusal :=
  match transact Config.chip s with
  | .fault f => .fault f
  | .refused r => .refused r
  | .next t =>
    match t.delivered with
    | none => .next t
    | some w =>
      match decodeWord t.acc.dmode w with
      | .ok i => exec i t
      | .error _ => .next (t.foreignInstruction Config.chip)

/-- The state with a plain-code access made ready as the core's next one (see `plainAccess` and `placedFor`). -/
def State.withFetchWord (s : State) (_nbits w : Nat) : State := s.placedFor (BitVec.ofNat 32 w)

end Sys2Proof.Machine
end

