-- ==== Sys2Proof/WellFormed.lean ====
section
/-!
DEFINITION. Which terms of `Instr` are in canonical form.

Every operand field is exactly as wide as its encoding, so the one check left is about the generic rows: an
`mtspr` or `mfspr` that names one of the ten registers is written with that register's own row
(30_encoding R120; log 12).
-/

namespace Sys2Proof

/-- The canonical-form check. -/
def WellFormed : Instr → Bool
  | .mtspr _ n => (sprOfNumber n).isNone
  | .mfspr _ n => (sprOfNumber n).isNone
  | _ => true

end Sys2Proof
end

