-- ==== Sys2Proof/Safety.lean ====
section
/-!
DEFINITION. The terms claims are made in: which row an access to a register is, what a claim calls unchanged, the
masks of the writable bits, and the invariant of the machine.
-/

namespace Sys2Proof.Machine

/-! ## Rows -/

/-- The row of the table that writes a register of the module (30_encoding R103). -/
def mtsprOwnRow (r : Spr) (rS : Reg) : Instr :=
  match r with
  | .rba 0 => .mtsprMiRba0 rS
  | .rba 1 => .mtsprMiRba1 rS
  | .rba 2 => .mtsprMiRba2 rS
  | .rba 3 => .mtsprMiRba3 rS
  | .ra 0 => .mtsprMiRa0 rS
  | .ra 1 => .mtsprMiRa1 rS
  | .ra 2 => .mtsprMiRa2 rS
  | .ra 3 => .mtsprMiRa3 rS
  | .gra => .mtsprMiGra rS
  | .bbcmcr => .mtsprBbcmcr rS

/-- The row of the table that reads a register of the module (30_encoding R103). -/
def mfsprOwnRow (r : Spr) (rD : Reg) : Instr :=
  match r with
  | .rba 0 => .mfsprMiRba0 rD
  | .rba 1 => .mfsprMiRba1 rD
  | .rba 2 => .mfsprMiRba2 rD
  | .rba 3 => .mfsprMiRba3 rD
  | .ra 0 => .mfsprMiRa0 rD
  | .ra 1 => .mfsprMiRa1 rD
  | .ra 2 => .mfsprMiRa2 rD
  | .ra 3 => .mfsprMiRa3 rD
  | .gra => .mfsprMiGra rD
  | .bbcmcr => .mfsprBbcmcr rD

/-- The instruction writes register `r` from `rS`: its own row, or the generic row with its number (30_encoding R120). -/
def WritesSpr (i : Instr) (r : Spr) (rS : Reg) : Prop := i = mtsprOwnRow r rS ∨ i = .mtspr rS (sprNumber r)

/-- The instruction reads register `r` into `rD`. -/
def ReadsSpr (i : Instr) (r : Spr) (rD : Reg) : Prop := i = mfsprOwnRow r rD ∨ i = .mfspr rD (sprNumber r)

/-- The four branch rows. -/
def isBranchRow : Instr → Bool
  | .b .. => true
  | .bMapped .. => true
  | .bc .. => true
  | .bcMapped .. => true
  | _ => false

/-- The bits of a register that software can write (95_test_vectors B2). -/
def writableMask (hasComp : Bool) : Spr → Word
  | .rba _ => 0xFFFFF000#32
  | .ra _ => if hasComp then 0xFFFFFC70#32 else 0xFFFFFC40#32
  | .gra => if hasComp then 0xF0000C70#32 else 0xF0000C40#32
  | .bbcmcr => if hasComp then 0x00003B00#32 else 0x00003800#32

/-! ## What stays -/

/-- Every byte of memory reads as before. -/
def SameMemory (s t : State) : Prop :=
  ∀ a : Word, Memory.byteAt Config.chip t.mem a = Memory.byteAt Config.chip s.mem a

/-- The ten registers are as before. -/
def SameRegisters (s t : State) : Prop := t.impu = s.impu ∧ t.bbcmcr = s.bbcmcr

/-- The hidden state of the BBC and of the ICDU, but for the isync window and the pending accesses, and the locations stored to
are as before. -/
def SameHidden (s t : State) : Prop :=
  t.mode = s.mode ∧ t.parked = s.parked ∧ t.lastBus = s.lastBus ∧ t.icdu = s.icdu ∧ t.stored = s.stored

/-- The inputs and outputs are as before. -/
def SameInterface (s t : State) : Prop := t.inputs = s.inputs ∧ t.out = s.out

/-- The core goes on with the next instruction, every attribute of its accesses as before. -/
def GoesOn (s t : State) : Prop := t.acc = { s.acc with addr := s.nextAddr, form := .twoPointer, entry := false }

/-- The accesses pending are the same ones, in the same order; by which values they are judged is left open. -/
def SamePending (s t : State) : Prop :=
  t.pending.map (fun e => (e.acc, e.mode, e.words, e.gov, e.refused)) =
    s.pending.map (fun e => (e.acc, e.mode, e.words, e.gov, e.refused))

/-- The core is in supervisor mode and the module is not in standby: when a register access executes normally
(44_spr_access R292, 41_modes_of_operation R190). -/
def SprAccessRuns (s : State) : Prop := s.mode ≠ .powerSave ∧ s.acc.priv = .supervisor

/-- The BBC admits an access to the IMPU's check (41_modes_of_operation R182, 20_memory R75): not in standby, in Decompression ON mode
only where the part and EN_COMP admit it, in OFF mode at a multiple of four. `m` is the mode it is made in. -/
def Admitted (p : Config.Params) (acc : Access) (m : DMode) (s : State) : Prop :=
  s.mode ≠ .powerSave ∧ m = accessMode p (s.governing p) acc ∧ (m = .on → p.hasComp = true ∧ s.bbcmcr.enComp = true) ∧
    (m = .off → docField (accessMade p m acc).addr 30 2 = 0#2)

/-- An admitted access the BBC serves at once: nothing is pending and no BBCMCR write is unsettled. -/
def ServedAtOnce (p : Config.Params) (acc : Access) (m : DMode) (s : State) : Prop :=
  Admitted p acc m s ∧ s.pending = [] ∧ s.superseded = []

/-- An enabled region has a size that is not listed, or a base that is no multiple of its size (42_impu_protection R213, U1, U2). -/
def BreaksPrecondition (u : Impu) : Prop :=
  ∃ k : Fin 4, u.gra.enr[k] = true ∧ ((∀ n, n ≤ 20 → u.ra[k].rs.toNat ≠ 2 ^ n - 1) ∨ u.rba[k] &&& u.ra[k].rs ≠ 0#20)

/-- What an access puts on the U-bus behind what is there: one access at each of the words in turn, or one at the debug port
(41_modes_of_operation R182, R189); each with the burst request of BE (R183), carried out as a burst where the memory allows (R194), with
the access's own attributes (R185), the bit pointers of its address in a decompression show cycle (60_exceptions R328), and
marked as cancelled or not (R314). -/
def AppearsOnBus (p : Config.Params) (gov : Bbcmcr) (acc : Access) (m : DMode) (cancelled : Bool) (words : List Word)
    (s t : State) : Prop :=
  ∃ shown, t.out.bus = s.out.bus ++ shown ∧
    shown.map BusAccess.dest = (if acc.dbg then [.debugPort] else words.map Dest.memory) ∧
    ∀ c ∈ shown, c.burst = (gov.be && !acc.dbg) ∧ (c.carriedAsBurst = true → c.burst = true) ∧
      (∀ a, c.dest = .memory a → c.carriedAsBurst = (c.burst && p.burstable a)) ∧
      c.showCycle = acc.showCycle ∧ c.ptrace = acc.ptrace ∧ c.dbg = acc.dbg ∧
      c.pointers = (if acc.showCycle = true ∧ m = .on ∧ gov.decompScEn = true then some (bitPointers p acc.addr) else none) ∧
      c.cancelled = cancelled

/-- The next event is no reset. -/
def NoReset (s : State) : Prop := ∀ w, s.inputs.head? ≠ some (.powerOn w) ∧ s.inputs.head? ≠ some (.hardReset w)

/-- The privilege level of the core in the next step. -/
def nextPriv (s : State) : Priv :=
  match s.inputs with
  | .fetch acc :: _ => acc.priv
  | _ => s.acc.priv

/-! ## The invariant -/

/-- In the power save state nothing is pending (41_modes_of_operation R191). -/
def StandbyIdle (s : State) : Prop := s.mode = .powerSave → s.pending = []

/-- The prefetched instruction is the one at its address (40_compression R151): prefetching changes no value. -/
def PrefetchAgrees (s : State) : Prop :=
  ∀ d, s.icdu.prefetched = some d → decompress Config.chip s.mem .twoPointer d.addr = some d

/-- On the MPC555 the MPC556-only fields hold nothing (10_state R29, R47, decision D15). -/
def CompressionAbsent (s : State) : Prop :=
  Config.chip.hasComp = false →
    s.bbcmcr.enComp = false ∧ s.bbcmcr.excComp = false ∧ s.bbcmcr.decompScEn = false ∧ s.impu.gra.cmpr = 0#2 ∧
      ∀ i : Fin 4, s.impu.ra[i].cmpr = 0#2

/-- A pending access is one the BBC admits (20_memory R75, 40_compression R131). -/
def PendingAdmitted (s : State) : Prop :=
  ∀ e ∈ s.pending, (e.mode = .off → docField e.acc.addr 30 2 = 0#2) ∧
    (e.mode = .on → Config.chip.hasComp = true ∧ s.bbcmcr.enComp = true)

/-- The invariant of the machine. -/
structure State.Inv (s : State) : Prop where
  memory : Memory.wf s.mem = true
  standby : StandbyIdle s
  prefetch : PrefetchAgrees s
  mpc555 : CompressionAbsent s
  pending : PendingAdmitted s

end Sys2Proof.Machine
end

