-- ==== Sys2Proof/Certificates/Slice0/Obligations.lean ====
section
/-!
DEFINITION. The statements for the provers. OBLIGATIONS.json gives each its title, its rules and its quotation.
-/

open Sys2Proof Sys2Proof.Machine

/-! ## Encoding -/

/-- Decoding the bytes of an encoded canonical instruction gives it back, with the bytes after it; the branches in the
mode their row stands for, every other row in both modes (30_encoding R100 to R108). -/
def Obligations.DecodeEncodeAgree : Prop :=
  ∀ (i : Instr) (m : DMode) (rest : List Byte), WellFormed i = true → (isBranchRow i = true → m = modeOfRow i) →
    decodeBytes m (bytesOfWord (encode i) ++ rest) = .ok (i, rest)

/-- A word that decodes is the encoding of what it decodes to, which is canonical: no bit of a word is dropped. -/
def Obligations.DecodedWordsEncodeBack : Prop :=
  ∀ (m : DMode) (w : Word) (i : Instr), decodeWord m w = .ok i →
    encode i = w ∧ WellFormed i = true ∧ (isBranchRow i = true → m = modeOfRow i)

/-- Words the spec writes out (30_encoding R103, R104, 95_test_vectors B3, B10) decode to what they stand for. -/
def Obligations.SpecWordsDecode : Prop :=
  decodeWord .off 0x7C70C3A6#32 = .ok (.mtsprMiRba0 3#5) ∧ decodeWord .off 0x7CB3C3A6#32 = .ok (.mtsprMiRba3 5#5) ∧
    decodeWord .off 0x7C90CBA6#32 = .ok (.mtsprMiRa0 4#5) ∧ decodeWord .off 0x7C73CAA6#32 = .ok (.mfsprMiRa3 3#5) ∧
    decodeWord .off 0x7CB083A6#32 = .ok (.mtsprMiGra 5#5) ∧ decodeWord .off 0x7FF082A6#32 = .ok (.mfsprMiGra 31#5) ∧
    decodeWord .on 0x7C108BA6#32 = .ok (.mtsprBbcmcr 0#5) ∧ decodeWord .on 0x7CF08AA6#32 = .ok (.mfsprBbcmcr 7#5) ∧
    decodeWord .off 0x4C00012C#32 = .ok .isync ∧ decodeWord .off 0x48004002#32 = .ok (.b 0x1000#24 true false) ∧
    decodeWord .on 0x48000834#32 = .ok (.bMapped 0x10#19 13#5 false false) ∧
    decodeWord .on 0x4BFFFFFD#32 = .ok (.bMapped 0x7FFFF#19 31#5 false true) ∧
    decodeWord .on 0x4182029C#32 = .ok (.bcMapped 0x182#10 5#9 7#5 false false)

/-- An SPR number names a register exactly when it is that register's number in Tables 4-2 to 4-4, and the second number
of the tables is the low five bits of the SPR number at bits 13:9 and the high five bits at bits 8:4 (10_state R20, R21). -/
def Obligations.TenRegisterNumbers : Prop :=
  (∀ (n : BitVec 10) (r : Spr), sprOfNumber n = some r ↔ n = sprNumber r) ∧
    (∀ i : Fin 4, (sprNumber (.rba i)).toNat = 784 + i) ∧ (∀ i : Fin 4, (sprNumber (.ra i)).toNat = 816 + i) ∧
    (sprNumber .gra).toNat = 528 ∧ (sprNumber .bbcmcr).toNat = 560 ∧
    (∀ i : Fin 4, sprTableNumber (sprNumber (.rba i)) = 0x2180 + 0x200 * i) ∧
    (∀ i : Fin 4, sprTableNumber (sprNumber (.ra i)) = 0x2190 + 0x200 * i) ∧
    sprTableNumber (sprNumber .gra) = 0x2100 ∧ sprTableNumber (sprNumber .bbcmcr) = 0x2110 ∧
    ∀ n : BitVec 10, sprTableNumber n = (n.toNat % 32) * 512 + (n.toNat / 32) * 16

/-! ## mtspr and mfspr -/

/-- `mtspr` to one of the ten registers, in either of its rows, leaves in it the writable bits of the source and keeps the
other bits; the other nine registers and every general register keep their values (44_spr_access R281, R293). -/
def Obligations.MtsprWritesWritableBitsOnly : Prop :=
  ∀ (r : Spr) (rS : Reg) (s : State) (i : Instr), WritesSpr i r rS → SprAccessRuns s →
    ∃ t, exec i s = .next t ∧
      t.sprImage r = (s.getX rS &&& writableMask Config.chip.hasComp r) |||
        (s.sprImage r &&& ~~~writableMask Config.chip.hasComp r) ∧
      (∀ r', r' ≠ r → t.sprImage r' = s.sprImage r') ∧
      ∀ x, t.getX x = s.getX x

/-- The frame of `mtspr` to one of the ten registers: nothing but that register, the isync window (BBCMCR), the values
that pending accesses are judged by (the IMPU registers), the counter of free values and the next access changes. That the next
access keeps every attribute of the one before is the model's choice (log 3). -/
def Obligations.MtsprFrame : Prop :=
  ∀ (r : Spr) (rS : Reg) (s : State) (i : Instr), WritesSpr i r rS → SprAccessRuns s →
    ∃ t, exec i s = .next t ∧ t.core = s.core ∧ SameHidden s t ∧ SameInterface s t ∧ GoesOn s t ∧ SameMemory s t ∧
      t.mem = s.mem ∧ SamePending s t ∧
      (r ≠ .bbcmcr → t.bbcmcr = s.bbcmcr ∧ t.superseded = s.superseded) ∧
      (r = .bbcmcr → t.superseded = s.superseded ++ [s.bbcmcr] ∧ t.impu = s.impu ∧ t.pending = s.pending ∧ t.draws = s.draws)

/-- `mtspr` to MI_RBA[i] (44_spr_access R283): RA takes bits 0:19 of the source, whatever bits 20:31 are. -/
def Obligations.MtsprRbaWritesBaseAddress : Prop :=
  ∀ (k : Fin 4) (rS : Reg) (s : State) (i : Instr), WritesSpr i (.rba k) rS → SprAccessRuns s →
    ∃ t, exec i s = .next t ∧ t.impu.rba[k] = docField (s.getX rS) 0 20 ∧
      (∀ j : Fin 4, j ≠ k → t.impu.rba[j] = s.impu.rba[j]) ∧ t.impu.ra = s.impu.ra ∧ t.impu.gra = s.impu.gra ∧
      t.bbcmcr = s.bbcmcr

/-- `mtspr` to MI_RA[i] (44_spr_access R285): RS, PP, G, and on the MPC556 CMPR, take their bits of the source. -/
def Obligations.MtsprRaWritesSizeAndAttributes : Prop :=
  ∀ (k : Fin 4) (rS : Reg) (s : State) (i : Instr), WritesSpr i (.ra k) rS → SprAccessRuns s →
    ∃ t, exec i s = .next t ∧ t.impu.ra[k].rs = docField (s.getX rS) 0 20 ∧ t.impu.ra[k].pp = docField (s.getX rS) 20 2 ∧
      t.impu.ra[k].g = docBit (s.getX rS) 25 ∧
      t.impu.ra[k].cmpr = (if Config.chip.hasComp then docField (s.getX rS) 26 2 else s.impu.ra[k].cmpr) ∧
      (∀ j : Fin 4, j ≠ k → t.impu.ra[j] = s.impu.ra[j]) ∧ t.impu.rba = s.impu.rba ∧ t.impu.gra = s.impu.gra ∧
      t.bbcmcr = s.bbcmcr

/-- `mtspr` to MI_GRA (44_spr_access R287): ENR0 to ENR3, PP, G, and on the MPC556 CMPR, take their bits of the source. -/
def Obligations.MtsprGraWritesEnablesAndAttributes : Prop :=
  ∀ (rS : Reg) (s : State) (i : Instr), WritesSpr i .gra rS → SprAccessRuns s →
    ∃ t, exec i s = .next t ∧ (∀ k : Fin 4, t.impu.gra.enr[k] = docBit (s.getX rS) k) ∧
      t.impu.gra.pp = docField (s.getX rS) 20 2 ∧ t.impu.gra.g = docBit (s.getX rS) 25 ∧
      t.impu.gra.cmpr = (if Config.chip.hasComp then docField (s.getX rS) 26 2 else s.impu.gra.cmpr) ∧
      t.impu.rba = s.impu.rba ∧ t.impu.ra = s.impu.ra ∧ t.bbcmcr = s.bbcmcr

/-- `mtspr` to BBCMCR (44_spr_access R289): BE, ETRE, OERC, and on the MPC556 EXC_COMP and DECOMP_SC_EN, take their bits of the
source; EN_COMP does not change. -/
def Obligations.MtsprBbcmcrWritesControlBits : Prop :=
  ∀ (rS : Reg) (s : State) (i : Instr), WritesSpr i .bbcmcr rS → SprAccessRuns s →
    ∃ t, exec i s = .next t ∧ t.bbcmcr.be = docBit (s.getX rS) 18 ∧ t.bbcmcr.etre = docBit (s.getX rS) 19 ∧
      t.bbcmcr.oerc = docBit (s.getX rS) 20 ∧ t.bbcmcr.enComp = s.bbcmcr.enComp ∧
      t.bbcmcr.excComp = (if Config.chip.hasComp then docBit (s.getX rS) 22 else s.bbcmcr.excComp) ∧
      t.bbcmcr.decompScEn = (if Config.chip.hasComp then docBit (s.getX rS) 23 else s.bbcmcr.decompScEn) ∧
      t.impu = s.impu

/-- After an IMPU register is written, an access pending at that moment is judged by the old or by the new value, and
nothing else about it changes (20_memory R85). -/
def Obligations.PendingAccessesJudgedByOldOrNew : Prop :=
  ∀ (r : Spr) (rS : Reg) (s : State) (i : Instr), WritesSpr i r rS → SprAccessRuns s →
    ∃ t, exec i s = .next t ∧ t.pending.length = s.pending.length ∧
      ∀ (k : Nat) (e e' : Pending), s.pending[k]? = some e → t.pending[k]? = some e' →
        e'.acc = e.acc ∧ e'.mode = e.mode ∧ e'.words = e.words ∧ e'.gov = e.gov ∧ e'.refused = e.refused ∧
          (e'.judgedBy = e.judgedBy ∨ e'.judgedBy = Impu.write Config.chip.hasComp r (s.getX rS) e.judgedBy)

/-- `mfspr` from one of the ten registers, in either of its rows: the destination takes the register at the positions that
are not reserved, and at the reserved ones 0 or a free value; nothing else but the next access and the counter of
free values changes (44_spr_access R282, 10_state R48). That the next access keeps every attribute of the one before is the
model's choice (log 3). -/
def Obligations.MfsprReadsRegister : Prop :=
  ∀ (r : Spr) (rD : Reg) (s : State) (i : Instr), ReadsSpr i r rD → SprAccessRuns s →
    ∃ t, exec i s = .next t ∧
      t.getX rD &&& ~~~reservedMask Config.chip.hasComp r = s.sprImage r &&& ~~~reservedMask Config.chip.hasComp r ∧
      t.getX rD &&& reservedMask Config.chip.hasComp r =
        (if Config.chip.reservedReadsZero then 0#32 else Config.chip.freeWord s.draws) &&&
          reservedMask Config.chip.hasComp r ∧
      (∀ x, x ≠ rD → t.getX x = s.getX x) ∧ t.core.lr = s.core.lr ∧ t.core.ctr = s.core.ctr ∧ t.core.srr0 = s.core.srr0 ∧
      t.core.srr1 = s.core.srr1 ∧ t.core.msrIp = s.core.msrIp ∧ SameRegisters s t ∧ t.superseded = s.superseded ∧
      t.pending = s.pending ∧ SameHidden s t ∧ SameInterface s t ∧ GoesOn s t ∧ SameMemory s t ∧ t.mem = s.mem

/-- The fields of what `mfspr` returns stand where the register diagrams have them (44_spr_access R284, R286, R288, R290); on the
MPC555 the MPC556-only positions show what reserved ones show. -/
def Obligations.MfsprFieldPositions : Prop :=
  ∀ (r : Spr) (rD : Reg) (s : State) (i : Instr), ReadsSpr i r rD → SprAccessRuns s →
    ∃ t, exec i s = .next t ∧
      (∀ k, r = .rba k → docField (t.getX rD) 0 20 = s.impu.rba[k]) ∧
      (∀ k, r = .ra k → docField (t.getX rD) 0 20 = s.impu.ra[k].rs ∧ docField (t.getX rD) 20 2 = s.impu.ra[k].pp ∧
        docBit (t.getX rD) 25 = s.impu.ra[k].g ∧
        docField (t.getX rD) 26 2 =
          (if Config.chip.hasComp then s.impu.ra[k].cmpr else docField (reservedFill Config.chip s.draws) 26 2)) ∧
      (r = .gra → (∀ k : Fin 4, docBit (t.getX rD) k = s.impu.gra.enr[k]) ∧
        docField (t.getX rD) 20 2 = s.impu.gra.pp ∧ docBit (t.getX rD) 25 = s.impu.gra.g ∧
        docField (t.getX rD) 26 2 =
          (if Config.chip.hasComp then s.impu.gra.cmpr else docField (reservedFill Config.chip s.draws) 26 2)) ∧
      (r = .bbcmcr → docBit (t.getX rD) 18 = s.bbcmcr.be ∧ docBit (t.getX rD) 19 = s.bbcmcr.etre ∧
        docBit (t.getX rD) 20 = s.bbcmcr.oerc ∧
        docBit (t.getX rD) 21 =
          (if Config.chip.hasComp then s.bbcmcr.enComp else docBit (reservedFill Config.chip s.draws) 21) ∧
        docBit (t.getX rD) 22 =
          (if Config.chip.hasComp then s.bbcmcr.excComp else docBit (reservedFill Config.chip s.draws) 22) ∧
        docBit (t.getX rD) 23 =
          (if Config.chip.hasComp then s.bbcmcr.decompScEn else docBit (reservedFill Config.chip s.draws) 23))

/-- A `mfspr` that follows a `mtspr` to the same register returns the written value in every writable field, inside the
isync window too (44_spr_access R282, R291; that `mfspr` sees a BBCMCR write at once is the spec's decision D20, log 24). -/
def Obligations.MfsprAfterMtsprReturnsWritten : Prop :=
  ∀ (r : Spr) (rS rD : Reg) (s : State) (i j : Instr), WritesSpr i r rS → ReadsSpr j r rD → SprAccessRuns s →
    ∃ t u, exec i s = .next t ∧ exec j t = .next u ∧
      u.getX rD &&& writableMask Config.chip.hasComp r = s.getX rS &&& writableMask Config.chip.hasComp r

/-- In user mode both `mtspr` and `mfspr` to any of the ten registers raise `PrivilegedSpr` (44_spr_access R292, decision D14). -/
def Obligations.UserModeSprAccessFaults : Prop :=
  ∀ (r : Spr) (x : Reg) (s : State) (i : Instr), WritesSpr i r x ∨ ReadsSpr i r x → s.mode ≠ .powerSave →
    s.acc.priv = .user → exec i s = .fault (.privilegedSpr r)

/-- `mtspr` and `mfspr` to an SPR number that is not one of the ten complete and leave the module as it was; what becomes of
the core's side is free (44_spr_access R280, 70_reset_and_hazards R374; the model's own choice, log 14), but that an exception it
ends in saves the next instruction address in SRR0 in Decompression ON mode (60_exceptions R321). -/
def Obligations.OtherSprLeavesModuleAlone : Prop :=
  ∀ (x : Reg) (n : BitVec 10) (s : State) (i : Instr), sprOfNumber n = none → i = .mtspr x n ∨ i = .mfspr x n →
    ∃ t, exec i s = .next t ∧ SameRegisters s t ∧ t.superseded = s.superseded ∧ t.pending = s.pending ∧ SameHidden s t ∧
      SameInterface s t ∧ SameMemory s t ∧ t.mem = s.mem ∧
      (s.acc.dmode = .on → t.acc.entry = true → t.core.srr0 = s.icdu.next)

/-! ## isync -/

/-- `isync` settles BBCMCR: after it every fetch is governed by the current value; nothing else but the next access changes
(44_spr_access R291; decision D20, log 24; that accesses issued ahead stay pending as they are, each with the BBCMCR value drawn
when it was issued, is the model's choice, log 24; that the next access keeps every attribute of the one before, log 3). -/
def Obligations.IsyncSettlesBbcmcr : Prop :=
  ∀ s : State, ∃ t, exec .isync s = .next t ∧ t.superseded = [] ∧ t.governing Config.chip = s.bbcmcr ∧ SameRegisters s t ∧
    t.core = s.core ∧ t.pending = s.pending ∧ t.draws = s.draws ∧ SameHidden s t ∧ SameInterface s t ∧ GoesOn s t ∧
    SameMemory s t ∧ t.mem = s.mem

/-- In every state each field of BBCMCR governs a fetch with its current value or with one written over since the last `isync`,
and EN_COMP with its current value; so right after a write from a settled state each governs with the old or the new value
(44_spr_access R291; decision D20, log 24). -/
def Obligations.IsyncWindowOldOrNew : Prop :=
  (∀ s : State, (s.governing Config.chip).enComp = s.bbcmcr.enComp ∧
    ∀ field ∈ [Bbcmcr.be, Bbcmcr.etre, Bbcmcr.oerc, Bbcmcr.enComp, Bbcmcr.excComp, Bbcmcr.decompScEn],
      ∃ v ∈ s.bbcmcr :: s.superseded, field (s.governing Config.chip) = field v) ∧
  ∀ (rS : Reg) (s : State) (i : Instr), WritesSpr i .bbcmcr rS → SprAccessRuns s → s.superseded = [] →
    ∃ t, exec i s = .next t ∧
      ∀ field ∈ [Bbcmcr.be, Bbcmcr.etre, Bbcmcr.oerc, Bbcmcr.enComp, Bbcmcr.excComp, Bbcmcr.decompScEn],
        (field (t.governing Config.chip) = field s.bbcmcr ∨ field (t.governing Config.chip) = field t.bbcmcr) ∧
          (t.governing Config.chip).enComp = s.bbcmcr.enComp

/-! ## Branches -/

/-- A branch before mapping goes to its word displacement, from the branch's own address unless AA is set; a conditional one
goes there or to the next instruction, which of the two being free; LK puts the next instruction address in LR
(30_encoding R105, R107 with 93_implementation_defined G2; the model's reading, log 41: the conditional
one writes LR taken or not). -/
def Obligations.PlainBranchTargets : Prop :=
  (∀ (wp : BitVec 24) (aa lk : Bool) (s : State), ∃ t, exec (.b wp aa lk) s = .next t ∧
    t.acc.addr.toInt = ((if aa then 0 else s.acc.addr.toInt) + 4 * wp.toInt).bmod (2 ^ 32) ∧
    t.acc.form = .twoPointer ∧ t.core.lr = (if lk then s.nextAddr else s.core.lr)) ∧
  ∀ (bo bi : BitVec 5) (bd : BitVec 14) (aa lk : Bool) (s : State), ∃ t, exec (.bc bo bi bd aa lk) s = .next t ∧
    (t.acc.addr.toInt = ((if aa then 0 else s.acc.addr.toInt) + 4 * bd.toInt).bmod (2 ^ 32) ∨ GoesOn s t) ∧
    t.acc.form = .twoPointer ∧ t.core.lr = (if lk then s.nextAddr else s.core.lr)

/-- A mapped direct branch forms its target in the one pointer format: the word pointer from the base address calculator,
the branch's 5-bit pointer, zeros elsewhere; a conditional one goes there or to the next instruction; LK puts the next
instruction address in LR (40_compression R143, R150, 30_encoding R112; the model's reading of LK, which
writes LR whether the conditional one is taken or not, and of the condition, log 41). -/
def Obligations.MappedBranchTarget : Prop :=
  (∀ (wp : BitVec 19) (ptr : BitVec 5) (aa lk : Bool) (s : State), ∃ t, exec (.bMapped wp ptr aa lk) s = .next t ∧
    docField t.acc.addr 0 20 = Config.chip.baseAddrCalc s.icdu.base 19 wp aa ∧ docField t.acc.addr 20 2 = 0#2 ∧
    docField t.acc.addr 22 5 = ptr ∧ docField t.acc.addr 27 5 = 0#5 ∧ t.acc.form = .onePointer ∧
    t.core.lr = (if lk then s.nextAddr else s.core.lr)) ∧
  ∀ (cond : BitVec 10) (wp : BitVec 9) (ptr : BitVec 5) (aa lk : Bool) (s : State), ∃ t,
    exec (.bcMapped cond wp ptr aa lk) s = .next t ∧
    ((docField t.acc.addr 0 20 = Config.chip.baseAddrCalc s.icdu.base 9 wp aa ∧ docField t.acc.addr 20 2 = 0#2 ∧
      docField t.acc.addr 22 5 = ptr ∧ docField t.acc.addr 27 5 = 0#5 ∧ t.acc.form = .onePointer) ∨ GoesOn s t) ∧
    t.core.lr = (if lk then s.nextAddr else s.core.lr)

/-- An indirect branch goes to LR, CTR or SRR0 as it stands, with no label lookup in Decompression ON mode: where the word
there is delivered for execution, its address is that register's value in the two pointer form (40_compression R145). That the
mode is kept, that the core's side is (an indirect branch never links), and that the word is executed in the same step, is the model's
choice (log 3, 41, and 1, 26); so is that a label which stands at the destination is skipped as in sequence (log 29). -/
def Obligations.IndirectBranchGoesToRegister : Prop :=
  ∀ (p : Config.Params) (src : IndirectSource) (rest : List Event) (s u : State), s.inputs = .indirect src :: rest →
    transact p s = .next u → u.delivered.isSome = true →
    (src = .lr → u.acc.addr = s.core.lr) ∧ (src = .ctr → u.acc.addr = s.core.ctr) ∧ (src = .srr0 → u.acc.addr = s.core.srr0) ∧
      u.acc.form = .twoPointer ∧ u.acc.dmode = s.acc.dmode ∧ u.core = s.core

/-- The frame of the four branches: only the next access's address, LR with LK, the prefetched instruction, which a change of
flow discards (40_compression R151), and, for the conditional ones, CTR and the counter of free values change. LR by LK, of a
conditional one that is not taken too, and the free CTR are the model's reading (log 41), the attributes kept its choice (log 3). -/
def Obligations.BranchFrame : Prop :=
  ∀ (i : Instr) (s : State), isBranchRow i = true → ∃ t, exec i s = .next t ∧ SameRegisters s t ∧
    t.superseded = s.superseded ∧ t.pending = s.pending ∧ SameInterface s t ∧ SameMemory s t ∧ t.mem = s.mem ∧
    t.mode = s.mode ∧ t.parked = s.parked ∧ t.lastBus = s.lastBus ∧ t.stored = s.stored ∧
    (t.icdu = { s.icdu with prefetched := none } ∨ t.icdu = s.icdu ∧ GoesOn s t) ∧
    t.core.x = s.core.x ∧ t.core.srr0 = s.core.srr0 ∧ t.core.srr1 = s.core.srr1 ∧ t.core.msrIp = s.core.msrIp ∧
    (t.core.lr = s.core.lr ∨ t.core.lr = s.nextAddr) ∧
    (∀ wp aa lk, i = .b wp aa lk → t.core.ctr = s.core.ctr ∧ t.draws = s.draws ∧ t.icdu.prefetched = none) ∧
    (∀ wp ptr aa lk, i = .bMapped wp ptr aa lk → t.core.ctr = s.core.ctr ∧ t.draws = s.draws ∧ t.icdu.prefetched = none) ∧
    t.acc = { s.acc with addr := t.acc.addr, form := t.acc.form, entry := false }

/-! ## The IMPU -/

/-- A region that is off matches no address; for an enabled region that keeps the two preconditions, the range comparison is the
mask comparison of address bits 0:19 (42_impu_protection R212, R213). -/
def Obligations.RegionMatchIsMaskCompare : Prop :=
  ∀ (m : Impu) (k : Fin 4) (a : Word), (m.gra.enr[k] = false → m.matches k a = false) ∧
    (m.regionLegal k = true → m.gra.enr[k] = true →
      (m.matches k a = true ↔ docField a 0 20 &&& ~~~m.ra[k].rs = m.rba[k]))

/-- The legal RS values are exactly the `2^k - 1` for `k` in 0..20, and a region with RS `2^k - 1` has `2^(k + 12)` bytes
(10_state R26). -/
def Obligations.LegalSizesArePowersOfTwo : Prop :=
  (∀ rs : BitVec 20, legalSize rs = true ↔ ∃ k, k ≤ 20 ∧ rs.toNat = 2 ^ k - 1) ∧
    ∀ (m : Impu) (j : Fin 4) (k : Nat), k ≤ 20 → m.ra[j].rs.toNat = 2 ^ k - 1 → m.size j = 2 ^ (k + 12)

/-- The region with the lowest index among those that match is chosen; the global region when none does
(42_impu_protection R214, R215). -/
def Obligations.LowestIndexRegionChosen : Prop :=
  ∀ (m : Impu) (a : Word),
    (∀ k, m.chosen a = some k ↔ m.matches k a = true ∧ ∀ j, j < k → m.matches j a = false) ∧
      (m.chosen a = none ↔ ∀ k, m.matches k a = false)

/-- The attributes are those of the chosen region's MI_RA, else those of MI_GRA (42_impu_protection R215). -/
def Obligations.AttributesOfChosenRegion : Prop :=
  ∀ (m : Impu) (a : Word),
    (∀ k, m.matches k a = true → (∀ j, j < k → m.matches j a = false) →
      m.attributesAt a = { pp := m.ra[k].pp, g := m.ra[k].g, cmpr := m.ra[k].cmpr }) ∧
      ((∀ k, m.matches k a = false) → m.attributesAt a = { pp := m.gra.pp, g := m.gra.g, cmpr := m.gra.cmpr })

/-- While MSR[IR] is 0 every access is allowed, whatever the registers hold; with protection on and legal regions an access is
allowed exactly when PP, G and CMPR of the address `a` the IMPU compares all allow it: none loosens another. That address is the one
issued in OFF mode, and `impu_addr_on` of it in ON mode (42_impu_protection R210, R217 to R222; decisions D4, D5, D6, D33; log 22). -/
def Obligations.AllowedExactlyWhenAllChecksPass : Prop :=
  (∀ (p : Config.Params) (u : Impu) (acc : Access) (m : DMode) (tie : Bool), acc.msrIr = false → u.check p acc m tie = .allowed) ∧
  ∀ (p : Config.Params) (u : Impu) (acc : Access) (m : DMode) (a : Word) (tie : Bool), acc.msrIr = true → u.legal = true →
    (m = .off → a = acc.addr) → (m = .on → a = p.impuAddrOn acc.addr) →
    (u.check p acc m tie = .allowed ↔
      ((u.attributesAt a).pp = 2#2 ∨ (u.attributesAt a).pp = 3#2 ∨ ((u.attributesAt a).pp = 1#2 ∧ acc.priv = .supervisor)) ∧
      ¬((u.attributesAt a).g = true ∧ acc.spec = true) ∧
      (p.hasComp = true → ((u.attributesAt a).cmpr = 1#2 → m = .off) ∧ ((u.attributesAt a).cmpr = 3#2 → m = .on)))

/-- The protection and compression tables, cell by cell (42_impu_protection R217, R220). -/
def Obligations.AttributeTables : Prop :=
  (∀ v, ppOk 0#2 v = false) ∧ (∀ v, ppOk 1#2 v = (v == .supervisor)) ∧ (∀ v, ppOk 2#2 v = true ∧ ppOk 3#2 v = true) ∧
    (∀ m, cmprOk true 0#2 m = true ∧ cmprOk true 2#2 m = true) ∧
    (∀ m, cmprOk true 1#2 m = (m == .off) ∧ cmprOk true 3#2 m = (m == .on)) ∧ ∀ c m, cmprOk false c m = true

/-- A refusal that PP alone gives is reported in SRR1 bit 4, one that G alone gives in bit 3, always exactly one of the two
(42_impu_protection R221, 60_exceptions R311). -/
def Obligations.ViolationBitOfOneCause : Prop :=
  ∀ (p : Config.Params) (u : Impu) (acc : Access) (m : DMode) (tie guarded : Bool),
    u.check p acc m tie = .violation guarded →
      (gOk (u.attributesAt (compareAddr p m acc.addr)).g acc.spec = true →
        ppOk (u.attributesAt (compareAddr p m acc.addr)).pp acc.priv = false →
        guarded = false ∧ (violationBits guarded).bit4 = true ∧ (violationBits guarded).bit3 = false) ∧
      (gOk (u.attributesAt (compareAddr p m acc.addr)).g acc.spec = false →
        ppOk (u.attributesAt (compareAddr p m acc.addr)).pp acc.priv = true →
        guarded = true ∧ (violationBits guarded).bit3 = true ∧ (violationBits guarded).bit4 = false) ∧
      ((violationBits guarded).bit3 != (violationBits guarded).bit4) = true ∧
      (violationBits guarded).bit1 = false ∧ (violationBits guarded).bit10 = false

/-- While an enabled region breaks a precondition, no check gives a result: with protection on an admitted access, in either mode and
at a vector too, is refused when it is fetched or issued ahead, and a pending one whose region values do so when it is answered (decision
D10, U1, U2). -/
def Obligations.IllegalRegionRefusesFetch : Prop :=
  ∀ p : Config.Params,
    (∀ (acc : Access) (s : State) (m : DMode), Admitted p acc m s → acc.msrIr = true → BreaksPrecondition s.impu →
      fetch p acc s = .refused .illegalRegion ∧ ∀ taken, issue p taken acc s = .refused .illegalRegion) ∧
    ∀ (wanted : Bool) (s : State) (e : Pending) (rest : List Pending), s.pending = e :: rest → e.refused = none →
      e.acc.msrIr = true → BreaksPrecondition e.judgedBy → answer p wanted s = .refused .illegalRegion

/-! ## Relocation -/

/-- Relocation of each of the 32 vectors: 8 bytes apart instead of 256, 32 Kbytes up under OERC but for the reset vector
(43_exception_relocation R256; the slots of the eleven vectors without a row in Table 4-1 are the spec's inference, log 28). -/
def Obligations.RelocationOfEveryVector : Prop :=
  ∀ (p : Config.Params) (gov : Bbcmcr) (n : BitVec 5), gov.etre = true →
    relocate p gov (0xFFF00000#32 + (0#27 ++ n) <<< 8) =
      .addr (p.imb + BitVec.ofNat 32 (8 * n.toNat + if gov.oerc = true ∧ n.toNat ≠ 1 then 0x8000 else 0))

/-- The twenty-one rows of Table 4-1, the offset in the internal memory with OERC = 0 and with OERC = 1
(43_exception_relocation R253, R255). -/
def Obligations.RelocationTable : Prop :=
  ∀ (p : Config.Params) (gov : Bbcmcr), gov.etre = true →
    ∀ row ∈ [(0xFFF00000#32, 0x0000#32, 0x8000#32), (0xFFF00100#32, 0x0008#32, 0x0008#32), (0xFFF00200#32, 0x0010#32, 0x8010#32),
      (0xFFF00300#32, 0x0018#32, 0x8018#32), (0xFFF00400#32, 0x0020#32, 0x8020#32), (0xFFF00500#32, 0x0028#32, 0x8028#32),
      (0xFFF00600#32, 0x0030#32, 0x8030#32), (0xFFF00700#32, 0x0038#32, 0x8038#32), (0xFFF00800#32, 0x0040#32, 0x8040#32),
      (0xFFF00900#32, 0x0048#32, 0x8048#32), (0xFFF00A00#32, 0x0050#32, 0x8050#32), (0xFFF00B00#32, 0x0058#32, 0x8058#32),
      (0xFFF00C00#32, 0x0060#32, 0x8060#32), (0xFFF00D00#32, 0x0068#32, 0x8068#32), (0xFFF00E00#32, 0x0070#32, 0x8070#32),
      (0xFFF01000#32, 0x0080#32, 0x8080#32), (0xFFF01300#32, 0x0098#32, 0x8098#32), (0xFFF01C00#32, 0x00E0#32, 0x80E0#32),
      (0xFFF01D00#32, 0x00E8#32, 0x80E8#32), (0xFFF01E00#32, 0x00F0#32, 0x80F0#32), (0xFFF01F00#32, 0x00F8#32, 0x80F8#32)],
      relocate p gov row.1 = .addr (p.imb + if gov.oerc then row.2.2 else row.2.1)

/-- The System Reset vector maps to `IMB + 0x0008` for both values of OERC (43_exception_relocation R254). -/
def Obligations.ResetEntryNotMovedByOerc : Prop :=
  ∀ (p : Config.Params) (gov : Bbcmcr), gov.etre = true → relocate p gov 0xFFF00100#32 = .addr (p.imb + 0x8#32)

/-- With relocation off no address is touched, and with it on none outside 0xFFF0_0000 to 0xFFF0_1FFF
(43_exception_relocation R251, R257). Relocation together with compressed exception routines has no meaning: an access the IMPU
allows is refused then, whatever its address; and so has relocation of a Decompression ON access: one in the table is refused (R262;
decision D36, log 27). -/
def Obligations.RelocationOnlyInsideTable : Prop :=
  (∀ (p : Config.Params) (gov : Bbcmcr) (a : Word),
    gov.etre = false ∨ a < 0xFFF00000#32 ∨ 0xFFF01FFF#32 < a → relocate p gov a = .addr a) ∧
  ∀ (p : Config.Params) (acc : Access) (s : State) (m : DMode), Admitted p acc m s → s.superseded = [] →
    s.impu.check p (accessMade p m acc) m (p.freeBit (s.draws + 5)) = .allowed → s.bbcmcr.etre = true →
    (p.hasComp = true ∧ s.bbcmcr.enComp = true ∧ s.bbcmcr.excComp = true ∨
      m = .on ∧ 0xFFF00000#32 ≤ acc.addr ∧ acc.addr ≤ 0xFFF01FFF#32) →
    fetch p acc s = .refused .relocatedCompressed ∧ ∀ taken, issue p taken acc s = .refused .relocatedCompressed

/-- With relocation on, a plain-code access the IMPU allows, at an address of the table that is no multiple of 0x100, raises
`RelocGap`, fetched or issued ahead (43_exception_relocation R258, 60_exceptions R316). -/
def Obligations.FetchBetweenEntriesFaults : Prop :=
  ∀ (p : Config.Params) (acc : Access) (s : State), Admitted p acc .off s → s.superseded = [] →
    s.impu.check p (accessMade p .off acc) .off (p.freeBit (s.draws + 5)) = .allowed → s.bbcmcr.etre = true →
    (s.bbcmcr.enComp = false ∨ s.bbcmcr.excComp = false ∨ p.hasComp = false) →
    0xFFF00000#32 ≤ acc.addr → acc.addr ≤ 0xFFF01FFF#32 → acc.addr.toNat % 256 ≠ 0 →
    fetch p acc s = .fault (.relocGap acc.addr) ∧ ∀ taken, issue p taken acc s = .fault (.relocGap acc.addr)

/-! ## The fetch step -/

/-- A fetch in Decompression OFF mode that the IMPU allows, of plain code or at an exception vector (the first one after reset, the
relocated ones), is forwarded at its relocated address as one access and the word there is delivered and executed; no register
changes and nothing stays pending (41_modes_of_operation R182, R185, 43_exception_relocation R256, 60_exceptions R312; carried out as a
burst by decision D22 of R194, log 35). One that would read a byte the core has stored to is refused (20_memory R83, decision D28,
log 10). That it is answered and executed in the same step is the model's choice (log 1, 26); relocation with compressed exception
routines (log 27) has no meaning. -/
def Obligations.AllowedFetchDeliversWord : Prop :=
  ∀ (p : Config.Params) (acc : Access) (s : State) (a : Word), ServedAtOnce p acc .off s → acc.dbg = false →
    s.impu.check p (accessMade p .off acc) .off (p.freeBit (s.draws + 5)) = .allowed →
    relocationMeaningless p s.bbcmcr .off acc.addr = false → relocate p s.bbcmcr acc.addr = .addr a →
    (Memory.storedIn s.stored a = true → fetch p acc s = .refused .storedLocation) ∧
    (Memory.storedIn s.stored a = false →
      ∃ t, fetch p acc s = .next t ∧ t.out.word = some (Memory.readWord p s.mem a) ∧ t.out.next = none ∧ t.out.executes = true ∧
        AppearsOnBus p s.bbcmcr acc .off false [a] s t ∧
        t.acc = { acc with dmode := .off } ∧ t.pending = [] ∧ t.mode = .active ∧ SameRegisters s t ∧ t.superseded = [] ∧
        t.core = s.core ∧ t.icdu = { s.icdu with prefetched := none } ∧ t.mem = s.mem ∧ t.stored = s.stored)

/-- Every access put on the U-bus by a fetch, by an access issued ahead or by an answer (the further words of a decompression, a
cancelled access shown) carries the burst request exactly when BE is set and the access is not for the debug port, and is carried out as
a burst only if it carries the request. BE is settled: no BBCMCR write since the last `isync`, and for an answer BE is what it was for the
access when it was issued (41_modes_of_operation R183, R193, R194). -/
def Obligations.BurstRequestExactlyWhenEnabled : Prop :=
  (∀ (p : Config.Params) (acc : Access) (s t : State), s.superseded = [] →
    (fetch p acc s = .next t ∨ ∃ taken, issue p taken acc s = .next t) →
    ∃ shown, t.out.bus = s.out.bus ++ shown ∧
      ∀ b ∈ shown, b.burst = (s.bbcmcr.be && !acc.dbg) ∧ (b.carriedAsBurst = true → b.burst = true)) ∧
  ∀ (p : Config.Params) (wanted : Bool) (s t : State) (e : Pending) (rest : List Pending), s.pending = e :: rest →
    e.gov.be = s.bbcmcr.be → answer p wanted s = .next t →
    ∃ shown, t.out.bus = s.out.bus ++ shown ∧
      ∀ b ∈ shown, b.burst = (s.bbcmcr.be && !e.acc.dbg) ∧ (b.carriedAsBurst = true → b.burst = true)

/-- A debug port access the IMPU allows, in either mode, fetched or issued ahead, goes to the debug port and not to memory, as one
single access whatever BE holds; its word, and in Decompression ON mode the next instruction address with it, is a free value, at once or
when the U-bus answers it, and what is in memory or was stored plays no part (41_modes_of_operation R189; decision D35; the ON mode, and
that it is executed in the step that answers it, are the model's choice, log 34, 26). -/
def Obligations.DebugFetchGoesToDebugPort : Prop :=
  (∀ (p : Config.Params) (acc : Access) (s : State) (m : DMode) (a : Word), Admitted p acc m s → acc.dbg = true →
    s.impu.check p (accessMade p m acc) m (p.freeBit (s.draws + 5)) = .allowed →
    relocationMeaningless p (s.governing p) m acc.addr = false →
    relocate p (s.governing p) (accessMade p m acc).addr = .addr a →
    (∀ taken, ∃ t b, issue p taken acc s = .next t ∧ t.out.bus = s.out.bus ++ [b] ∧ b.dest = .debugPort ∧ b.burst = false ∧
      b.carriedAsBurst = false ∧ b.dbg = true) ∧
    (s.pending = [] → ∃ t b, fetch p acc s = .next t ∧ t.out.bus = s.out.bus ++ [b] ∧ b.dest = .debugPort ∧ b.burst = false ∧
      b.carriedAsBurst = false ∧ b.dbg = true ∧ t.out.word = some (p.freeWord (s.draws + 7)) ∧
      (m = .on → t.out.next = some (p.freeWord (s.draws + 8))) ∧ t.out.executes = true ∧ t.acc = accessMade p m acc ∧
      t.pending = [] ∧ SameRegisters s t ∧ t.core = s.core ∧ t.mem = s.mem)) ∧
  ∀ (p : Config.Params) (wanted : Bool) (s : State) (e : Pending) (rest : List Pending), s.pending = e :: rest →
    e.refused = none → e.acc.dbg = true → e.judgedBy.check p e.acc e.mode (p.freeBit s.draws) = .allowed →
    ∃ t, answer p wanted s = .next t ∧ t.pending = rest ∧ t.out.bus = s.out.bus ∧ t.out.word = some (p.freeWord (s.draws + 1)) ∧
      (e.mode = .on → t.out.next = some (p.freeWord (s.draws + 2))) ∧ t.out.executes = (wanted || s.out.executes) ∧
      SameRegisters s t ∧ t.core = s.core ∧ t.mem = s.mem ∧ (wanted = false → t.acc = s.acc ∧ t.icdu = s.icdu)

/-- A violating fetch, in either mode: SRR1 bits 1, 3, 4, 10 as the encoding says, in Decompression ON mode SRR0 the next
instruction address of the ICDU, the core goes on at 0xnnn0_1300 by MSR[IP], the refused address is reported, no word is
returned, no register of the module changes (60_exceptions R310 to R313, R321, 41_modes_of_operation R184; that it is taken in
the same step, that the mode of the refused access and not of the flow it leaves decides on SRR0, and that the general registers, LR, CTR
and MSR[IP] stay, is the model's choice, for R321 says that what else the core changes is not in the source: log 17). -/
def Obligations.ViolationTakesImpuException : Prop :=
  ∀ (p : Config.Params) (acc : Access) (s : State) (m : DMode) (guarded : Bool), Admitted p acc m s →
    s.impu.check p (accessMade p m acc) m (p.freeBit (s.draws + 5)) = .violation guarded →
    ∃ t, fetch p acc s = .next t ∧ t.core.srr1 = { bit1 := false, bit3 := guarded, bit4 := !guarded, bit10 := false } ∧
      (m = .on → t.core.srr0 = s.icdu.next) ∧
      t.acc.addr = (if s.core.msrIp then 0xFFF01300#32 else 0x00001300#32) ∧ t.acc.entry = true ∧
      (∃ r, t.out.report = some r ∧ r.addr = (accessMade p m acc).addr ∧ r.bits = t.core.srr1 ∧ r.vector = t.acc.addr ∧
        r.delivered = (acc.showCycle || acc.ptrace)) ∧
      t.out.word = s.out.word ∧ t.out.executes = s.out.executes ∧ t.pending = s.pending ∧ t.icdu.prefetched = none ∧
      SameRegisters s t ∧ t.core.x = s.core.x ∧ t.core.lr = s.core.lr ∧ t.core.ctr = s.core.ctr ∧
      t.core.msrIp = s.core.msrIp ∧ t.mem = s.mem ∧ t.stored = s.stored

/-- A refused access returns no instruction, fetched or issued ahead; it is delivered to the U-bus, with its attributes, exactly when it
carries show cycle or program trace, and the report says which (60_exceptions R314). It goes to the debug port or to the words of the
address issued, not relocated (log 37). -/
def Obligations.CancelledAccessShownOnlyWithAttributes : Prop :=
  ∀ (p : Config.Params) (acc : Access) (s t : State) (m : DMode) (guarded : Bool),
    (fetch p acc s = .next t ∨ ∃ taken, issue p taken acc s = .next t) → m = accessMode p (s.governing p) acc →
    s.impu.check p (accessMade p m acc) m (p.freeBit (s.draws + 5)) = .violation guarded →
    t.out.word = s.out.word ∧ (∃ r, t.out.report = some r ∧ r.delivered = (acc.showCycle || acc.ptrace)) ∧
      ((acc.showCycle || acc.ptrace) = false → t.out.bus = s.out.bus) ∧
      ((acc.showCycle || acc.ptrace) = true → t.out.bus ≠ s.out.bus ∧
        AppearsOnBus p (s.governing p) (accessMade p m acc) m true
          (forwardedWords p m acc.form (accessMade p m acc).addr) s t)

/-- Entering the low power mode puts the controller in power_save; there no fetch and no register access is served, and by
itself the core issues nothing: the step changes nothing but the outputs (41_modes_of_operation R190; that the registers are kept
is decision D19, that the core's side and the hidden state are the model's choice, log 38, and what an idle step is, log 1). -/
def Obligations.StandbyServesNothing : Prop :=
  (∀ (s : State) (rest : List Event), s.inputs = .standbyEnter :: rest → s.pending = [] →
    ∃ t, step s = .next t ∧ t.mode = .powerSave) ∧
  ∀ s : State, s.mode = .powerSave →
    (∀ p acc, fetch p acc s = .refused .powerSave ∧ ∀ taken, issue p taken acc s = .refused .powerSave) ∧
    (∀ r x i, WritesSpr i r x ∨ ReadsSpr i r x → exec i s = .refused .powerSave) ∧
    (s.inputs = [] → step s = .next { s with out := Outputs.none })

/-- Standby entry with nothing pending and standby exit complete and keep the ten registers; the mode becomes power_save and
then leaves it (41_modes_of_operation R190, R191; that the ten registers are kept is decision D19; that the core's side and its next
access are, and the mode after exit, is the model's choice, log 38). -/
def Obligations.StandbyKeepsRegisters : Prop :=
  (∀ (s : State) (rest : List Event), s.inputs = .standbyEnter :: rest → s.pending = [] →
    ∃ t, step s = .next t ∧ t.mode = .powerSave ∧ SameRegisters s t ∧ t.inputs = rest ∧ t.core = s.core ∧ t.acc = s.acc ∧
      t.mem = s.mem) ∧
  ∀ (s : State) (rest : List Event), s.inputs = .standbyExit :: rest →
    ∃ t, step s = .next t ∧ t.mode ≠ .powerSave ∧ SameRegisters s t ∧ t.inputs = rest ∧ t.core = s.core ∧ t.acc = s.acc ∧
      t.mem = s.mem

/-- An access in Decompression ON mode is refused where the part or EN_COMP does not admit it, fetched or issued ahead
(40_compression R131, U7). -/
def Obligations.OnModeNeedsEnComp : Prop :=
  ∀ (p : Config.Params) (acc : Access) (s : State), s.mode ≠ .powerSave → acc.dmode = .on → acc.entry = false →
    (p.hasComp = false ∨ s.bbcmcr.enComp = false) →
    fetch p acc s = .refused .decompressionDisabled ∧ ∀ taken, issue p taken acc s = .refused .decompressionDisabled

/-- The fetch at an exception vector is made in Decompression ON mode exactly when the part has compression, EN_COMP and
EXC_COMP are set (40_compression R133). An exception that leaves compressed code has the next instruction address of the ICDU in SRR0,
unless the fetch of its vector is refused in turn (60_exceptions R321, 40_compression R150; that such an exception is the event of its
vector's fetch, and that a flow at a vector not yet fetched counts in the mode its access carries over, is the model's choice, log 17). -/
def Obligations.ExceptionRoutineMode : Prop :=
  (∀ (p : Config.Params) (acc : Access) (s t : State), acc.entry = true → s.superseded = [] → s.pending = [] →
    s.out.executes = false → fetch p acc s = .next t → t.out.executes = true →
    (t.acc.dmode = .on ↔ p.hasComp = true ∧ s.bbcmcr.enComp = true ∧ s.bbcmcr.excComp = true)) ∧
  ∀ (p : Config.Params) (acc : Access) (rest : List Event) (s t : State), s.inputs = .fetch acc :: rest → acc.entry = true →
    s.acc.dmode = .on → transact p s = .next t → t.out.report = none → t.core.srr0 = s.icdu.next

/-- Accesses issued ahead (events `issue` and `answer`), and a fetch behind older accesses. An allowed one appears on the U-bus and
joins the end of the queue, judged by the current IMPU registers. One the IMPU refuses ahead is reported, not taken, shown as cancelled
only with show cycle or program trace, and keeps its place. An answer takes the front of the queue and delivers that access's own
word or instruction (of a debug port access see DebugFetchGoesToDebugPort), which the core executes if its flow wants it and passes over
otherwise, and puts the further words of a decompression on the U-bus; a refused one is taken as the exception only if the flow wants it;
one that violates by an IMPU value written since is reported then, shown as cancelled only with show cycle or program trace, and taken
only if the flow wants it. The flow wants the access that is made of its own, an exception vector too (20_memory R81, R85;
41_modes_of_operation R182, R185; 40_compression R133; 60_exceptions R314, R315; decisions D21, D27, D29; what the core wants, when it
takes the exception, by which MSR[IP] the report names the vector, that an access keeps the BBCMCR value it was issued under, and the
second appearance of an access and when further words appear, are the model's choice, log 17, 24, 25, 26, 37, 45). -/
def Obligations.AnswersInIssueOrder : Prop :=
  (∀ (p : Config.Params) (s : State) (acc : Access) (rest : List Event),
    (s.inputs = .issue acc :: rest → transact p s = issue p false acc { s.cleared with inputs := rest }) ∧
    (s.inputs = .answer :: rest → transact p s = answer p (s.wantsOldest p) { s.cleared with inputs := rest }) ∧
    (s.pending ≠ [] → fetch p acc s = issue p true acc (s.flowTo acc))) ∧
  (∀ (p : Config.Params) (s : State) (e : Pending) (rest : List Pending) (m : DMode), s.pending = e :: rest →
    e.acc = accessMade p m s.acc → (s.acc.entry = true ∨ m = s.acc.dmode) → s.wantsOldest p = true) ∧
  (∀ (p : Config.Params) (taken : Bool) (acc : Access) (s : State) (m : DMode) (a : Word), Admitted p acc m s →
    s.impu.check p (accessMade p m acc) m (p.freeBit (s.draws + 5)) = .allowed →
    relocationMeaningless p (s.governing p) m acc.addr = false →
    relocate p (s.governing p) (accessMade p m acc).addr = .addr a →
    ∃ t, issue p taken acc s = .next t ∧
      t.pending = s.pending ++ [{
        acc := accessMade p m acc
        mode := m
        words := forwardedWords p m acc.form a
        gov := s.governing p
        judgedBy := s.impu
        refused := none }] ∧
      AppearsOnBus p (s.governing p) (accessMade p m acc) m false (forwardedWords p m acc.form a) s t ∧
      t.core = s.core ∧ t.acc = s.acc ∧ t.out.word = s.out.word ∧ t.out.report = s.out.report) ∧
  (∀ (p : Config.Params) (acc : Access) (s : State) (m : DMode) (guarded : Bool), Admitted p acc m s →
    s.impu.check p (accessMade p m acc) m (p.freeBit (s.draws + 5)) = .violation guarded →
    ∃ t, issue p false acc s = .next t ∧
      t.pending = s.pending ++ [{
        acc := accessMade p m acc
        mode := m
        words := []
        gov := s.governing p
        judgedBy := s.impu
        refused := some guarded }] ∧
      (∃ r, t.out.report = some r ∧ r.addr = (accessMade p m acc).addr ∧ r.bits = violationBits guarded ∧
        r.vector = (if s.core.msrIp then 0xFFF01300#32 else 0x00001300#32) ∧
        r.delivered = (acc.showCycle || acc.ptrace)) ∧
      ((acc.showCycle || acc.ptrace) = false → t.out.bus = s.out.bus) ∧
      ((acc.showCycle || acc.ptrace) = true →
        AppearsOnBus p (s.governing p) (accessMade p m acc) m true
          (forwardedWords p m acc.form (accessMade p m acc).addr) s t) ∧
      t.core = s.core ∧ t.acc = s.acc ∧ t.out.word = s.out.word) ∧
  (∀ (p : Config.Params) (wanted : Bool) (s : State) (e : Pending) (rest : List Pending), s.pending = e :: rest →
    e.refused = none → e.acc.dbg = false → e.judgedBy.check p e.acc e.mode (p.freeBit s.draws) = .allowed →
    (e.mode = .off → Memory.storedIn s.stored (e.words.headD e.acc.addr) = false →
      ∃ t, answer p wanted s = .next t ∧ t.pending = rest ∧
        t.out.word = some (Memory.readWord p s.mem (e.words.headD e.acc.addr)) ∧ t.out.bus = s.out.bus ∧
        t.out.executes = (wanted || s.out.executes) ∧ t.core = s.core ∧ (wanted = false → t.acc = s.acc ∧ t.icdu = s.icdu)) ∧
    ∀ d, e.mode = .on → icduDecode p s.mem s.icdu e.acc.form e.acc.addr = some d →
      d.words.any (Memory.storedIn s.stored) = false →
      ∃ t, answer p wanted s = .next t ∧ t.pending = rest ∧ t.out.word = some d.instr ∧ t.out.next = some d.next ∧
        AppearsOnBus p e.gov e.acc .on false (d.words.filter (fun a => !e.words.contains a)) s t ∧
        t.out.executes = (wanted || s.out.executes) ∧ t.core = s.core ∧ (wanted = false → t.acc = s.acc ∧ t.icdu = s.icdu)) ∧
  (∀ (p : Config.Params) (wanted : Bool) (s : State) (e : Pending) (rest : List Pending) (guarded : Bool), s.pending = e :: rest →
    e.refused = none → e.judgedBy.check p e.acc e.mode (p.freeBit s.draws) = .violation guarded →
    ∃ t, answer p wanted s = .next t ∧ t.pending = rest ∧ t.out.word = s.out.word ∧ t.out.executes = s.out.executes ∧
      (∃ r, t.out.report = some r ∧ r.addr = e.acc.addr ∧ r.bits = violationBits guarded ∧
        r.vector = (if s.core.msrIp then 0xFFF01300#32 else 0x00001300#32) ∧
        r.delivered = (e.acc.showCycle || e.acc.ptrace)) ∧
      ((e.acc.showCycle || e.acc.ptrace) = false → t.out.bus = s.out.bus) ∧
      ((e.acc.showCycle || e.acc.ptrace) = true →
        AppearsOnBus p e.gov e.acc e.mode true (forwardedWords p e.mode e.acc.form e.acc.addr) s t) ∧
      (wanted = false → t.core = s.core ∧ t.acc = s.acc) ∧
      (wanted = true → t.core.srr1 = violationBits guarded ∧
        t.acc.addr = (if s.core.msrIp then 0xFFF01300#32 else 0x00001300#32) ∧ t.acc.entry = true)) ∧
  ∀ (p : Config.Params) (s : State) (e : Pending) (rest : List Pending) (guarded : Bool), s.pending = e :: rest →
    e.refused = some guarded →
    (∃ t, answer p false s = .next t ∧ t.pending = rest ∧ t.core = s.core ∧ t.acc = s.acc ∧ t.out = s.out) ∧
    ∃ t, answer p true s = .next t ∧ t.pending = rest ∧ t.core.srr1 = violationBits guarded ∧
      t.acc.addr = (if s.core.msrIp then 0xFFF01300#32 else 0x00001300#32) ∧ t.acc.entry = true ∧ t.out = s.out

/-! ## The ICDU -/

/-- A fetch in Decompression ON mode that the IMPU allows, of compressed code or at an exception vector, goes to the word or words of its
address first, all word aligned, then to the further words of the decompression, each access with the access's own attributes, cancelled
none; it delivers the decompressed instruction, of at most 36 bits, together with the next instruction address; its show cycles carry the
bit pointers of the address exactly when DECOMP_SC_EN is set; the ICDU then holds the five parts of the instruction's two pointer
address (40_compression R141, R147, R148, 41_modes_of_operation R185, 20_memory R74, 30_encoding R100, 60_exceptions R328). One that
would read a byte the core has stored to is refused (20_memory R83, decision D28, log 10). Relocation with compressed exception routines
has no meaning (log 27); that the prefetched instruction agrees with memory is the invariant (log 32). The model's choices: that it is
answered and executed in the same step (log 1, 26), the address of a vector (log 33), what a one pointer address shows as pointers
(log 36), which address is kept for a labelled instruction (log 30), that a label is skipped after a change of flow too (log 29), when
the further words appear and which count as read (log 45). -/
def Obligations.CompressedFetchDeliversInstruction : Prop :=
  ∀ (p : Config.Params) (acc : Access) (s : State) (a : Word) (d : Decoded), ServedAtOnce p acc .on s → acc.dbg = false →
    a = (accessMade p .on acc).addr →
    s.impu.check p (accessMade p .on acc) .on (p.freeBit (s.draws + 5)) = .allowed →
    relocationMeaningless p s.bbcmcr .on acc.addr = false →
    (∀ e, s.icdu.prefetched = some e → decompress p s.mem .twoPointer e.addr = some e) →
    decompress p s.mem acc.form a = some d →
    (d.words.any (Memory.storedIn s.stored) = true → fetch p acc s = .refused .storedLocation) ∧
    (d.words.any (Memory.storedIn s.stored) = false →
      ∃ t, fetch p acc s = .next t ∧ t.out.word = some d.instr ∧ t.out.next = some d.next ∧ t.out.executes = true ∧
        d.bits ≤ 36 ∧ (∀ w ∈ physicalWords p acc.form a, docField w 30 2 = 0#2) ∧
        AppearsOnBus p s.bbcmcr (accessMade p .on acc) .on false
          (physicalWords p acc.form a ++ d.words.filter (fun w => !(physicalWords p acc.form a).contains w)) s t ∧
        t.icdu.next = d.next ∧ t.icdu.base = docField d.here 0 20 ∧ t.icdu.leftRight = docBit d.here 20 ∧
        t.icdu.sameLine = docBit d.here 21 ∧ (t.icdu.left, t.icdu.right) = bitPointers p d.here ∧
        t.acc = accessMade p .on acc ∧ t.pending = [] ∧ SameRegisters s t ∧ t.core = s.core ∧ t.mem = s.mem ∧ t.stored = s.stored)

/-- Where the two halves of an instruction lie, by bits 21 and 20 of its two pointer address (30_encoding R111). -/
def Obligations.HalvesOfTwoPointerAddress : Prop :=
  ∀ (p : Config.Params) (a : Word),
    (docBit a 21 = false → leftWord p a = baseWord p a ∧ rightWord p a = baseWord p a) ∧
      (docBit a 21 = true → docBit a 20 = false → leftWord p a = baseWord p a ∧ rightWord p a = baseWord p a + 4#32) ∧
      (docBit a 21 = true → docBit a 20 = true → leftWord p a = baseWord p a + 4#32 ∧ rightWord p a = baseWord p a) ∧
      baseWord p a = p.compBase + BitVec.ofNat 32 ((docField a 0 20).toNat * 4)

/-- A stream stays in its part of a word: bits 0:11 or 0:18 left, 12:30 or 19:30 right by bit 31, and at the end of its part goes on
at the start of the same part of the next word (30_encoding R113, 40_compression R149). -/
def Obligations.StreamsStayInTheirPart : Prop :=
  ∀ (p : Config.Params) (mem : List Host.Cell) (side : Config.Side) (q : Place), inStream p mem side q = true →
    inStream p mem side (nextPlace p mem side q) = true ∧
      ((nextPlace p mem side q).word = q.word ∧ (nextPlace p mem side q).bit = q.bit + 1 ∨
        (nextPlace p mem side q).word = q.word + 4#32 ∧
          (nextPlace p mem side q).bit = (match side with
            | .left => 0
            | .right => if docBit (Memory.readWord p mem (q.word + 4#32)) 31 then 12 else 19) ∧
          q.bit + 1 = (match side with
            | .left => if docBit (Memory.readWord p mem q.word) 31 then 12 else 19
            | .right => 31))

/-- The next instruction address names the two places the decompressor has reached, when they lie in the same or in adjacent
words of the 4-Mbyte compressed space (40_compression R150, 30_encoding R110, R111). -/
def Obligations.NextAddressNamesReachedPlaces : Prop :=
  ∀ (p : Config.Params) (l r : Place) (i j : Nat), l.word = p.compBase + BitVec.ofNat 32 (4 * i) →
    r.word = p.compBase + BitVec.ofNat 32 (4 * j) → i < 2 ^ 20 → j < 2 ^ 20 → (i = j ∨ i = j + 1 ∨ j = i + 1) →
    l.bit < 32 → r.bit < 32 →
    leftWord p (twoPointerOf p l r) = l.word ∧ rightWord p (twoPointerOf p l r) = r.word ∧
      (bitPointers p (twoPointerOf p l r)).1.toNat = l.bit ∧ (bitPointers p (twoPointerOf p l r)).2.toNat = r.bit

/-- Where the prefetched instruction agrees with memory, taking it gives what decompressing would (40_compression R151). -/
def Obligations.PrefetchChangesNoValue : Prop :=
  ∀ (s : State) (f : AddrForm) (a : Word), PrefetchAgrees s →
    icduDecode Config.chip s.mem s.icdu f a = decompress Config.chip s.mem f a

/-! ## Reset -/

/-- A hard reset keeps MI_RBA and MI_RA and a power-on reset need not; both clear MI_GRA, set BBCMCR from the parameters and the
configuration word, empty the queue and the isync window, make the controller idle and the core start at the System
Reset vector with protection off (70_reset_and_hazards R351, R354). That a hard reset keeps MI_RA is the spec's inference, which reads the
letter U as unaffected (10_state R31, 91_not_in_source N4; log 39), and so is that the isync window is discarded; that the bus is parked
is the model's reading (log 42); the rest of the start is its choice (log 5, 6, 39). -/
def Obligations.ResetEvents : Prop :=
  ∀ (s : State) (w : ResetWord) (rest : List Event) (e : Event), e = .hardReset w ∨ e = .powerOn w → s.inputs = e :: rest →
    ∃ t, step s = .next t ∧ (e = .hardReset w → t.impu.rba = s.impu.rba ∧ t.impu.ra = s.impu.ra) ∧
      t.impu.gra.image = 0#32 ∧ t.bbcmcr.be = false ∧ t.bbcmcr.etre = Config.chip.resetEtre ∧
      t.bbcmcr.oerc = Config.chip.resetOerc ∧ t.bbcmcr.enComp = (Config.chip.hasComp && w.rcw21) ∧
      t.bbcmcr.excComp = (Config.chip.hasComp && w.rcw22) ∧ t.bbcmcr.decompScEn = (Config.chip.hasComp && w.rcw21) ∧
      t.superseded = [] ∧ t.mode = .idle ∧ t.pending = [] ∧ t.parked = true ∧ t.icdu.prefetched = none ∧
      t.acc.addr = (if w.ip then 0xFFF00100#32 else 0x00000100#32) ∧ t.acc.msrIr = false ∧ t.core.msrIp = w.ip ∧
      t.inputs = rest ∧ t.mem = s.mem

/-- After reset all four regions are off and MI_GRA is zero, bursts are off, nothing is pending or unsettled, the controller is
idle, and every fetch with protection off is allowed, at either level, the first one among them
(10_state R38, R47, 42_impu_protection R211, 70_reset_and_hazards R351, R354; MSR[IR] = 0 at the start is presumed, log 6). -/
def Obligations.ResetStateDisabled : Prop :=
  State.reset.impu.gra.image = 0#32 ∧ (∀ k : Fin 4, State.reset.impu.gra.enr[k] = false) ∧ State.reset.bbcmcr.be = false ∧
    State.reset.bbcmcr.enComp = false ∧ State.reset.pending = [] ∧ State.reset.superseded = [] ∧ State.reset.mode = .idle ∧
    State.reset.acc.msrIr = false ∧
    ∀ (p : Config.Params) (acc : Access) (m : DMode) (tie : Bool), acc.msrIr = false →
      State.reset.impu.check p acc m tie = .allowed

/-! ## The whole machine -/

/-- When a step's transaction leaves the core a word to execute and it decodes to an instruction, the step is `exec` of that
instruction; and for a fetch of the core's own in Decompression OFF mode that the IMPU allows, at an exception vector too, the word is the
one in memory at the relocated address and the state it runs in is the one before with the fetch's effects. That one step fetches and
executes is the model's choice (log 1, log 26). -/
def Obligations.StepRunsDecodedInstruction : Prop :=
  (∀ (s u : State) (w : Word) (i : Instr), transact Config.chip s = .next u → u.delivered = some w →
    decodeWord u.acc.dmode w = .ok i → step s = exec i u) ∧
  ∀ (s : State) (i : Instr) (a : Word), s.inputs = [] → ServedAtOnce Config.chip s.acc .off s → s.acc.dbg = false →
    s.impu.check Config.chip (accessMade Config.chip .off s.acc) .off (Config.chip.freeBit (s.draws + 5)) = .allowed →
    relocationMeaningless Config.chip s.bbcmcr .off s.acc.addr = false → relocate Config.chip s.bbcmcr s.acc.addr = .addr a →
    Memory.storedIn s.stored a = false → decodeWord .off (Memory.readWord Config.chip s.mem a) = .ok i →
    ∃ bus, step s = exec i { s with
      mode := .active
      parked := true
      lastBus := some a
      icdu := { s.icdu with prefetched := none }
      acc := { s.acc with dmode := .off }
      draws := s.draws + 7
      out := {
        bus := [bus]
        word := some (Memory.readWord Config.chip s.mem a)
        next := none
        report := none
        executes := true } }

/-- Placing a word where the next step fetches it makes the next step run the instruction it decodes to, in a state with the
same registers and general registers and the same privilege (log 2), unless relocation with compressed exception routines stops
every fetch (log 27). -/
def Obligations.PlacedInstructionRuns : Prop :=
  ∀ (s : State) (nbits w : Nat) (i : Instr), decodeTableWord nbits w = some i →
    relocationMeaningless Config.chip (s.governing Config.chip) .off 0#32 = false →
    ∃ u, step (s.withFetchWord nbits w) = exec i u ∧ SameRegisters s u ∧ u.superseded = s.superseded ∧ u.core = s.core ∧
      u.icdu = { s.icdu with prefetched := none } ∧ u.acc.priv = s.acc.priv ∧ u.acc.dmode = .off ∧ u.mode = .active ∧
      u.pending = []

/-- No step changes memory: the module never issues a write (20_memory R76; that no other agent does in a run is decision
D28, log 10). -/
def Obligations.NoStepWritesMemory : Prop :=
  ∀ s t : State, step s = .next t → t.mem = s.mem ∧ SameMemory s t

/-- EN_COMP changes at a reset only (10_state R43). -/
def Obligations.OnlyResetChangesEnComp : Prop :=
  ∀ s t : State, step s = .next t → NoReset s → t.bbcmcr.enComp = s.bbcmcr.enComp

/-- While the core is in user mode no step but a reset changes any of the ten registers (10_state R22, 44_spr_access R292). That no
other agent and no instruction of the core's own writes them is decision D37 and the model's choice (log 43, log 14). -/
def Obligations.UserModeKeepsRegisters : Prop :=
  ∀ s t : State, step s = .next t → NoReset s → nextPriv s = .user → SameRegisters s t

/-- Only a reset or a supervisor's `mtspr` to one of the ten registers changes any of them (10_state R22, 70_reset_and_hazards R374,
which is the spec's decision D37, log 43; that words outside the table leave them alone is the model's choice, log 14). -/
def Obligations.OnlySupervisorMtsprWritesRegisters : Prop :=
  ∀ s t : State, step s = .next t → NoReset s → ¬SameRegisters s t →
    ∃ (u : State) (w : Word) (i : Instr) (r : Spr) (rS : Reg), transact Config.chip s = .next u ∧ u.delivered = some w ∧
      decodeWord u.acc.dmode w = .ok i ∧ WritesSpr i r rS ∧ SprAccessRuns u

/-- Every step keeps the invariant: memory in canonical form, nothing pending in standby, the prefetched instruction the one at
its address, the MPC556-only fields empty on the MPC555, every pending access an admitted one. -/
def Obligations.EveryStepKeepsInvariant : Prop :=
  ∀ s t : State, s.Inv → step s = .next t → t.Inv

/-- The invariant holds after reset. -/
def Obligations.InvariantHoldsAtReset : Prop := State.reset.Inv
end

