-- ==== Sys2Proof/Laws/Memory.lean ====
section
/-!
SUPPORT. The laws of memory: every operation keeps the canonical form, a placed byte and a placed
word are read back, no other byte changes.
-/

namespace Sys2Proof.Machine

/-- In canonical form, the list behind a cell is in canonical form. -/
theorem Memory.wf_tail {c : Host.Cell} {rest : List Host.Cell} (h : Memory.wf (c :: rest) = true) : Memory.wf rest = true := by
  cases rest with
  | nil => rfl
  | cons d rest => simp only [Memory.wf, Bool.and_eq_true] at h; exact h.2

/-- In canonical form, the first address is below the address space's end. -/
theorem Memory.wf_head_lt {c : Host.Cell} {rest : List Host.Cell} (h : Memory.wf (c :: rest) = true) : c.1 < 2 ^ 32 := by
  induction rest generalizing c with
  | nil => simpa [Memory.wf] using h
  | cons d rest ih =>
    simp only [Memory.wf, Bool.and_eq_true, decide_eq_true_eq] at h
    exact lt_trans h.1 (ih h.2)

/-- A cell in front of a canonical list keeps the form when its address is below the first one. -/
theorem Memory.wf_cons {c : Host.Cell} {rest : List Host.Cell} (hc : c.1 < 2 ^ 32) (hr : Memory.wf rest = true)
    (hlt : ∀ d ∈ rest.head?, c.1 < d.1) : Memory.wf (c :: rest) = true := by
  cases rest with
  | nil => simpa [Memory.wf] using hc
  | cons d rest => simp only [Memory.wf, Bool.and_eq_true, decide_eq_true_eq]; exact ⟨hlt d rfl, hr⟩

/-- The first address after placing is the placed one or the first one before. -/
theorem Memory.place_head {a : Nat} {v : Byte} {l : List Host.Cell} {d : Host.Cell} (h : d ∈ (Memory.place a v l).head?) :
    d.1 = a ∨ d ∈ l.head? := by
  cases l with
  | nil => simp [Memory.place] at h; subst h; exact .inl rfl
  | cons c rest =>
    simp only [Memory.place] at h
    split at h
    · simp at h; subst h; exact .inl rfl
    · split at h
      · simp at h; subst h; exact .inl rfl
      · simp at h; subst h; exact .inr (by simp)

/-- Placing a byte keeps the canonical form. -/
theorem Memory.place_wf {a : Nat} {v : Byte} {l : List Host.Cell} (ha : a < 2 ^ 32) (h : Memory.wf l = true) :
    Memory.wf (Memory.place a v l) = true := by
  induction l with
  | nil => simpa [Memory.place, Memory.wf] using ha
  | cons c rest ih =>
    simp only [Memory.place]
    split
    · next hlt => exact Memory.wf_cons ha h (by simpa using hlt)
    · next hge =>
      split
      · next heq =>
        refine Memory.wf_cons ha (Memory.wf_tail h) ?_
        intro d hd
        cases rest with
        | nil => simp at hd
        | cons e rest =>
          simp at hd; subst hd
          simp only [Memory.wf, Bool.and_eq_true, decide_eq_true_eq] at h
          exact heq ▸ h.1
      · next hne =>
        refine Memory.wf_cons (Memory.wf_head_lt h) (ih (Memory.wf_tail h)) ?_
        intro d hd
        rcases Memory.place_head hd with hda | hd
        · omega
        · cases rest with
          | nil => simp at hd
          | cons e rest =>
            simp at hd; subst hd
            simp only [Memory.wf, Bool.and_eq_true, decide_eq_true_eq] at h
            exact h.1

/-- Placing a word keeps the canonical form. -/
theorem Memory.placeWord_wf {a w : Word} {l : List Host.Cell} (h : Memory.wf l = true) :
    Memory.wf (Memory.placeWord a w l) = true :=
  Memory.place_wf (BitVec.isLt _) (Memory.place_wf (BitVec.isLt _) (Memory.place_wf (BitVec.isLt _)
    (Memory.place_wf (BitVec.isLt _) h)))

/-- In canonical form nothing is listed below the first address. -/
theorem Memory.placed_below {c : Host.Cell} {rest : List Host.Cell} {a : Nat} (h : Memory.wf (c :: rest) = true) (ha : a < c.1) :
    Memory.placed (c :: rest) a = none := by
  induction rest generalizing c with
  | nil => simp [Memory.placed]; omega
  | cons d rest ih =>
    simp only [Memory.wf, Bool.and_eq_true, decide_eq_true_eq] at h
    rw [Memory.placed, if_neg (by omega), ih h.2 (by omega)]

/-- A placed byte is read back. -/
theorem Memory.placed_place_same (a : Nat) (v : Byte) (l : List Host.Cell) : Memory.placed (Memory.place a v l) a = some v := by
  induction l with
  | nil => simp [Memory.place, Memory.placed]
  | cons c rest ih =>
    simp only [Memory.place]
    split
    · simp [Memory.placed]
    · split
      · simp [Memory.placed]
      · next hne => rw [Memory.placed, if_neg (fun e => hne e.symm), ih]

/-- Placing a byte leaves every other address alone. -/
theorem Memory.placed_place_other {a b : Nat} (v : Byte) (l : List Host.Cell) (hab : a ≠ b) :
    Memory.placed (Memory.place a v l) b = Memory.placed l b := by
  induction l with
  | nil => simp [Memory.place, Memory.placed, hab]
  | cons c rest ih =>
    simp only [Memory.place]
    split
    · rw [Memory.placed, if_neg hab]
    · split
      · next heq => rw [Memory.placed, if_neg hab, Memory.placed, if_neg (by omega)]
      · rw [Memory.placed, Memory.placed, ih]

/-- The four bytes of a word make the word. -/
theorem wordOfBytes_docField (w : Word) :
    wordOfBytes (docField w 0 8) (docField w 8 8) (docField w 16 8) (docField w 24 8) = w := by
  apply BitVec.eq_of_getLsbD_eq
  intro j hj
  simp only [wordOfBytes, docField, BitVec.getLsbD_append, BitVec.getLsbD_extractLsb']
  split
  · next h => simp [h]
  · next h =>
    split
    · next h' => simp [h']; congr 1; omega
    · next h' =>
      split
      · next h'' => simp [h'']; congr 1; omega
      · next h'' => simp [show j - 8 - 8 - 8 < 8 by omega]; congr 1; omega

/-- A placed word is read back. -/
theorem Memory.readWord_placeWord (p : Config.Params) (a w : Word) (mem : List Host.Cell) :
    Memory.readWord p (Memory.placeWord a w mem) a = w := by
  have apart : ∀ i j : Nat, i < 4 → j < 4 → i ≠ j → (a + BitVec.ofNat 32 i).toNat ≠ (a + BitVec.ofNat 32 j).toNat := by
    intro i j hi hj hij
    simp
    omega
  have h01 := apart 0 1 (by omega) (by omega) (by omega)
  have h02 := apart 0 2 (by omega) (by omega) (by omega)
  have h03 := apart 0 3 (by omega) (by omega) (by omega)
  have h12 := apart 1 2 (by omega) (by omega) (by omega)
  have h13 := apart 1 3 (by omega) (by omega) (by omega)
  have h23 := apart 2 3 (by omega) (by omega) (by omega)
  rw [show a + BitVec.ofNat 32 0 = a by simp] at h01 h02 h03
  simp only [Memory.readWord, Memory.byteAt, Memory.placeWord]
  rw [Memory.placed_place_same, Memory.placed_place_other _ _ h01, Memory.placed_place_same,
    Memory.placed_place_other _ _ h02, Memory.placed_place_other _ _ h12, Memory.placed_place_same,
    Memory.placed_place_other _ _ h03, Memory.placed_place_other _ _ h13, Memory.placed_place_other _ _ h23,
    Memory.placed_place_same]
  exact wordOfBytes_docField w

end Sys2Proof.Machine
end

