-- ==== Sys2Proof/Laws/State.lean ====
section
/-!
SUPPORT. What each named update of the state leaves as it was, and what it changes: one lemma per field.
-/

namespace Sys2Proof.Machine

/-! ### `State.setX` -/

@[simp] theorem State.setX_impu (r : Reg) (v : Word) (s : State) : (s.setX r v).impu = s.impu := rfl
@[simp] theorem State.setX_bbcmcr (r : Reg) (v : Word) (s : State) : (s.setX r v).bbcmcr = s.bbcmcr := rfl
@[simp] theorem State.setX_superseded (r : Reg) (v : Word) (s : State) : (s.setX r v).superseded = s.superseded := rfl
@[simp] theorem State.setX_mode (r : Reg) (v : Word) (s : State) : (s.setX r v).mode = s.mode := rfl
@[simp] theorem State.setX_pending (r : Reg) (v : Word) (s : State) : (s.setX r v).pending = s.pending := rfl
@[simp] theorem State.setX_parked (r : Reg) (v : Word) (s : State) : (s.setX r v).parked = s.parked := rfl
@[simp] theorem State.setX_lastBus (r : Reg) (v : Word) (s : State) : (s.setX r v).lastBus = s.lastBus := rfl
@[simp] theorem State.setX_icdu (r : Reg) (v : Word) (s : State) : (s.setX r v).icdu = s.icdu := rfl
@[simp] theorem State.setX_acc (r : Reg) (v : Word) (s : State) : (s.setX r v).acc = s.acc := rfl
@[simp] theorem State.setX_mem (r : Reg) (v : Word) (s : State) : (s.setX r v).mem = s.mem := rfl
@[simp] theorem State.setX_stored (r : Reg) (v : Word) (s : State) : (s.setX r v).stored = s.stored := rfl
@[simp] theorem State.setX_inputs (r : Reg) (v : Word) (s : State) : (s.setX r v).inputs = s.inputs := rfl
@[simp] theorem State.setX_out (r : Reg) (v : Word) (s : State) : (s.setX r v).out = s.out := rfl
@[simp] theorem State.setX_draws (r : Reg) (v : Word) (s : State) : (s.setX r v).draws = s.draws := rfl
@[simp] theorem State.setX_core (r : Reg) (v : Word) (s : State) :
    (s.setX r v).core = { s.core with x := s.core.x.set r.toNat v r.isLt } := rfl

/-! ### `State.settle` -/

@[simp] theorem State.settle_impu (s : State) : (s.settle).impu = s.impu := rfl
@[simp] theorem State.settle_bbcmcr (s : State) : (s.settle).bbcmcr = s.bbcmcr := rfl
@[simp] theorem State.settle_mode (s : State) : (s.settle).mode = s.mode := rfl
@[simp] theorem State.settle_pending (s : State) : (s.settle).pending = s.pending := rfl
@[simp] theorem State.settle_parked (s : State) : (s.settle).parked = s.parked := rfl
@[simp] theorem State.settle_lastBus (s : State) : (s.settle).lastBus = s.lastBus := rfl
@[simp] theorem State.settle_icdu (s : State) : (s.settle).icdu = s.icdu := rfl
@[simp] theorem State.settle_core (s : State) : (s.settle).core = s.core := rfl
@[simp] theorem State.settle_acc (s : State) : (s.settle).acc = s.acc := rfl
@[simp] theorem State.settle_mem (s : State) : (s.settle).mem = s.mem := rfl
@[simp] theorem State.settle_stored (s : State) : (s.settle).stored = s.stored := rfl
@[simp] theorem State.settle_inputs (s : State) : (s.settle).inputs = s.inputs := rfl
@[simp] theorem State.settle_out (s : State) : (s.settle).out = s.out := rfl
@[simp] theorem State.settle_draws (s : State) : (s.settle).draws = s.draws := rfl
@[simp] theorem State.settle_superseded (s : State) :
    (s.settle).superseded = [] := rfl

/-! ### `State.goTo` -/

@[simp] theorem State.goTo_impu (a : Word) (f : AddrForm) (s : State) : (s.goTo a f).impu = s.impu := rfl
@[simp] theorem State.goTo_bbcmcr (a : Word) (f : AddrForm) (s : State) : (s.goTo a f).bbcmcr = s.bbcmcr := rfl
@[simp] theorem State.goTo_superseded (a : Word) (f : AddrForm) (s : State) : (s.goTo a f).superseded = s.superseded := rfl
@[simp] theorem State.goTo_mode (a : Word) (f : AddrForm) (s : State) : (s.goTo a f).mode = s.mode := rfl
@[simp] theorem State.goTo_pending (a : Word) (f : AddrForm) (s : State) : (s.goTo a f).pending = s.pending := rfl
@[simp] theorem State.goTo_parked (a : Word) (f : AddrForm) (s : State) : (s.goTo a f).parked = s.parked := rfl
@[simp] theorem State.goTo_lastBus (a : Word) (f : AddrForm) (s : State) : (s.goTo a f).lastBus = s.lastBus := rfl
@[simp] theorem State.goTo_icdu (a : Word) (f : AddrForm) (s : State) : (s.goTo a f).icdu = s.icdu := rfl
@[simp] theorem State.goTo_core (a : Word) (f : AddrForm) (s : State) : (s.goTo a f).core = s.core := rfl
@[simp] theorem State.goTo_mem (a : Word) (f : AddrForm) (s : State) : (s.goTo a f).mem = s.mem := rfl
@[simp] theorem State.goTo_stored (a : Word) (f : AddrForm) (s : State) : (s.goTo a f).stored = s.stored := rfl
@[simp] theorem State.goTo_inputs (a : Word) (f : AddrForm) (s : State) : (s.goTo a f).inputs = s.inputs := rfl
@[simp] theorem State.goTo_out (a : Word) (f : AddrForm) (s : State) : (s.goTo a f).out = s.out := rfl
@[simp] theorem State.goTo_draws (a : Word) (f : AddrForm) (s : State) : (s.goTo a f).draws = s.draws := rfl
@[simp] theorem State.goTo_acc (a : Word) (f : AddrForm) (s : State) :
    (s.goTo a f).acc = { s.acc with addr := a, form := f, entry := false } := rfl

/-! ### `State.dropPrefetch` -/

@[simp] theorem State.dropPrefetch_impu (s : State) : (s.dropPrefetch).impu = s.impu := rfl
@[simp] theorem State.dropPrefetch_bbcmcr (s : State) : (s.dropPrefetch).bbcmcr = s.bbcmcr := rfl
@[simp] theorem State.dropPrefetch_superseded (s : State) : (s.dropPrefetch).superseded = s.superseded := rfl
@[simp] theorem State.dropPrefetch_mode (s : State) : (s.dropPrefetch).mode = s.mode := rfl
@[simp] theorem State.dropPrefetch_pending (s : State) : (s.dropPrefetch).pending = s.pending := rfl
@[simp] theorem State.dropPrefetch_parked (s : State) : (s.dropPrefetch).parked = s.parked := rfl
@[simp] theorem State.dropPrefetch_lastBus (s : State) : (s.dropPrefetch).lastBus = s.lastBus := rfl
@[simp] theorem State.dropPrefetch_core (s : State) : (s.dropPrefetch).core = s.core := rfl
@[simp] theorem State.dropPrefetch_acc (s : State) : (s.dropPrefetch).acc = s.acc := rfl
@[simp] theorem State.dropPrefetch_mem (s : State) : (s.dropPrefetch).mem = s.mem := rfl
@[simp] theorem State.dropPrefetch_stored (s : State) : (s.dropPrefetch).stored = s.stored := rfl
@[simp] theorem State.dropPrefetch_inputs (s : State) : (s.dropPrefetch).inputs = s.inputs := rfl
@[simp] theorem State.dropPrefetch_out (s : State) : (s.dropPrefetch).out = s.out := rfl
@[simp] theorem State.dropPrefetch_draws (s : State) : (s.dropPrefetch).draws = s.draws := rfl
@[simp] theorem State.dropPrefetch_icdu (s : State) :
    (s.dropPrefetch).icdu = { s.icdu with prefetched := none } := rfl

/-! ### `State.branchTo` -/

@[simp] theorem State.branchTo_impu (a : Word) (f : AddrForm) (s : State) : (s.branchTo a f).impu = s.impu := rfl
@[simp] theorem State.branchTo_bbcmcr (a : Word) (f : AddrForm) (s : State) : (s.branchTo a f).bbcmcr = s.bbcmcr := rfl
@[simp] theorem State.branchTo_superseded (a : Word) (f : AddrForm) (s : State) : (s.branchTo a f).superseded = s.superseded := rfl
@[simp] theorem State.branchTo_mode (a : Word) (f : AddrForm) (s : State) : (s.branchTo a f).mode = s.mode := rfl
@[simp] theorem State.branchTo_pending (a : Word) (f : AddrForm) (s : State) : (s.branchTo a f).pending = s.pending := rfl
@[simp] theorem State.branchTo_parked (a : Word) (f : AddrForm) (s : State) : (s.branchTo a f).parked = s.parked := rfl
@[simp] theorem State.branchTo_lastBus (a : Word) (f : AddrForm) (s : State) : (s.branchTo a f).lastBus = s.lastBus := rfl
@[simp] theorem State.branchTo_core (a : Word) (f : AddrForm) (s : State) : (s.branchTo a f).core = s.core := rfl
@[simp] theorem State.branchTo_mem (a : Word) (f : AddrForm) (s : State) : (s.branchTo a f).mem = s.mem := rfl
@[simp] theorem State.branchTo_stored (a : Word) (f : AddrForm) (s : State) : (s.branchTo a f).stored = s.stored := rfl
@[simp] theorem State.branchTo_inputs (a : Word) (f : AddrForm) (s : State) : (s.branchTo a f).inputs = s.inputs := rfl
@[simp] theorem State.branchTo_out (a : Word) (f : AddrForm) (s : State) : (s.branchTo a f).out = s.out := rfl
@[simp] theorem State.branchTo_draws (a : Word) (f : AddrForm) (s : State) : (s.branchTo a f).draws = s.draws := rfl
@[simp] theorem State.branchTo_icdu (a : Word) (f : AddrForm) (s : State) :
    (s.branchTo a f).icdu = { s.icdu with prefetched := none } := rfl
@[simp] theorem State.branchTo_acc (a : Word) (f : AddrForm) (s : State) :
    (s.branchTo a f).acc = { s.acc with addr := a, form := f, entry := false } := rfl

/-! ### `State.advance` -/

@[simp] theorem State.advance_impu (s : State) : (s.advance).impu = s.impu := rfl
@[simp] theorem State.advance_bbcmcr (s : State) : (s.advance).bbcmcr = s.bbcmcr := rfl
@[simp] theorem State.advance_superseded (s : State) : (s.advance).superseded = s.superseded := rfl
@[simp] theorem State.advance_mode (s : State) : (s.advance).mode = s.mode := rfl
@[simp] theorem State.advance_pending (s : State) : (s.advance).pending = s.pending := rfl
@[simp] theorem State.advance_parked (s : State) : (s.advance).parked = s.parked := rfl
@[simp] theorem State.advance_lastBus (s : State) : (s.advance).lastBus = s.lastBus := rfl
@[simp] theorem State.advance_icdu (s : State) : (s.advance).icdu = s.icdu := rfl
@[simp] theorem State.advance_core (s : State) : (s.advance).core = s.core := rfl
@[simp] theorem State.advance_mem (s : State) : (s.advance).mem = s.mem := rfl
@[simp] theorem State.advance_stored (s : State) : (s.advance).stored = s.stored := rfl
@[simp] theorem State.advance_inputs (s : State) : (s.advance).inputs = s.inputs := rfl
@[simp] theorem State.advance_out (s : State) : (s.advance).out = s.out := rfl
@[simp] theorem State.advance_draws (s : State) : (s.advance).draws = s.draws := rfl
@[simp] theorem State.advance_acc (s : State) :
    (s.advance).acc = { s.acc with addr := s.nextAddr, form := .twoPointer, entry := false } := rfl

/-! ### `State.cleared` -/

@[simp] theorem State.cleared_impu (s : State) : (s.cleared).impu = s.impu := rfl
@[simp] theorem State.cleared_bbcmcr (s : State) : (s.cleared).bbcmcr = s.bbcmcr := rfl
@[simp] theorem State.cleared_superseded (s : State) : (s.cleared).superseded = s.superseded := rfl
@[simp] theorem State.cleared_mode (s : State) : (s.cleared).mode = s.mode := rfl
@[simp] theorem State.cleared_pending (s : State) : (s.cleared).pending = s.pending := rfl
@[simp] theorem State.cleared_parked (s : State) : (s.cleared).parked = s.parked := rfl
@[simp] theorem State.cleared_lastBus (s : State) : (s.cleared).lastBus = s.lastBus := rfl
@[simp] theorem State.cleared_icdu (s : State) : (s.cleared).icdu = s.icdu := rfl
@[simp] theorem State.cleared_core (s : State) : (s.cleared).core = s.core := rfl
@[simp] theorem State.cleared_acc (s : State) : (s.cleared).acc = s.acc := rfl
@[simp] theorem State.cleared_mem (s : State) : (s.cleared).mem = s.mem := rfl
@[simp] theorem State.cleared_stored (s : State) : (s.cleared).stored = s.stored := rfl
@[simp] theorem State.cleared_inputs (s : State) : (s.cleared).inputs = s.inputs := rfl
@[simp] theorem State.cleared_draws (s : State) : (s.cleared).draws = s.draws := rfl
@[simp] theorem State.cleared_out (s : State) :
    (s.cleared).out = Outputs.none := rfl

/-! ### `State.issuing` -/

@[simp] theorem State.issuing_impu (s : State) : (s.issuing).impu = s.impu := rfl
@[simp] theorem State.issuing_bbcmcr (s : State) : (s.issuing).bbcmcr = s.bbcmcr := rfl
@[simp] theorem State.issuing_superseded (s : State) : (s.issuing).superseded = s.superseded := rfl
@[simp] theorem State.issuing_pending (s : State) : (s.issuing).pending = s.pending := rfl
@[simp] theorem State.issuing_parked (s : State) : (s.issuing).parked = s.parked := rfl
@[simp] theorem State.issuing_lastBus (s : State) : (s.issuing).lastBus = s.lastBus := rfl
@[simp] theorem State.issuing_icdu (s : State) : (s.issuing).icdu = s.icdu := rfl
@[simp] theorem State.issuing_core (s : State) : (s.issuing).core = s.core := rfl
@[simp] theorem State.issuing_acc (s : State) : (s.issuing).acc = s.acc := rfl
@[simp] theorem State.issuing_mem (s : State) : (s.issuing).mem = s.mem := rfl
@[simp] theorem State.issuing_stored (s : State) : (s.issuing).stored = s.stored := rfl
@[simp] theorem State.issuing_inputs (s : State) : (s.issuing).inputs = s.inputs := rfl
@[simp] theorem State.issuing_out (s : State) : (s.issuing).out = s.out := rfl
@[simp] theorem State.issuing_mode (s : State) :
    (s.issuing).mode = .active := rfl
@[simp] theorem State.issuing_draws (s : State) :
    (s.issuing).draws = s.draws + issueDraws := rfl

/-! ### `State.enqueue` -/

@[simp] theorem State.enqueue_impu (g : Bbcmcr) (acc : Access) (m : DMode) (ws : List Word) (r : Option Bool) (s : State) : (s.enqueue g acc m ws r).impu = s.impu := rfl
@[simp] theorem State.enqueue_bbcmcr (g : Bbcmcr) (acc : Access) (m : DMode) (ws : List Word) (r : Option Bool) (s : State) : (s.enqueue g acc m ws r).bbcmcr = s.bbcmcr := rfl
@[simp] theorem State.enqueue_superseded (g : Bbcmcr) (acc : Access) (m : DMode) (ws : List Word) (r : Option Bool) (s : State) : (s.enqueue g acc m ws r).superseded = s.superseded := rfl
@[simp] theorem State.enqueue_mode (g : Bbcmcr) (acc : Access) (m : DMode) (ws : List Word) (r : Option Bool) (s : State) : (s.enqueue g acc m ws r).mode = s.mode := rfl
@[simp] theorem State.enqueue_parked (g : Bbcmcr) (acc : Access) (m : DMode) (ws : List Word) (r : Option Bool) (s : State) : (s.enqueue g acc m ws r).parked = s.parked := rfl
@[simp] theorem State.enqueue_lastBus (g : Bbcmcr) (acc : Access) (m : DMode) (ws : List Word) (r : Option Bool) (s : State) : (s.enqueue g acc m ws r).lastBus = s.lastBus := rfl
@[simp] theorem State.enqueue_icdu (g : Bbcmcr) (acc : Access) (m : DMode) (ws : List Word) (r : Option Bool) (s : State) : (s.enqueue g acc m ws r).icdu = s.icdu := rfl
@[simp] theorem State.enqueue_core (g : Bbcmcr) (acc : Access) (m : DMode) (ws : List Word) (r : Option Bool) (s : State) : (s.enqueue g acc m ws r).core = s.core := rfl
@[simp] theorem State.enqueue_acc (g : Bbcmcr) (acc : Access) (m : DMode) (ws : List Word) (r : Option Bool) (s : State) : (s.enqueue g acc m ws r).acc = s.acc := rfl
@[simp] theorem State.enqueue_mem (g : Bbcmcr) (acc : Access) (m : DMode) (ws : List Word) (r : Option Bool) (s : State) : (s.enqueue g acc m ws r).mem = s.mem := rfl
@[simp] theorem State.enqueue_stored (g : Bbcmcr) (acc : Access) (m : DMode) (ws : List Word) (r : Option Bool) (s : State) : (s.enqueue g acc m ws r).stored = s.stored := rfl
@[simp] theorem State.enqueue_inputs (g : Bbcmcr) (acc : Access) (m : DMode) (ws : List Word) (r : Option Bool) (s : State) : (s.enqueue g acc m ws r).inputs = s.inputs := rfl
@[simp] theorem State.enqueue_out (g : Bbcmcr) (acc : Access) (m : DMode) (ws : List Word) (r : Option Bool) (s : State) : (s.enqueue g acc m ws r).out = s.out := rfl
@[simp] theorem State.enqueue_draws (g : Bbcmcr) (acc : Access) (m : DMode) (ws : List Word) (r : Option Bool) (s : State) : (s.enqueue g acc m ws r).draws = s.draws := rfl
@[simp] theorem State.enqueue_pending (g : Bbcmcr) (acc : Access) (m : DMode) (ws : List Word) (r : Option Bool) (s : State) :
    (s.enqueue g acc m ws r).pending =
      s.pending ++ [{ acc := acc, mode := m, words := ws, gov := g, judgedBy := s.impu, refused := r }] := rfl

/-! ### `State.deliver` -/

@[simp] theorem State.deliver_impu (w : Word) (n : Option Word) (s : State) : (s.deliver w n).impu = s.impu := rfl
@[simp] theorem State.deliver_bbcmcr (w : Word) (n : Option Word) (s : State) : (s.deliver w n).bbcmcr = s.bbcmcr := rfl
@[simp] theorem State.deliver_superseded (w : Word) (n : Option Word) (s : State) : (s.deliver w n).superseded = s.superseded := rfl
@[simp] theorem State.deliver_mode (w : Word) (n : Option Word) (s : State) : (s.deliver w n).mode = s.mode := rfl
@[simp] theorem State.deliver_pending (w : Word) (n : Option Word) (s : State) : (s.deliver w n).pending = s.pending := rfl
@[simp] theorem State.deliver_parked (w : Word) (n : Option Word) (s : State) : (s.deliver w n).parked = s.parked := rfl
@[simp] theorem State.deliver_lastBus (w : Word) (n : Option Word) (s : State) : (s.deliver w n).lastBus = s.lastBus := rfl
@[simp] theorem State.deliver_icdu (w : Word) (n : Option Word) (s : State) : (s.deliver w n).icdu = s.icdu := rfl
@[simp] theorem State.deliver_core (w : Word) (n : Option Word) (s : State) : (s.deliver w n).core = s.core := rfl
@[simp] theorem State.deliver_acc (w : Word) (n : Option Word) (s : State) : (s.deliver w n).acc = s.acc := rfl
@[simp] theorem State.deliver_mem (w : Word) (n : Option Word) (s : State) : (s.deliver w n).mem = s.mem := rfl
@[simp] theorem State.deliver_stored (w : Word) (n : Option Word) (s : State) : (s.deliver w n).stored = s.stored := rfl
@[simp] theorem State.deliver_inputs (w : Word) (n : Option Word) (s : State) : (s.deliver w n).inputs = s.inputs := rfl
@[simp] theorem State.deliver_draws (w : Word) (n : Option Word) (s : State) : (s.deliver w n).draws = s.draws := rfl
@[simp] theorem State.deliver_out (w : Word) (n : Option Word) (s : State) :
    (s.deliver w n).out = { s.out with word := some w, next := n } := rfl

/-! ### `State.toExecute` -/

@[simp] theorem State.toExecute_impu (made : Access) (s : State) : (s.toExecute made).impu = s.impu := rfl
@[simp] theorem State.toExecute_bbcmcr (made : Access) (s : State) : (s.toExecute made).bbcmcr = s.bbcmcr := rfl
@[simp] theorem State.toExecute_superseded (made : Access) (s : State) : (s.toExecute made).superseded = s.superseded := rfl
@[simp] theorem State.toExecute_mode (made : Access) (s : State) : (s.toExecute made).mode = s.mode := rfl
@[simp] theorem State.toExecute_pending (made : Access) (s : State) : (s.toExecute made).pending = s.pending := rfl
@[simp] theorem State.toExecute_parked (made : Access) (s : State) : (s.toExecute made).parked = s.parked := rfl
@[simp] theorem State.toExecute_lastBus (made : Access) (s : State) : (s.toExecute made).lastBus = s.lastBus := rfl
@[simp] theorem State.toExecute_core (made : Access) (s : State) : (s.toExecute made).core = s.core := rfl
@[simp] theorem State.toExecute_mem (made : Access) (s : State) : (s.toExecute made).mem = s.mem := rfl
@[simp] theorem State.toExecute_stored (made : Access) (s : State) : (s.toExecute made).stored = s.stored := rfl
@[simp] theorem State.toExecute_inputs (made : Access) (s : State) : (s.toExecute made).inputs = s.inputs := rfl
@[simp] theorem State.toExecute_draws (made : Access) (s : State) : (s.toExecute made).draws = s.draws := rfl
@[simp] theorem State.toExecute_acc (made : Access) (s : State) :
    (s.toExecute made).acc = { s.acc with addr := made.addr, dmode := made.dmode, form := made.form, entry := made.entry } := rfl
@[simp] theorem State.toExecute_out (made : Access) (s : State) :
    (s.toExecute made).out = { s.out with executes := true } := rfl
@[simp] theorem State.toExecute_icdu (made : Access) (s : State) :
    (s.toExecute made).icdu = (match made.dmode with
      | .off => { s.icdu with prefetched := none }
      | .on => s.icdu) := rfl

/-! ### `State.handOver` -/

@[simp] theorem State.handOver_impu (b : Bool) (made : Access) (u : Icdu) (s : State) : (s.handOver b made u).impu = s.impu := by
  unfold State.handOver; split <;> rfl
@[simp] theorem State.handOver_bbcmcr (b : Bool) (made : Access) (u : Icdu) (s : State) : (s.handOver b made u).bbcmcr = s.bbcmcr := by
  unfold State.handOver; split <;> rfl
@[simp] theorem State.handOver_superseded (b : Bool) (made : Access) (u : Icdu) (s : State) : (s.handOver b made u).superseded = s.superseded := by
  unfold State.handOver; split <;> rfl
@[simp] theorem State.handOver_mode (b : Bool) (made : Access) (u : Icdu) (s : State) : (s.handOver b made u).mode = s.mode := by
  unfold State.handOver; split <;> rfl
@[simp] theorem State.handOver_pending (b : Bool) (made : Access) (u : Icdu) (s : State) : (s.handOver b made u).pending = s.pending := by
  unfold State.handOver; split <;> rfl
@[simp] theorem State.handOver_parked (b : Bool) (made : Access) (u : Icdu) (s : State) : (s.handOver b made u).parked = s.parked := by
  unfold State.handOver; split <;> rfl
@[simp] theorem State.handOver_lastBus (b : Bool) (made : Access) (u : Icdu) (s : State) : (s.handOver b made u).lastBus = s.lastBus := by
  unfold State.handOver; split <;> rfl
@[simp] theorem State.handOver_core (b : Bool) (made : Access) (u : Icdu) (s : State) : (s.handOver b made u).core = s.core := by
  unfold State.handOver; split <;> rfl
@[simp] theorem State.handOver_mem (b : Bool) (made : Access) (u : Icdu) (s : State) : (s.handOver b made u).mem = s.mem := by
  unfold State.handOver; split <;> rfl
@[simp] theorem State.handOver_stored (b : Bool) (made : Access) (u : Icdu) (s : State) : (s.handOver b made u).stored = s.stored := by
  unfold State.handOver; split <;> rfl
@[simp] theorem State.handOver_inputs (b : Bool) (made : Access) (u : Icdu) (s : State) : (s.handOver b made u).inputs = s.inputs := by
  unfold State.handOver; split <;> rfl
@[simp] theorem State.handOver_draws (b : Bool) (made : Access) (u : Icdu) (s : State) : (s.handOver b made u).draws = s.draws := by
  unfold State.handOver; split <;> rfl
@[simp] theorem State.handOver_icdu (b : Bool) (made : Access) (u : Icdu) (s : State) :
    (s.handOver b made u).icdu = if b then (s.toExecute made).icdu else u := by
  unfold State.handOver; split <;> rfl
@[simp] theorem State.handOver_acc (b : Bool) (made : Access) (u : Icdu) (s : State) :
    (s.handOver b made u).acc = if b then (s.toExecute made).acc else s.acc := by
  unfold State.handOver; split <;> rfl
@[simp] theorem State.handOver_out (b : Bool) (made : Access) (u : Icdu) (s : State) :
    (s.handOver b made u).out = if b then { s.out with executes := true } else s.out := by
  unfold State.handOver; split <;> rfl

/-! ### `State.reportViolation` -/

@[simp] theorem State.reportViolation_impu (g : Bool) (acc : Access) (s : State) : (s.reportViolation g acc).impu = s.impu := rfl
@[simp] theorem State.reportViolation_bbcmcr (g : Bool) (acc : Access) (s : State) : (s.reportViolation g acc).bbcmcr = s.bbcmcr := rfl
@[simp] theorem State.reportViolation_superseded (g : Bool) (acc : Access) (s : State) : (s.reportViolation g acc).superseded = s.superseded := rfl
@[simp] theorem State.reportViolation_mode (g : Bool) (acc : Access) (s : State) : (s.reportViolation g acc).mode = s.mode := rfl
@[simp] theorem State.reportViolation_pending (g : Bool) (acc : Access) (s : State) : (s.reportViolation g acc).pending = s.pending := rfl
@[simp] theorem State.reportViolation_parked (g : Bool) (acc : Access) (s : State) : (s.reportViolation g acc).parked = s.parked := rfl
@[simp] theorem State.reportViolation_lastBus (g : Bool) (acc : Access) (s : State) : (s.reportViolation g acc).lastBus = s.lastBus := rfl
@[simp] theorem State.reportViolation_icdu (g : Bool) (acc : Access) (s : State) : (s.reportViolation g acc).icdu = s.icdu := rfl
@[simp] theorem State.reportViolation_core (g : Bool) (acc : Access) (s : State) : (s.reportViolation g acc).core = s.core := rfl
@[simp] theorem State.reportViolation_acc (g : Bool) (acc : Access) (s : State) : (s.reportViolation g acc).acc = s.acc := rfl
@[simp] theorem State.reportViolation_mem (g : Bool) (acc : Access) (s : State) : (s.reportViolation g acc).mem = s.mem := rfl
@[simp] theorem State.reportViolation_stored (g : Bool) (acc : Access) (s : State) : (s.reportViolation g acc).stored = s.stored := rfl
@[simp] theorem State.reportViolation_inputs (g : Bool) (acc : Access) (s : State) : (s.reportViolation g acc).inputs = s.inputs := rfl
@[simp] theorem State.reportViolation_draws (g : Bool) (acc : Access) (s : State) : (s.reportViolation g acc).draws = s.draws := rfl

/-! ### `State.takeViolation` -/

@[simp] theorem State.takeViolation_impu (p : Config.Params) (g : Bool) (m : DMode) (s : State) : (s.takeViolation p g m).impu = s.impu := rfl
@[simp] theorem State.takeViolation_bbcmcr (p : Config.Params) (g : Bool) (m : DMode) (s : State) : (s.takeViolation p g m).bbcmcr = s.bbcmcr := rfl
@[simp] theorem State.takeViolation_superseded (p : Config.Params) (g : Bool) (m : DMode) (s : State) : (s.takeViolation p g m).superseded = s.superseded := rfl
@[simp] theorem State.takeViolation_mode (p : Config.Params) (g : Bool) (m : DMode) (s : State) : (s.takeViolation p g m).mode = s.mode := rfl
@[simp] theorem State.takeViolation_pending (p : Config.Params) (g : Bool) (m : DMode) (s : State) : (s.takeViolation p g m).pending = s.pending := rfl
@[simp] theorem State.takeViolation_parked (p : Config.Params) (g : Bool) (m : DMode) (s : State) : (s.takeViolation p g m).parked = s.parked := rfl
@[simp] theorem State.takeViolation_lastBus (p : Config.Params) (g : Bool) (m : DMode) (s : State) : (s.takeViolation p g m).lastBus = s.lastBus := rfl
@[simp] theorem State.takeViolation_mem (p : Config.Params) (g : Bool) (m : DMode) (s : State) : (s.takeViolation p g m).mem = s.mem := rfl
@[simp] theorem State.takeViolation_stored (p : Config.Params) (g : Bool) (m : DMode) (s : State) : (s.takeViolation p g m).stored = s.stored := rfl
@[simp] theorem State.takeViolation_inputs (p : Config.Params) (g : Bool) (m : DMode) (s : State) : (s.takeViolation p g m).inputs = s.inputs := rfl
@[simp] theorem State.takeViolation_out (p : Config.Params) (g : Bool) (m : DMode) (s : State) : (s.takeViolation p g m).out = s.out := rfl
@[simp] theorem State.takeViolation_icdu (p : Config.Params) (g : Bool) (m : DMode) (s : State) :
    (s.takeViolation p g m).icdu = { s.icdu with prefetched := none } := rfl
@[simp] theorem State.takeViolation_draws (p : Config.Params) (g : Bool) (m : DMode) (s : State) :
    (s.takeViolation p g m).draws = s.draws + 2 := rfl

/-! ### `State.ownInstruction` -/

@[simp] theorem State.ownInstruction_impu (p : Config.Params) (s : State) : (s.ownInstruction p).impu = s.impu := rfl
@[simp] theorem State.ownInstruction_bbcmcr (p : Config.Params) (s : State) : (s.ownInstruction p).bbcmcr = s.bbcmcr := rfl
@[simp] theorem State.ownInstruction_superseded (p : Config.Params) (s : State) : (s.ownInstruction p).superseded = s.superseded := rfl
@[simp] theorem State.ownInstruction_mode (p : Config.Params) (s : State) : (s.ownInstruction p).mode = s.mode := rfl
@[simp] theorem State.ownInstruction_pending (p : Config.Params) (s : State) : (s.ownInstruction p).pending = s.pending := rfl
@[simp] theorem State.ownInstruction_parked (p : Config.Params) (s : State) : (s.ownInstruction p).parked = s.parked := rfl
@[simp] theorem State.ownInstruction_lastBus (p : Config.Params) (s : State) : (s.ownInstruction p).lastBus = s.lastBus := rfl
@[simp] theorem State.ownInstruction_icdu (p : Config.Params) (s : State) : (s.ownInstruction p).icdu = s.icdu := rfl
@[simp] theorem State.ownInstruction_mem (p : Config.Params) (s : State) : (s.ownInstruction p).mem = s.mem := rfl
@[simp] theorem State.ownInstruction_stored (p : Config.Params) (s : State) : (s.ownInstruction p).stored = s.stored := rfl
@[simp] theorem State.ownInstruction_inputs (p : Config.Params) (s : State) : (s.ownInstruction p).inputs = s.inputs := rfl
@[simp] theorem State.ownInstruction_out (p : Config.Params) (s : State) : (s.ownInstruction p).out = s.out := rfl
@[simp] theorem State.ownInstruction_draws (p : Config.Params) (s : State) :
    (s.ownInstruction p).draws = s.draws + ownDraws := rfl
@[simp] theorem State.ownInstruction_core (p : Config.Params) (s : State) : (s.ownInstruction p).core = s.ownCore p (s.ownNext p) := rfl
@[simp] theorem State.ownInstruction_acc (p : Config.Params) (s : State) : (s.ownInstruction p).acc = s.ownNext p := rfl

/-- An instruction of the core's own that ends in an exception of compressed code saves the next instruction address. -/
theorem State.ownCore_srr0 {p : Config.Params} {s : State} {next : Access} (he : next.entry = true) (hm : s.acc.dmode = .on) :
    (s.ownCore p next).srr0 = s.icdu.next := by
  simp [State.ownCore, he, hm]

/-! ### `State.interrupted` -/

@[simp] theorem State.interrupted_impu (p : Config.Params) (s : State) : (s.interrupted p).impu = s.impu := rfl
@[simp] theorem State.interrupted_bbcmcr (p : Config.Params) (s : State) : (s.interrupted p).bbcmcr = s.bbcmcr := rfl
@[simp] theorem State.interrupted_superseded (p : Config.Params) (s : State) : (s.interrupted p).superseded = s.superseded := rfl
@[simp] theorem State.interrupted_mode (p : Config.Params) (s : State) : (s.interrupted p).mode = s.mode := rfl
@[simp] theorem State.interrupted_pending (p : Config.Params) (s : State) : (s.interrupted p).pending = s.pending := rfl
@[simp] theorem State.interrupted_parked (p : Config.Params) (s : State) : (s.interrupted p).parked = s.parked := rfl
@[simp] theorem State.interrupted_lastBus (p : Config.Params) (s : State) : (s.interrupted p).lastBus = s.lastBus := rfl
@[simp] theorem State.interrupted_icdu (p : Config.Params) (s : State) : (s.interrupted p).icdu = s.icdu := rfl
@[simp] theorem State.interrupted_acc (p : Config.Params) (s : State) : (s.interrupted p).acc = s.acc := rfl
@[simp] theorem State.interrupted_mem (p : Config.Params) (s : State) : (s.interrupted p).mem = s.mem := rfl
@[simp] theorem State.interrupted_stored (p : Config.Params) (s : State) : (s.interrupted p).stored = s.stored := rfl
@[simp] theorem State.interrupted_inputs (p : Config.Params) (s : State) : (s.interrupted p).inputs = s.inputs := rfl
@[simp] theorem State.interrupted_out (p : Config.Params) (s : State) : (s.interrupted p).out = s.out := rfl
@[simp] theorem State.interrupted_core (p : Config.Params) (s : State) :
    (s.interrupted p).core = { s.core with srr0 := s.returnAddress p s.acc.dmode, srr1 := freeSrr1 p s.draws } := rfl
@[simp] theorem State.interrupted_draws (p : Config.Params) (s : State) :
    (s.interrupted p).draws = s.draws + 4 := rfl

/-! ### `State.flowTo` -/

@[simp] theorem State.flowTo_impu (acc : Access) (s : State) : (s.flowTo acc).impu = s.impu := rfl
@[simp] theorem State.flowTo_bbcmcr (acc : Access) (s : State) : (s.flowTo acc).bbcmcr = s.bbcmcr := rfl
@[simp] theorem State.flowTo_superseded (acc : Access) (s : State) : (s.flowTo acc).superseded = s.superseded := rfl
@[simp] theorem State.flowTo_mode (acc : Access) (s : State) : (s.flowTo acc).mode = s.mode := rfl
@[simp] theorem State.flowTo_pending (acc : Access) (s : State) : (s.flowTo acc).pending = s.pending := rfl
@[simp] theorem State.flowTo_parked (acc : Access) (s : State) : (s.flowTo acc).parked = s.parked := rfl
@[simp] theorem State.flowTo_lastBus (acc : Access) (s : State) : (s.flowTo acc).lastBus = s.lastBus := rfl
@[simp] theorem State.flowTo_core (acc : Access) (s : State) : (s.flowTo acc).core = s.core := rfl
@[simp] theorem State.flowTo_mem (acc : Access) (s : State) : (s.flowTo acc).mem = s.mem := rfl
@[simp] theorem State.flowTo_stored (acc : Access) (s : State) : (s.flowTo acc).stored = s.stored := rfl
@[simp] theorem State.flowTo_inputs (acc : Access) (s : State) : (s.flowTo acc).inputs = s.inputs := rfl
@[simp] theorem State.flowTo_out (acc : Access) (s : State) : (s.flowTo acc).out = s.out := rfl
@[simp] theorem State.flowTo_draws (acc : Access) (s : State) : (s.flowTo acc).draws = s.draws := rfl
@[simp] theorem State.flowTo_acc (acc : Access) (s : State) :
    (s.flowTo acc).acc = acc := rfl
@[simp] theorem State.flowTo_icdu (acc : Access) (s : State) :
    (s.flowTo acc).icdu = (if s.icdu.hasPrefetched acc then s.icdu else { s.icdu with prefetched := none }) := rfl

/-! ### `State.foreignInstruction` -/

@[simp] theorem State.foreignInstruction_impu (p : Config.Params) (s : State) : (s.foreignInstruction p).impu = s.impu := rfl
@[simp] theorem State.foreignInstruction_bbcmcr (p : Config.Params) (s : State) : (s.foreignInstruction p).bbcmcr = s.bbcmcr := rfl
@[simp] theorem State.foreignInstruction_superseded (p : Config.Params) (s : State) : (s.foreignInstruction p).superseded = s.superseded := rfl
@[simp] theorem State.foreignInstruction_mode (p : Config.Params) (s : State) : (s.foreignInstruction p).mode = s.mode := rfl
@[simp] theorem State.foreignInstruction_pending (p : Config.Params) (s : State) : (s.foreignInstruction p).pending = s.pending := rfl
@[simp] theorem State.foreignInstruction_parked (p : Config.Params) (s : State) : (s.foreignInstruction p).parked = s.parked := rfl
@[simp] theorem State.foreignInstruction_lastBus (p : Config.Params) (s : State) : (s.foreignInstruction p).lastBus = s.lastBus := rfl
@[simp] theorem State.foreignInstruction_icdu (p : Config.Params) (s : State) : (s.foreignInstruction p).icdu = s.icdu := rfl
@[simp] theorem State.foreignInstruction_mem (p : Config.Params) (s : State) : (s.foreignInstruction p).mem = s.mem := rfl
@[simp] theorem State.foreignInstruction_inputs (p : Config.Params) (s : State) : (s.foreignInstruction p).inputs = s.inputs := rfl
@[simp] theorem State.foreignInstruction_out (p : Config.Params) (s : State) : (s.foreignInstruction p).out = s.out := rfl
@[simp] theorem State.foreignInstruction_draws (p : Config.Params) (s : State) :
    (s.foreignInstruction p).draws = s.draws + ownDraws := rfl
@[simp] theorem State.foreignInstruction_stored (p : Config.Params) (s : State) :
    (s.foreignInstruction p).stored = s.stored ++ p.storedTo s.draws := rfl

/-! ### `State.link` -/

@[simp] theorem State.link_impu (lk : Bool) (s : State) : (s.link lk).impu = s.impu :=
    by unfold State.link; split <;> rfl
@[simp] theorem State.link_bbcmcr (lk : Bool) (s : State) : (s.link lk).bbcmcr = s.bbcmcr :=
    by unfold State.link; split <;> rfl
@[simp] theorem State.link_superseded (lk : Bool) (s : State) : (s.link lk).superseded = s.superseded :=
    by unfold State.link; split <;> rfl
@[simp] theorem State.link_mode (lk : Bool) (s : State) : (s.link lk).mode = s.mode :=
    by unfold State.link; split <;> rfl
@[simp] theorem State.link_pending (lk : Bool) (s : State) : (s.link lk).pending = s.pending :=
    by unfold State.link; split <;> rfl
@[simp] theorem State.link_parked (lk : Bool) (s : State) : (s.link lk).parked = s.parked :=
    by unfold State.link; split <;> rfl
@[simp] theorem State.link_lastBus (lk : Bool) (s : State) : (s.link lk).lastBus = s.lastBus :=
    by unfold State.link; split <;> rfl
@[simp] theorem State.link_icdu (lk : Bool) (s : State) : (s.link lk).icdu = s.icdu :=
    by unfold State.link; split <;> rfl
@[simp] theorem State.link_acc (lk : Bool) (s : State) : (s.link lk).acc = s.acc :=
    by unfold State.link; split <;> rfl
@[simp] theorem State.link_mem (lk : Bool) (s : State) : (s.link lk).mem = s.mem :=
    by unfold State.link; split <;> rfl
@[simp] theorem State.link_stored (lk : Bool) (s : State) : (s.link lk).stored = s.stored :=
    by unfold State.link; split <;> rfl
@[simp] theorem State.link_inputs (lk : Bool) (s : State) : (s.link lk).inputs = s.inputs :=
    by unfold State.link; split <;> rfl
@[simp] theorem State.link_out (lk : Bool) (s : State) : (s.link lk).out = s.out :=
    by unfold State.link; split <;> rfl
@[simp] theorem State.link_draws (lk : Bool) (s : State) : (s.link lk).draws = s.draws :=
    by unfold State.link; split <;> rfl

/-! ### `State.conditional` -/

@[simp] theorem State.conditional_impu (p : Config.Params) (a : Word) (f : AddrForm) (lk : Bool) (s : State) : (s.conditional p a f lk).impu = s.impu :=
    by simp only [State.conditional]; split <;> simp
@[simp] theorem State.conditional_bbcmcr (p : Config.Params) (a : Word) (f : AddrForm) (lk : Bool) (s : State) : (s.conditional p a f lk).bbcmcr = s.bbcmcr :=
    by simp only [State.conditional]; split <;> simp
@[simp] theorem State.conditional_superseded (p : Config.Params) (a : Word) (f : AddrForm) (lk : Bool) (s : State) : (s.conditional p a f lk).superseded = s.superseded :=
    by simp only [State.conditional]; split <;> simp
@[simp] theorem State.conditional_mode (p : Config.Params) (a : Word) (f : AddrForm) (lk : Bool) (s : State) : (s.conditional p a f lk).mode = s.mode :=
    by simp only [State.conditional]; split <;> simp
@[simp] theorem State.conditional_pending (p : Config.Params) (a : Word) (f : AddrForm) (lk : Bool) (s : State) : (s.conditional p a f lk).pending = s.pending :=
    by simp only [State.conditional]; split <;> simp
@[simp] theorem State.conditional_parked (p : Config.Params) (a : Word) (f : AddrForm) (lk : Bool) (s : State) : (s.conditional p a f lk).parked = s.parked :=
    by simp only [State.conditional]; split <;> simp
@[simp] theorem State.conditional_lastBus (p : Config.Params) (a : Word) (f : AddrForm) (lk : Bool) (s : State) : (s.conditional p a f lk).lastBus = s.lastBus :=
    by simp only [State.conditional]; split <;> simp
@[simp] theorem State.conditional_mem (p : Config.Params) (a : Word) (f : AddrForm) (lk : Bool) (s : State) : (s.conditional p a f lk).mem = s.mem :=
    by simp only [State.conditional]; split <;> simp
@[simp] theorem State.conditional_stored (p : Config.Params) (a : Word) (f : AddrForm) (lk : Bool) (s : State) : (s.conditional p a f lk).stored = s.stored :=
    by simp only [State.conditional]; split <;> simp
@[simp] theorem State.conditional_inputs (p : Config.Params) (a : Word) (f : AddrForm) (lk : Bool) (s : State) : (s.conditional p a f lk).inputs = s.inputs :=
    by simp only [State.conditional]; split <;> simp
@[simp] theorem State.conditional_out (p : Config.Params) (a : Word) (f : AddrForm) (lk : Bool) (s : State) : (s.conditional p a f lk).out = s.out :=
    by simp only [State.conditional]; split <;> simp
@[simp] theorem State.conditional_icdu (p : Config.Params) (a : Word) (f : AddrForm) (lk : Bool) (s : State) :
    (s.conditional p a f lk).icdu = if p.freeBit s.draws then { s.icdu with prefetched := none } else s.icdu := by
  simp only [State.conditional]; split <;> simp
@[simp] theorem State.conditional_draws (p : Config.Params) (a : Word) (f : AddrForm) (lk : Bool) (s : State) :
    (s.conditional p a f lk).draws = s.draws + 1 := rfl

/-! ### `State.forward` -/

@[simp] theorem State.forward_impu (p : Config.Params) (g : Bbcmcr) (acc : Access) (m : DMode) (c : Bool) (ws : List Word) (s : State) : (s.forward p g acc m c ws).impu = s.impu :=
    by unfold State.forward; split <;> rfl
@[simp] theorem State.forward_bbcmcr (p : Config.Params) (g : Bbcmcr) (acc : Access) (m : DMode) (c : Bool) (ws : List Word) (s : State) : (s.forward p g acc m c ws).bbcmcr = s.bbcmcr :=
    by unfold State.forward; split <;> rfl
@[simp] theorem State.forward_superseded (p : Config.Params) (g : Bbcmcr) (acc : Access) (m : DMode) (c : Bool) (ws : List Word) (s : State) : (s.forward p g acc m c ws).superseded = s.superseded :=
    by unfold State.forward; split <;> rfl
@[simp] theorem State.forward_mode (p : Config.Params) (g : Bbcmcr) (acc : Access) (m : DMode) (c : Bool) (ws : List Word) (s : State) : (s.forward p g acc m c ws).mode = s.mode :=
    by unfold State.forward; split <;> rfl
@[simp] theorem State.forward_pending (p : Config.Params) (g : Bbcmcr) (acc : Access) (m : DMode) (c : Bool) (ws : List Word) (s : State) : (s.forward p g acc m c ws).pending = s.pending :=
    by unfold State.forward; split <;> rfl
@[simp] theorem State.forward_icdu (p : Config.Params) (g : Bbcmcr) (acc : Access) (m : DMode) (c : Bool) (ws : List Word) (s : State) : (s.forward p g acc m c ws).icdu = s.icdu :=
    by unfold State.forward; split <;> rfl
@[simp] theorem State.forward_core (p : Config.Params) (g : Bbcmcr) (acc : Access) (m : DMode) (c : Bool) (ws : List Word) (s : State) : (s.forward p g acc m c ws).core = s.core :=
    by unfold State.forward; split <;> rfl
@[simp] theorem State.forward_acc (p : Config.Params) (g : Bbcmcr) (acc : Access) (m : DMode) (c : Bool) (ws : List Word) (s : State) : (s.forward p g acc m c ws).acc = s.acc :=
    by unfold State.forward; split <;> rfl
@[simp] theorem State.forward_mem (p : Config.Params) (g : Bbcmcr) (acc : Access) (m : DMode) (c : Bool) (ws : List Word) (s : State) : (s.forward p g acc m c ws).mem = s.mem :=
    by unfold State.forward; split <;> rfl
@[simp] theorem State.forward_stored (p : Config.Params) (g : Bbcmcr) (acc : Access) (m : DMode) (c : Bool) (ws : List Word) (s : State) : (s.forward p g acc m c ws).stored = s.stored :=
    by unfold State.forward; split <;> rfl
@[simp] theorem State.forward_inputs (p : Config.Params) (g : Bbcmcr) (acc : Access) (m : DMode) (c : Bool) (ws : List Word) (s : State) : (s.forward p g acc m c ws).inputs = s.inputs :=
    by unfold State.forward; split <;> rfl
@[simp] theorem State.forward_draws (p : Config.Params) (g : Bbcmcr) (acc : Access) (m : DMode) (c : Bool) (ws : List Word) (s : State) : (s.forward p g acc m c ws).draws = s.draws :=
    by unfold State.forward; split <;> rfl
@[simp] theorem State.forward_out_word (p : Config.Params) (g : Bbcmcr) (acc : Access) (m : DMode) (c : Bool) (ws : List Word) (s : State) :
    (s.forward p g acc m c ws).out.word = s.out.word := by unfold State.forward; split <;> rfl
@[simp] theorem State.forward_out_next (p : Config.Params) (g : Bbcmcr) (acc : Access) (m : DMode) (c : Bool) (ws : List Word) (s : State) :
    (s.forward p g acc m c ws).out.next = s.out.next := by unfold State.forward; split <;> rfl
@[simp] theorem State.forward_out_report (p : Config.Params) (g : Bbcmcr) (acc : Access) (m : DMode) (c : Bool) (ws : List Word) (s : State) :
    (s.forward p g acc m c ws).out.report = s.out.report := by unfold State.forward; split <;> rfl
@[simp] theorem State.forward_out_executes (p : Config.Params) (g : Bbcmcr) (acc : Access) (m : DMode) (c : Bool) (ws : List Word) (s : State) :
    (s.forward p g acc m c ws).out.executes = s.out.executes := by unfold State.forward; split <;> rfl

/-! ### `State.refuseAccess` -/

@[simp] theorem State.refuseAccess_impu (p : Config.Params) (t g : Bool) (gov : Bbcmcr) (acc : Access) (m : DMode) (s : State) : (s.refuseAccess p t g gov acc m).impu = s.impu :=
    by simp only [State.refuseAccess]; split <;> split <;> simp
@[simp] theorem State.refuseAccess_bbcmcr (p : Config.Params) (t g : Bool) (gov : Bbcmcr) (acc : Access) (m : DMode) (s : State) : (s.refuseAccess p t g gov acc m).bbcmcr = s.bbcmcr :=
    by simp only [State.refuseAccess]; split <;> split <;> simp
@[simp] theorem State.refuseAccess_superseded (p : Config.Params) (t g : Bool) (gov : Bbcmcr) (acc : Access) (m : DMode) (s : State) : (s.refuseAccess p t g gov acc m).superseded = s.superseded :=
    by simp only [State.refuseAccess]; split <;> split <;> simp
@[simp] theorem State.refuseAccess_mode (p : Config.Params) (t g : Bool) (gov : Bbcmcr) (acc : Access) (m : DMode) (s : State) : (s.refuseAccess p t g gov acc m).mode = s.mode :=
    by simp only [State.refuseAccess]; split <;> split <;> simp
@[simp] theorem State.refuseAccess_pending (p : Config.Params) (t g : Bool) (gov : Bbcmcr) (acc : Access) (m : DMode) (s : State) : (s.refuseAccess p t g gov acc m).pending = s.pending :=
    by simp only [State.refuseAccess]; split <;> split <;> simp
@[simp] theorem State.refuseAccess_icdu (p : Config.Params) (t g : Bool) (gov : Bbcmcr) (acc : Access) (m : DMode) (s : State) :
    (s.refuseAccess p t g gov acc m).icdu = if t then { s.icdu with prefetched := none } else s.icdu := by
  simp only [State.refuseAccess]; split <;> split <;> simp
@[simp] theorem State.refuseAccess_mem (p : Config.Params) (t g : Bool) (gov : Bbcmcr) (acc : Access) (m : DMode) (s : State) : (s.refuseAccess p t g gov acc m).mem = s.mem :=
    by simp only [State.refuseAccess]; split <;> split <;> simp
@[simp] theorem State.refuseAccess_stored (p : Config.Params) (t g : Bool) (gov : Bbcmcr) (acc : Access) (m : DMode) (s : State) : (s.refuseAccess p t g gov acc m).stored = s.stored :=
    by simp only [State.refuseAccess]; split <;> split <;> simp
@[simp] theorem State.refuseAccess_inputs (p : Config.Params) (t g : Bool) (gov : Bbcmcr) (acc : Access) (m : DMode) (s : State) : (s.refuseAccess p t g gov acc m).inputs = s.inputs :=
    by simp only [State.refuseAccess]; split <;> split <;> simp

/-! ### `State.answerDebug` -/

@[simp] theorem State.answerDebug_impu (p : Config.Params) (m : DMode) (s : State) : (s.answerDebug p m).impu = s.impu :=
    by cases m <;> rfl
@[simp] theorem State.answerDebug_bbcmcr (p : Config.Params) (m : DMode) (s : State) : (s.answerDebug p m).bbcmcr = s.bbcmcr :=
    by cases m <;> rfl
@[simp] theorem State.answerDebug_superseded (p : Config.Params) (m : DMode) (s : State) : (s.answerDebug p m).superseded = s.superseded :=
    by cases m <;> rfl
@[simp] theorem State.answerDebug_mode (p : Config.Params) (m : DMode) (s : State) : (s.answerDebug p m).mode = s.mode :=
    by cases m <;> rfl
@[simp] theorem State.answerDebug_pending (p : Config.Params) (m : DMode) (s : State) : (s.answerDebug p m).pending = s.pending :=
    by cases m <;> rfl
@[simp] theorem State.answerDebug_parked (p : Config.Params) (m : DMode) (s : State) : (s.answerDebug p m).parked = s.parked :=
    by cases m <;> rfl
@[simp] theorem State.answerDebug_lastBus (p : Config.Params) (m : DMode) (s : State) : (s.answerDebug p m).lastBus = s.lastBus :=
    by cases m <;> rfl
@[simp] theorem State.answerDebug_core (p : Config.Params) (m : DMode) (s : State) : (s.answerDebug p m).core = s.core :=
    by cases m <;> rfl
@[simp] theorem State.answerDebug_acc (p : Config.Params) (m : DMode) (s : State) : (s.answerDebug p m).acc = s.acc :=
    by cases m <;> rfl
@[simp] theorem State.answerDebug_mem (p : Config.Params) (m : DMode) (s : State) : (s.answerDebug p m).mem = s.mem :=
    by cases m <;> rfl
@[simp] theorem State.answerDebug_stored (p : Config.Params) (m : DMode) (s : State) : (s.answerDebug p m).stored = s.stored :=
    by cases m <;> rfl
@[simp] theorem State.answerDebug_inputs (p : Config.Params) (m : DMode) (s : State) : (s.answerDebug p m).inputs = s.inputs :=
    by cases m <;> rfl

/-! ### `State.writeSpr` -/

@[simp] theorem State.writeSpr_mode (p : Config.Params) (r : Spr) (v : Word) (s : State) : (s.writeSpr p r v).mode = s.mode :=
    by cases r <;> rfl
@[simp] theorem State.writeSpr_parked (p : Config.Params) (r : Spr) (v : Word) (s : State) : (s.writeSpr p r v).parked = s.parked :=
    by cases r <;> rfl
@[simp] theorem State.writeSpr_lastBus (p : Config.Params) (r : Spr) (v : Word) (s : State) : (s.writeSpr p r v).lastBus = s.lastBus :=
    by cases r <;> rfl
@[simp] theorem State.writeSpr_icdu (p : Config.Params) (r : Spr) (v : Word) (s : State) : (s.writeSpr p r v).icdu = s.icdu :=
    by cases r <;> rfl
@[simp] theorem State.writeSpr_core (p : Config.Params) (r : Spr) (v : Word) (s : State) : (s.writeSpr p r v).core = s.core :=
    by cases r <;> rfl
@[simp] theorem State.writeSpr_acc (p : Config.Params) (r : Spr) (v : Word) (s : State) : (s.writeSpr p r v).acc = s.acc :=
    by cases r <;> rfl
@[simp] theorem State.writeSpr_mem (p : Config.Params) (r : Spr) (v : Word) (s : State) : (s.writeSpr p r v).mem = s.mem :=
    by cases r <;> rfl
@[simp] theorem State.writeSpr_stored (p : Config.Params) (r : Spr) (v : Word) (s : State) : (s.writeSpr p r v).stored = s.stored :=
    by cases r <;> rfl
@[simp] theorem State.writeSpr_inputs (p : Config.Params) (r : Spr) (v : Word) (s : State) : (s.writeSpr p r v).inputs = s.inputs :=
    by cases r <;> rfl
@[simp] theorem State.writeSpr_out (p : Config.Params) (r : Spr) (v : Word) (s : State) : (s.writeSpr p r v).out = s.out :=
    by cases r <;> rfl

/-! ### `State.hardReset` and `State.powerOn` -/

@[simp] theorem State.hardReset_mode (p : Config.Params) (w : ResetWord) (s : State) : (s.hardReset p w).mode = .idle := rfl
@[simp] theorem State.hardReset_pending (p : Config.Params) (w : ResetWord) (s : State) : (s.hardReset p w).pending = [] := rfl
@[simp] theorem State.hardReset_icdu (p : Config.Params) (w : ResetWord) (s : State) : (s.hardReset p w).icdu = resetIcdu := rfl
@[simp] theorem State.hardReset_superseded (p : Config.Params) (w : ResetWord) (s : State) : (s.hardReset p w).superseded = [] := rfl
@[simp] theorem State.powerOn_mode (p : Config.Params) (w : ResetWord) (s : State) : (s.powerOn p w).mode = .idle := rfl
@[simp] theorem State.powerOn_pending (p : Config.Params) (w : ResetWord) (s : State) : (s.powerOn p w).pending = [] := rfl
@[simp] theorem State.powerOn_icdu (p : Config.Params) (w : ResetWord) (s : State) : (s.powerOn p w).icdu = resetIcdu := rfl
@[simp] theorem State.powerOn_superseded (p : Config.Params) (w : ResetWord) (s : State) : (s.powerOn p w).superseded = [] := rfl
@[simp] theorem State.hardReset_mem (p : Config.Params) (w : ResetWord) (s : State) : (s.hardReset p w).mem = s.mem := rfl
@[simp] theorem State.hardReset_stored (p : Config.Params) (w : ResetWord) (s : State) : (s.hardReset p w).stored = s.stored := rfl
@[simp] theorem State.hardReset_inputs (p : Config.Params) (w : ResetWord) (s : State) : (s.hardReset p w).inputs = s.inputs := rfl
@[simp] theorem State.hardReset_out (p : Config.Params) (w : ResetWord) (s : State) : (s.hardReset p w).out = s.out := rfl
@[simp] theorem State.powerOn_mem (p : Config.Params) (w : ResetWord) (s : State) : (s.powerOn p w).mem = s.mem := rfl
@[simp] theorem State.powerOn_stored (p : Config.Params) (w : ResetWord) (s : State) : (s.powerOn p w).stored = s.stored := rfl
@[simp] theorem State.powerOn_inputs (p : Config.Params) (w : ResetWord) (s : State) : (s.powerOn p w).inputs = s.inputs := rfl
@[simp] theorem State.powerOn_out (p : Config.Params) (w : ResetWord) (s : State) : (s.powerOn p w).out = s.out := rfl

/-! ### `State.placedFor` -/

@[simp] theorem State.placedFor_impu (w : Word) (s : State) : (s.placedFor w).impu = s.impu := rfl
@[simp] theorem State.placedFor_bbcmcr (w : Word) (s : State) : (s.placedFor w).bbcmcr = s.bbcmcr := rfl
@[simp] theorem State.placedFor_superseded (w : Word) (s : State) : (s.placedFor w).superseded = s.superseded := rfl
@[simp] theorem State.placedFor_parked (w : Word) (s : State) : (s.placedFor w).parked = s.parked := rfl
@[simp] theorem State.placedFor_lastBus (w : Word) (s : State) : (s.placedFor w).lastBus = s.lastBus := rfl
@[simp] theorem State.placedFor_icdu (w : Word) (s : State) : (s.placedFor w).icdu = s.icdu := rfl
@[simp] theorem State.placedFor_core (w : Word) (s : State) : (s.placedFor w).core = s.core := rfl
@[simp] theorem State.placedFor_out (w : Word) (s : State) : (s.placedFor w).out = s.out := rfl
@[simp] theorem State.placedFor_draws (w : Word) (s : State) : (s.placedFor w).draws = s.draws := rfl

end Sys2Proof.Machine
end

