-- ==== Sys2Proof/Laws/Ops.lean ====
section
/-!
SUPPORT. One lemma per shared operation that says once what it can do, for proofs to cite instead of unfolding it.
-/

namespace Sys2Proof.Machine

/-! ## General registers -/

/-- A general register just written reads as written. -/
@[simp] theorem State.getX_setX_same (s : State) (r : Reg) (v : Word) : (s.setX r v).getX r = v := by
  simp [State.getX, State.setX, Vector.get_eq_getElem]

/-- Writing a general register leaves the others alone. -/
theorem State.getX_setX_other (s : State) {r x : Reg} (v : Word) (h : x ≠ r) : (s.setX r v).getX x = s.getX x := by
  simp only [State.getX, State.setX, Vector.get_eq_getElem]
  exact Vector.getElem_set_ne _ _ fun e => h (BitVec.eq_of_toNat_eq e.symm)

/-- The general registers depend on the core's side only. -/
theorem State.getX_congr {s t : State} (h : t.core.x = s.core.x) (x : Reg) : t.getX x = s.getX x := by
  simp [State.getX, h]

/-! ## Writing and reading a register of the module -/

/-- `mtspr` to a register of the module, where it runs. -/
theorem mtsprTo_runs {p : Config.Params} {r : Spr} {rS : Reg} {s : State} (h : SprAccessRuns s) :
    mtsprTo p r rS s = .next ((s.writeSpr p r (s.getX rS)).advance) := by
  simp [mtsprTo, h.1, h.2]

/-- `mtspr` to a register of the module gives a next state only where it runs. -/
theorem mtsprTo_next {p : Config.Params} {r : Spr} {rS : Reg} {s t : State} (h : mtsprTo p r rS s = .next t) :
    SprAccessRuns s ∧ t = (s.writeSpr p r (s.getX rS)).advance := by
  unfold mtsprTo at h
  split at h
  · cases h
  · next hm =>
    split at h
    · cases h
    · next hp =>
      cases h
      exact ⟨⟨hm, by cases hq : s.acc.priv <;> simp_all⟩, rfl⟩

/-- `mfspr` from a register of the module, where it runs. -/
theorem mfsprFrom_runs {p : Config.Params} {r : Spr} {rD : Reg} {s : State} (h : SprAccessRuns s) :
    mfsprFrom p r rD s = .next ({ s.setX rD (s.readSpr p r) with draws := s.draws + 1 }.advance) := by
  simp [mfsprFrom, h.1, h.2]

/-- `mfspr` from a register of the module gives a next state only where it runs. -/
theorem mfsprFrom_next {p : Config.Params} {r : Spr} {rD : Reg} {s t : State} (h : mfsprFrom p r rD s = .next t) :
    SprAccessRuns s ∧ t = { s.setX rD (s.readSpr p r) with draws := s.draws + 1 }.advance := by
  unfold mfsprFrom at h
  split at h
  · cases h
  · next hm =>
    split at h
    · cases h
    · next hp =>
      cases h
      exact ⟨⟨hm, by cases hq : s.acc.priv <;> simp_all⟩, rfl⟩

/-- Every SPR number of the ten names its register. -/
theorem sprOfNumber_sprNumber (r : Spr) : sprOfNumber (sprNumber r) = some r := by
  cases r with
  | rba i => revert i; decide
  | ra i => revert i; decide
  | gra => decide
  | bbcmcr => decide

/-- A number that names a register is that register's. -/
theorem sprNumber_of_sprOfNumber {n : BitVec 10} {r : Spr} (h : sprOfNumber n = some r) : n = sprNumber r := by
  unfold sprOfNumber at h
  repeat' split at h
  all_goals first
    | (cases h; subst_vars; decide)
    | cases h

/-- An instruction that writes a register of the module means `mtsprTo`, in either of its rows. -/
theorem exec_writes {i : Instr} {r : Spr} {rS : Reg} (h : WritesSpr i r rS) (s : State) :
    exec i s = mtsprTo Config.chip r rS s := by
  rcases h with rfl | rfl
  · cases r with
    | rba k => fin_cases k <;> rfl
    | ra k => fin_cases k <;> rfl
    | gra => rfl
    | bbcmcr => rfl
  · simp [exec, execMtspr, sprOfNumber_sprNumber]

/-- An instruction that reads a register of the module means `mfsprFrom`, in either of its rows. -/
theorem exec_reads {i : Instr} {r : Spr} {rD : Reg} (h : ReadsSpr i r rD) (s : State) :
    exec i s = mfsprFrom Config.chip r rD s := by
  rcases h with rfl | rfl
  · cases r with
    | rba k => fin_cases k <;> rfl
    | ra k => fin_cases k <;> rfl
    | gra => rfl
    | bbcmcr => rfl
  · simp [exec, execMfspr, sprOfNumber_sprNumber]

/-! ## The core's flow -/

/-- With LK the link register holds the next instruction address. -/
@[simp] theorem State.link_lr (lk : Bool) (s : State) : (s.link lk).core.lr = if lk then s.nextAddr else s.core.lr := by
  unfold State.link; split <;> rfl

@[simp] theorem State.link_x (lk : Bool) (s : State) : (s.link lk).core.x = s.core.x := by
  unfold State.link; split <;> rfl

@[simp] theorem State.link_ctr (lk : Bool) (s : State) : (s.link lk).core.ctr = s.core.ctr := by
  unfold State.link; split <;> rfl

@[simp] theorem State.link_srr0 (lk : Bool) (s : State) : (s.link lk).core.srr0 = s.core.srr0 := by
  unfold State.link; split <;> rfl

@[simp] theorem State.link_srr1 (lk : Bool) (s : State) : (s.link lk).core.srr1 = s.core.srr1 := by
  unfold State.link; split <;> rfl

@[simp] theorem State.link_msrIp (lk : Bool) (s : State) : (s.link lk).core.msrIp = s.core.msrIp := by
  unfold State.link; split <;> rfl

/-! ## What an instruction can do -/

/-- Every way an instruction can complete. -/
inductive Completes (i : Instr) (s t : State) : Prop where
  | wrote (r : Spr) (rS : Reg) (hi : WritesSpr i r rS) (hs : SprAccessRuns s)
      (ht : t = (s.writeSpr Config.chip r (s.getX rS)).advance)
  | read (r : Spr) (rD : Reg) (hi : ReadsSpr i r rD) (hs : SprAccessRuns s)
      (ht : t = { s.setX rD (s.readSpr Config.chip r) with draws := s.draws + 1 }.advance)
  | own (ht : t = s.ownInstruction Config.chip)
  | settled (hi : i = .isync) (ht : t = s.settle.advance)
  | went (a : Word) (f : AddrForm) (lk : Bool) (hi : isBranchRow i = true) (ht : t = (s.link lk).branchTo a f)
  | chose (a : Word) (f : AddrForm) (lk : Bool) (hi : isBranchRow i = true) (ht : t = s.conditional Config.chip a f lk)

/-- An own row of a register that is written completes by writing it. -/
theorem Completes.of_mtsprTo {i : Instr} {r : Spr} {rS : Reg} {s t : State} (hi : WritesSpr i r rS)
    (h : mtsprTo Config.chip r rS s = .next t) : Completes i s t :=
  .wrote r rS hi (mtsprTo_next h).1 (mtsprTo_next h).2

/-- An own row of a register that is read completes by reading it. -/
theorem Completes.of_mfsprFrom {i : Instr} {r : Spr} {rD : Reg} {s t : State} (hi : ReadsSpr i r rD)
    (h : mfsprFrom Config.chip r rD s = .next t) : Completes i s t :=
  .read r rD hi (mfsprFrom_next h).1 (mfsprFrom_next h).2

/-- An instruction that gives a next state completes in one of these ways. -/
theorem exec_completes {i : Instr} {s t : State} (h : exec i s = .next t) : Completes i s t := by
  cases i with
  | mtspr rS n =>
    simp only [exec, execMtspr] at h
    split at h
    · next r hr => exact .of_mtsprTo (.inr (by rw [sprNumber_of_sprOfNumber hr])) h
    · cases h; exact .own rfl
  | mfspr rD n =>
    simp only [exec, execMfspr] at h
    split at h
    · next r hr => exact .of_mfsprFrom (.inr (by rw [sprNumber_of_sprOfNumber hr])) h
    · cases h; exact .own rfl
  | isync => cases h; exact .settled rfl rfl
  | mtsprMiRba0 rS => exact .of_mtsprTo (r := .rba 0) (.inl rfl) h
  | mfsprMiRba0 rD => exact .of_mfsprFrom (r := .rba 0) (.inl rfl) h
  | mtsprMiRba1 rS => exact .of_mtsprTo (r := .rba 1) (.inl rfl) h
  | mfsprMiRba1 rD => exact .of_mfsprFrom (r := .rba 1) (.inl rfl) h
  | mtsprMiRba2 rS => exact .of_mtsprTo (r := .rba 2) (.inl rfl) h
  | mfsprMiRba2 rD => exact .of_mfsprFrom (r := .rba 2) (.inl rfl) h
  | mtsprMiRba3 rS => exact .of_mtsprTo (r := .rba 3) (.inl rfl) h
  | mfsprMiRba3 rD => exact .of_mfsprFrom (r := .rba 3) (.inl rfl) h
  | mtsprMiRa0 rS => exact .of_mtsprTo (r := .ra 0) (.inl rfl) h
  | mfsprMiRa0 rD => exact .of_mfsprFrom (r := .ra 0) (.inl rfl) h
  | mtsprMiRa1 rS => exact .of_mtsprTo (r := .ra 1) (.inl rfl) h
  | mfsprMiRa1 rD => exact .of_mfsprFrom (r := .ra 1) (.inl rfl) h
  | mtsprMiRa2 rS => exact .of_mtsprTo (r := .ra 2) (.inl rfl) h
  | mfsprMiRa2 rD => exact .of_mfsprFrom (r := .ra 2) (.inl rfl) h
  | mtsprMiRa3 rS => exact .of_mtsprTo (r := .ra 3) (.inl rfl) h
  | mfsprMiRa3 rD => exact .of_mfsprFrom (r := .ra 3) (.inl rfl) h
  | mtsprMiGra rS => exact .of_mtsprTo (r := .gra) (.inl rfl) h
  | mfsprMiGra rD => exact .of_mfsprFrom (r := .gra) (.inl rfl) h
  | mtsprBbcmcr rS => exact .of_mtsprTo (r := .bbcmcr) (.inl rfl) h
  | mfsprBbcmcr rD => exact .of_mfsprFrom (r := .bbcmcr) (.inl rfl) h
  | b wp aa lk => cases h; exact .went _ _ lk rfl rfl
  | bMapped wp ptr aa lk => cases h; exact .went _ _ lk rfl rfl
  | bc bo bi bd aa lk => cases h; exact .chose _ _ lk rfl rfl
  | bcMapped cond wp ptr aa lk => cases h; exact .chose _ _ lk rfl rfl

/-! ## BBCMCR and the isync window -/

/-- With nothing unsettled a field of BBCMCR governs with its current value. -/
theorem State.drawField_settled {p : Config.Params} {s : State} (h : s.superseded = []) (field : Bbcmcr → Bool) (k : Nat) :
    s.drawField p field k = field s.bbcmcr := by
  simp [State.drawField, h]

/-- With nothing unsettled BBCMCR governs with its current value. -/
theorem State.governing_settled {p : Config.Params} {s : State} (h : s.superseded = []) : s.governing p = s.bbcmcr := by
  simp [State.governing, State.drawField_settled h]

/-- EN_COMP governs with its current value always. -/
@[simp] theorem State.governing_enComp (p : Config.Params) (s : State) : (s.governing p).enComp = s.bbcmcr.enComp := rfl

/-! ## Issuing and answering an access -/

/-- What issuing an access can do. -/
inductive Issues (p : Config.Params) (taken : Bool) (acc : Access) (s t : State) : Prop where
  | refused (m : DMode) (guarded : Bool) (hm : m = accessMode p (s.governing p) acc)
      (hc : s.impu.check p (accessMade p m acc) m (p.freeBit (s.draws + 5)) = .violation guarded)
      (ht : t = if taken then s.issuing.refuseAccess p taken guarded (s.governing p) (accessMade p m acc) m
        else (s.issuing.refuseAccess p taken guarded (s.governing p) (accessMade p m acc) m).enqueue (s.governing p)
          (accessMade p m acc) m [] (some guarded))
  | forwarded (m : DMode) (a : Word) (hm : m = accessMode p (s.governing p) acc)
      (hc : s.impu.check p (accessMade p m acc) m (p.freeBit (s.draws + 5)) = .allowed)
      (hn : relocationMeaningless p (s.governing p) m acc.addr = false)
      (hr : relocate p (s.governing p) (accessMade p m acc).addr = .addr a)
      (ht : t = (s.issuing.forward p (s.governing p) (accessMade p m acc) m false (forwardedWords p m acc.form a)).enqueue
        (s.governing p) (accessMade p m acc) m (forwardedWords p m acc.form a) none)

/-- An access that gives a next state is admitted, and was refused by the IMPU or forwarded. -/
theorem issue_next {p : Config.Params} {taken : Bool} {acc : Access} {s t : State} (h : issue p taken acc s = .next t) :
    Admitted p acc (accessMode p (s.governing p) acc) s ∧ Issues p taken acc s t := by
  unfold issue at h
  split at h
  · cases h
  · next hmode =>
    simp only at h
    split at h
    · cases h
    · next hon =>
      split at h
      · cases h
      · next hoff =>
        refine ⟨⟨hmode, rfl, fun hm => ?_, fun hm => ?_⟩, ?_⟩
        · by_contra hn
          exact hon ⟨hm, by simpa using hn⟩
        · by_contra hn
          exact hoff ⟨hm, hn⟩
        · split at h
          · cases h
          · next guarded hc => cases h; exact .refused _ guarded rfl hc rfl
          · next hc =>
            split at h
            · cases h
            · next hn =>
              split at h
              · cases h
              · next a hr => cases h; exact .forwarded _ a rfl hc (by simpa using hn) hr rfl

/-- What a check allows does not depend on the free bit that breaks a tie of two failing checks. -/
theorem Impu.check_allowed {p : Config.Params} {u : Impu} {acc : Access} {m : DMode} {tie : Bool}
    (h : u.check p acc m tie = .allowed) (tie' : Bool) : u.check p acc m tie' = .allowed := by
  simp only [Impu.check] at h ⊢
  split_ifs at h ⊢ <;> simp_all

/-- Issuing an admitted access, in either mode. -/
theorem issue_admitted {p : Config.Params} {acc : Access} {m : DMode} {s : State} (taken : Bool) (ha : Admitted p acc m s) :
    issue p taken acc s =
      match s.impu.check p (accessMade p m acc) m (p.freeBit (s.draws + 5)) with
      | .illegal => .refused .illegalRegion
      | .violation guarded =>
        .next (if taken then s.issuing.refuseAccess p taken guarded (s.governing p) (accessMade p m acc) m
          else (s.issuing.refuseAccess p taken guarded (s.governing p) (accessMade p m acc) m).enqueue (s.governing p)
            (accessMade p m acc) m [] (some guarded))
      | .allowed =>
        if relocationMeaningless p (s.governing p) m acc.addr then .refused .relocatedCompressed
        else
          match relocate p (s.governing p) (accessMade p m acc).addr with
          | .gap => .fault (.relocGap (accessMade p m acc).addr)
          | .addr a =>
            .next ((s.issuing.forward p (s.governing p) (accessMade p m acc) m false (forwardedWords p m acc.form a)).enqueue
              (s.governing p) (accessMade p m acc) m (forwardedWords p m acc.form a) none) := by
  obtain ⟨hmode, hm, hon, hoff⟩ := ha
  have h1 : ¬(m = .on ∧ ¬(p.hasComp ∧ s.bbcmcr.enComp)) := fun h => h.2 (hon h.1)
  have h2 : ¬(m = .off ∧ docField (accessMade p m acc).addr 30 2 ≠ 0#2) := fun h => h.2 (hoff h.1)
  unfold issue
  simp only [if_neg hmode, ← hm, if_neg h1, if_neg h2]
  rfl

/-- Issuing an admitted access that the IMPU refuses, in either mode. -/
theorem issue_refused {p : Config.Params} {acc : Access} {m : DMode} {s : State} (taken : Bool) {guarded : Bool}
    (ha : Admitted p acc m s)
    (hc : s.impu.check p (accessMade p m acc) m (p.freeBit (s.draws + 5)) = .violation guarded) :
    issue p taken acc s =
      .next (if taken then s.issuing.refuseAccess p taken guarded (s.governing p) (accessMade p m acc) m
        else (s.issuing.refuseAccess p taken guarded (s.governing p) (accessMade p m acc) m).enqueue (s.governing p)
          (accessMade p m acc) m [] (some guarded)) := by
  rw [issue_admitted taken ha, hc]

/-- Issuing an admitted access that the IMPU allows and relocation sends to `a`, in either mode. -/
theorem issue_allowed {p : Config.Params} {acc : Access} {m : DMode} {s : State} {a : Word} (taken : Bool) (ha : Admitted p acc m s)
    (hc : s.impu.check p (accessMade p m acc) m (p.freeBit (s.draws + 5)) = .allowed)
    (hn : relocationMeaningless p (s.governing p) m acc.addr = false)
    (hr : relocate p (s.governing p) (accessMade p m acc).addr = .addr a) :
    issue p taken acc s =
      .next ((s.issuing.forward p (s.governing p) (accessMade p m acc) m false (forwardedWords p m acc.form a)).enqueue
        (s.governing p) (accessMade p m acc) m (forwardedWords p m acc.form a) none) := by
  rw [issue_admitted taken ha, hc]
  simp only [hn, hr, Bool.false_eq_true, if_false]

/-- The accesses to memory words, in turn, as the U-bus sees them. -/
theorem memoryAccesses_spec (p : Config.Params) (gov : Bbcmcr) (acc : Access) (m : DMode) (cancelled : Bool) (words : List Word) :
    ∀ before, (memoryAccesses p gov acc m cancelled before words).map BusAccess.dest = words.map Dest.memory ∧
      ∀ c ∈ memoryAccesses p gov acc m cancelled before words, ∃ a, c.dest = .memory a ∧ c.burst = burstRequest gov acc ∧
        c.carriedAsBurst = (burstRequest gov acc && p.burstable a) ∧ c.showCycle = acc.showCycle ∧ c.ptrace = acc.ptrace ∧
        c.dbg = acc.dbg ∧ c.pointers = showPointers p gov acc m ∧ c.cancelled = cancelled := by
  induction words with
  | nil => simp [memoryAccesses]
  | cons a rest ih =>
    refine fun before => ⟨by simp [memoryAccesses, ih], fun c hc => ?_⟩
    obtain rfl | hc := List.mem_cons.mp hc
    · exact ⟨a, rfl, rfl, rfl, rfl, rfl, rfl, rfl, rfl⟩
    · exact (ih _).2 c hc

/-- The bit pointers are shown in a decompression show cycle, with DECOMP_SC_EN set, and in no other access. -/
theorem showPointers_eq (p : Config.Params) (gov : Bbcmcr) (acc : Access) (m : DMode) :
    showPointers p gov acc m =
      if acc.showCycle = true ∧ m = .on ∧ gov.decompScEn = true then some (bitPointers p acc.addr) else none := by
  simp [showPointers, and_assoc]

/-- What forwarding an access puts on the U-bus. -/
theorem forward_appears (p : Config.Params) (gov : Bbcmcr) (acc : Access) (m : DMode) (cancelled : Bool) (words : List Word)
    (s : State) : AppearsOnBus p gov acc m cancelled words s (s.forward p gov acc m cancelled words) := by
  cases hd : acc.dbg with
  | true =>
    refine ⟨[debugAccess p gov acc m cancelled], by simp [State.forward, hd], by simp [hd, debugAccess], fun c hc => ?_⟩
    obtain rfl := List.mem_singleton.mp hc
    simp [debugAccess, hd, showPointers_eq]
  | false =>
    refine ⟨memoryAccesses p gov acc m cancelled s.lastBus words, by simp [State.forward, hd],
      by simp [hd, (memoryAccesses_spec p gov acc m cancelled words s.lastBus).1], fun c hc => ?_⟩
    obtain ⟨a, h1, h2, h3, h4, h5, h6, h7, h8⟩ := (memoryAccesses_spec p gov acc m cancelled words s.lastBus).2 c hc
    rw [h7, showPointers_eq]
    refine ⟨h2, fun h => ?_, fun b hb => ?_, h4, h5, h6, rfl, h8⟩
    · simp_all
    · obtain rfl : a = b := by simpa using h1.symm.trans hb
      rw [h3, h2]

/-- What appears on the U-bus is told by the two states' U-bus alone. -/
theorem AppearsOnBus.congr {p : Config.Params} {gov : Bbcmcr} {acc : Access} {m : DMode} {cancelled : Bool} {words : List Word}
    {s t s' t' : State} (h : AppearsOnBus p gov acc m cancelled words s t) (hs : s'.out.bus = s.out.bus)
    (ht : t'.out.bus = t.out.bus) : AppearsOnBus p gov acc m cancelled words s' t' := by
  obtain ⟨shown, hb, h⟩ := h
  exact ⟨shown, by rw [ht, hs, hb], h⟩

/-- Two appearances of one access at memory words, one after the other, are one at all of them. -/
theorem AppearsOnBus.append {p : Config.Params} {gov : Bbcmcr} {acc : Access} {m : DMode} {cancelled : Bool} {ws vs : List Word}
    {s t u : State} (hd : acc.dbg = false) (h : AppearsOnBus p gov acc m cancelled ws s t)
    (k : AppearsOnBus p gov acc m cancelled vs t u) : AppearsOnBus p gov acc m cancelled (ws ++ vs) s u := by
  obtain ⟨xs, hb, hx, h⟩ := h
  obtain ⟨ys, kb, ky, k⟩ := k
  simp only [hd, Bool.false_eq_true, if_false] at hx ky
  refine ⟨xs ++ ys, by rw [kb, hb, List.append_assoc], by simp [hd, hx, ky], fun c hc => ?_⟩
  exact (List.mem_append.mp hc).elim (h c) (k c)

/-- A word list of an access is not empty. -/
theorem forwardedWords_ne_nil (p : Config.Params) (m : DMode) (f : AddrForm) (a : Word) : forwardedWords p m f a ≠ [] := by
  cases m
  · simp [forwardedWords]
  · cases f <;> simp only [forwardedWords, physicalWords]
    · split <;> simp
    · simp

/-- A fetch of an admitted access that the IMPU refuses takes the exception, in either mode. -/
theorem fetch_refused {p : Config.Params} {acc : Access} {m : DMode} {s : State} {guarded : Bool} (ha : Admitted p acc m s)
    (hc : s.impu.check p (accessMade p m acc) m (p.freeBit (s.draws + 5)) = .violation guarded) :
    fetch p acc s =
      .next ((s.flowTo acc).issuing.refuseAccess p true guarded (s.governing p) (accessMade p m acc) m) := by
  have h := issue_refused (s := s.flowTo acc) true (guarded := guarded) ha hc
  simp only [if_pos] at h
  simp only [fetch, h]
  have hp : ((s.flowTo acc).issuing.refuseAccess p true guarded ((s.flowTo acc).governing p) (accessMade p m acc) m).pending =
      s.pending := by simp
  simp only [hp]
  cases s.pending <;> rfl

/-- A decompressed instruction was asked for at its address and takes at most 36 bits (30_encoding R100). -/
theorem decompress_some {p : Config.Params} {mem : List Host.Cell} {f : AddrForm} {a : Word} {d : Decoded}
    (h : decompress p mem f a = some d) : d.addr = a ∧ d.bits ≤ 36 := by
  unfold decompress at h
  split at h
  · cases h
  · unfold decodedAt at h
    dsimp only at h
    split at h
    · cases h
    · split at h
      · next hb => cases h; exact ⟨rfl, hb⟩
      · cases h

/-- What the data of an answered access can be: a debug port's, a word of plain code, or a decompressed instruction. -/
inductive Delivers (p : Config.Params) (e : Pending) (s t : State) : Prop where
  | debug (hd : e.acc.dbg = true) (ht : t = s.answerDebug p e.mode)
  | plain (hd : e.acc.dbg = false) (hm : e.mode = .off) (hs : Memory.storedIn s.stored (e.words.headD e.acc.addr) = false)
      (ht : t = s.deliver (Memory.readWord p s.mem (e.words.headD e.acc.addr)) none)
  | decompressed (hd : e.acc.dbg = false) (hm : e.mode = .on) (d : Decoded)
      (hd' : icduDecode p s.mem s.icdu e.acc.form e.acc.addr = some d)
      (hs : d.words.any (Memory.storedIn s.stored) = false)
      (ht : t = { ((s.forward p e.gov e.acc .on false (d.words.filter (fun a => !e.words.contains a))).deliver d.instr
        (some d.next)) with icdu := icduAfter p s.mem d })

/-- Data that is delivered is one of the three. -/
theorem answerData_next {p : Config.Params} {e : Pending} {s t : State} (h : answerData p e s = .next t) : Delivers p e s t := by
  unfold answerData at h
  split at h
  · next hd => cases h; exact .debug hd rfl
  · next hd =>
    simp only [Bool.not_eq_true] at hd
    split at h
    · next hm =>
      simp only at h
      split at h
      · cases h
      · next hs => cases h; exact .plain hd hm (by simpa using hs) rfl
    · next hm =>
      split at h
      · cases h
      · next d hd' =>
        split at h
        · cases h
        · next hs => cases h; exact .decompressed hd hm d hd' (by simpa using hs) rfl

/-- What the answer to the oldest pending access can do, after it left the queue. -/
inductive Answers (p : Config.Params) (wanted : Bool) (e : Pending) (s t : State) : Prop where
  | cancelled (guarded : Bool) (he : e.refused = some guarded) (ht : t = if wanted then s.takeViolation p guarded e.mode else s)
  | refused (guarded : Bool) (he : e.refused = none) (ht : t = s.refuseAccess p wanted guarded e.gov e.acc e.mode)
  | delivered (u : State) (he : e.refused = none) (hu : Delivers p e s u) (ht : t = u.handOver wanted e.acc s.icdu)

/-- An answer that gives a next state had nothing to answer, or answered the oldest pending access. -/
theorem answer_next {p : Config.Params} {wanted : Bool} {s t : State} (h : answer p wanted s = .next t) :
    (s.pending = [] ∧ t = s) ∨ ∃ e rest, s.pending = e :: rest ∧
      Answers p wanted e { s with pending := rest, draws := s.draws + 1 } t := by
  unfold answer at h
  split at h
  · next hp => cases h; exact .inl ⟨hp, rfl⟩
  · next e rest hp =>
    refine .inr ⟨e, rest, hp, ?_⟩
    simp only at h
    split at h
    · next guarded he => cases h; exact .cancelled guarded he rfl
    · next he =>
      split at h
      · cases h
      · next guarded _ => cases h; exact .refused guarded he rfl
      · split at h
        · next u hu => cases h; exact .delivered u he (answerData_next hu) rfl
        · cases h
        · cases h

/-- The answer to an access that is not refused ahead and that the IMPU allows by the values that govern it. -/
theorem answer_allowed {p : Config.Params} {wanted : Bool} {s : State} {e : Pending} {rest : List Pending} (hp : s.pending = e :: rest)
    (he : e.refused = none) (hc : e.judgedBy.check p e.acc e.mode (p.freeBit s.draws) = .allowed) :
    answer p wanted s =
      match answerData p e { s with pending := rest, draws := s.draws + 1 } with
      | .next t => .next (t.handOver wanted e.acc s.icdu)
      | .fault f => .fault f
      | .refused r => .refused r := by
  cases h : answerData p e { s with pending := rest, draws := s.draws + 1 } <;> simp only [answer, hp, he, hc, h]

/-- The answer to an access that the IMPU refuses by the values that govern it. -/
theorem answer_violation {p : Config.Params} {wanted guarded : Bool} {s : State} {e : Pending} {rest : List Pending}
    (hp : s.pending = e :: rest) (he : e.refused = none)
    (hc : e.judgedBy.check p e.acc e.mode (p.freeBit s.draws) = .violation guarded) :
    answer p wanted s =
      .next ({ s with pending := rest, draws := s.draws + 1 }.refuseAccess p wanted guarded e.gov e.acc e.mode) := by
  simp only [answer, hp, he, hc]

/-- The answer to an access refused ahead. -/
theorem answer_refused {p : Config.Params} {wanted guarded : Bool} {s : State} {e : Pending} {rest : List Pending}
    (hp : s.pending = e :: rest) (he : e.refused = some guarded) :
    answer p wanted s =
      .next (if wanted then { s with pending := rest, draws := s.draws + 1 }.takeViolation p guarded e.mode
        else { s with pending := rest, draws := s.draws + 1 }) := by
  simp only [answer, hp, he]

/-- A fetch of an admitted access that the IMPU allows and relocation sends to `a`, with nothing older pending, is forwarded and
answered at once. -/
theorem fetch_allowed {p : Config.Params} {acc : Access} {m : DMode} {s : State} {a : Word} (ha : Admitted p acc m s)
    (hp : s.pending = []) (hc : s.impu.check p (accessMade p m acc) m (p.freeBit (s.draws + 5)) = .allowed)
    (hn : relocationMeaningless p (s.governing p) m acc.addr = false)
    (hr : relocate p (s.governing p) (accessMade p m acc).addr = .addr a) :
    fetch p acc s =
      answer p true (((s.flowTo acc).issuing.forward p (s.governing p) (accessMade p m acc) m false
        (forwardedWords p m acc.form a)).enqueue (s.governing p) (accessMade p m acc) m (forwardedWords p m acc.form a) none) := by
  have h := issue_allowed (s := s.flowTo acc) true ha hc hn hr
  simp only [fetch, h, hp]
  exact if_pos (by simp)

/-- A fetch issues its access, and where it was forwarded with nothing older pending, answers it. -/
theorem fetch_next {p : Config.Params} {acc : Access} {s t : State} (h : fetch p acc s = .next t) :
    ∃ u, issue p true acc (s.flowTo acc) = .next u ∧
      (t = u ∨ s.pending = [] ∧ u.pending ≠ [] ∧ answer p true u = .next t) := by
  unfold fetch at h
  split at h
  · cases h
  · cases h
  · next u hu =>
    split at h
    · next hc =>
      refine ⟨u, hu, .inr ⟨?_, ?_, h⟩⟩
      · cases hs : s.pending <;> simp_all
      · cases hs : u.pending <;> simp_all
    · cases h; exact ⟨_, hu, .inl rfl⟩

/-! ## What stays through an access and through an event -/

/-- The registers, the isync window, memory and the inputs left are as before. -/
structure Undisturbed (s t : State) : Prop where
  impu : t.impu = s.impu
  bbcmcr : t.bbcmcr = s.bbcmcr
  superseded : t.superseded = s.superseded
  mem : t.mem = s.mem
  stored : t.stored = s.stored
  inputs : t.inputs = s.inputs

theorem Undisturbed.refl {s : State} : Undisturbed s s := ⟨.refl _, .refl _, .refl _, .refl _, .refl _, .refl _⟩

theorem Undisturbed.trans {s t u : State} (h : Undisturbed s t) (k : Undisturbed t u) : Undisturbed s u :=
  ⟨k.impu.trans h.impu, k.bbcmcr.trans h.bbcmcr, k.superseded.trans h.superseded, k.mem.trans h.mem,
    k.stored.trans h.stored, k.inputs.trans h.inputs⟩

/-- Refusing an access disturbs nothing. -/
theorem refuseAccess_undisturbed (p : Config.Params) (taken guarded : Bool) (gov : Bbcmcr) (acc : Access) (m : DMode) (s : State) :
    Undisturbed s (s.refuseAccess p taken guarded gov acc m) := by
  constructor <;> simp

/-- Issuing an access disturbs nothing. -/
theorem issue_undisturbed {p : Config.Params} {taken : Bool} {acc : Access} {s t : State} (h : issue p taken acc s = .next t) :
    Undisturbed s t := by
  obtain ⟨-, ⟨_, _, _, _, rfl⟩ | ⟨_, _, _, _, _, _, rfl⟩⟩ := issue_next h
  · split <;> constructor <;> simp
  · constructor <;> simp

/-- Handing a word over for execution, or passing it over, disturbs nothing. -/
theorem handOver_undisturbed (wanted : Bool) (acc : Access) (u : Icdu) {s t : State} (h : Undisturbed s t) :
    Undisturbed s (t.handOver wanted acc u) :=
  ⟨by simp [h.impu], by simp [h.bbcmcr], by simp [h.superseded], by simp [h.mem], by simp [h.stored], by simp [h.inputs]⟩

/-- Delivering data disturbs nothing. -/
theorem delivers_undisturbed {p : Config.Params} {e : Pending} {s t : State} (h : Delivers p e s t) : Undisturbed s t := by
  obtain ⟨-, rfl⟩ | ⟨-, -, -, rfl⟩ | ⟨-, -, d, -, -, rfl⟩ := h <;> constructor <;> simp

/-- Answering an access disturbs nothing. -/
theorem answer_undisturbed {p : Config.Params} {wanted : Bool} {s t : State} (h : answer p wanted s = .next t) :
    Undisturbed s t := by
  obtain ⟨-, rfl⟩ | ⟨e, rest, -, ha⟩ := answer_next h
  · exact .refl
  · refine Undisturbed.trans (t := { s with pending := rest, draws := s.draws + 1 }) ⟨rfl, rfl, rfl, rfl, rfl, rfl⟩ ?_
    obtain ⟨_, -, rfl⟩ | ⟨_, -, rfl⟩ | ⟨u, -, hu, rfl⟩ := ha
    · split <;> constructor <;> simp
    · exact refuseAccess_undisturbed ..
    · exact handOver_undisturbed _ _ _ (delivers_undisturbed hu)

/-- A fetch disturbs nothing. -/
theorem fetch_undisturbed {p : Config.Params} {acc : Access} {s t : State} (h : fetch p acc s = .next t) : Undisturbed s t := by
  have hf : Undisturbed s (s.flowTo acc) := ⟨rfl, rfl, rfl, rfl, rfl, rfl⟩
  obtain ⟨u, hu, rfl | ⟨-, -, ha⟩⟩ := fetch_next h
  · exact hf.trans (issue_undisturbed hu)
  · exact (hf.trans (issue_undisturbed hu)).trans (answer_undisturbed ha)

/-- An event that is no reset disturbs nothing. -/
theorem occur_undisturbed {p : Config.Params} {e : Event} {s t : State} (h : occur p e s = .next t)
    (he : ∀ w, e ≠ .powerOn w ∧ e ≠ .hardReset w) : Undisturbed s t := by
  cases e with
  | fetch acc =>
    refine Undisturbed.trans ?_ (fetch_undisturbed h)
    split <;> exact ⟨rfl, rfl, rfl, rfl, rfl, rfl⟩
  | issue acc => exact issue_undisturbed h
  | answer => exact answer_undisturbed h
  | indirect src => exact Undisturbed.trans (t := s.dropPrefetch) ⟨rfl, rfl, rfl, rfl, rfl, rfl⟩ (fetch_undisturbed h)
  | powerOn w => exact absurd rfl (he w).1
  | hardReset w => exact absurd rfl (he w).2
  | standbyEnter =>
    simp only [occur, standbyEnter] at h
    split at h
    · cases h; exact ⟨rfl, rfl, rfl, rfl, rfl, rfl⟩
    · cases h
  | standbyExit =>
    simp only [occur, standbyExit] at h
    split at h <;> (cases h; exact ⟨rfl, rfl, rfl, rfl, rfl, rfl⟩)

/-- The step before execution, with the outputs cleared and the event taken from the inputs. -/
theorem transact_next {p : Config.Params} {s t : State} (h : transact p s = .next t) :
    (s.inputs = [] ∧ goOn p s.cleared = .next t) ∨
      ∃ e rest, s.inputs = e :: rest ∧ occur p e { s.cleared with inputs := rest } = .next t := by
  unfold transact at h
  split at h
  · next hi => exact .inl ⟨hi, h⟩
  · next e rest hi => exact .inr ⟨e, rest, hi, h⟩

/-- The core's own flow: nothing in standby, an answer where something is pending, else a fetch. -/
theorem goOn_next {p : Config.Params} {s t : State} (h : goOn p s = .next t) :
    (s.mode = .powerSave ∧ t = s) ∨ (s.mode ≠ .powerSave ∧ s.pending = [] ∧ fetch p s.acc s = .next t) ∨
      (s.mode ≠ .powerSave ∧ s.pending ≠ [] ∧ answer p (s.wantsOldest p) s = .next t) := by
  unfold goOn at h
  split at h
  · next hm => cases h; exact .inl ⟨hm, rfl⟩
  · next hm =>
    split at h
    · next hp => exact .inr (.inl ⟨hm, by simpa using hp, h⟩)
    · next hp => exact .inr (.inr ⟨hm, by simpa using hp, h⟩)

/-- No transaction but a reset changes a register, the isync window, memory or the locations stored to. -/
theorem transact_keeps {p : Config.Params} {s t : State} (h : transact p s = .next t) (hr : NoReset s) :
    t.impu = s.impu ∧ t.bbcmcr = s.bbcmcr ∧ t.superseded = s.superseded ∧ t.mem = s.mem ∧ t.stored = s.stored := by
  have of {u : State} (hu : Undisturbed u t) (h1 : u.impu = s.impu) (h2 : u.bbcmcr = s.bbcmcr)
      (h3 : u.superseded = s.superseded) (h4 : u.mem = s.mem) (h5 : u.stored = s.stored) :
      t.impu = s.impu ∧ t.bbcmcr = s.bbcmcr ∧ t.superseded = s.superseded ∧ t.mem = s.mem ∧ t.stored = s.stored :=
    ⟨hu.impu.trans h1, hu.bbcmcr.trans h2, hu.superseded.trans h3, hu.mem.trans h4, hu.stored.trans h5⟩
  obtain ⟨-, hg⟩ | ⟨e, rest, hi, ho⟩ := transact_next h
  · obtain ⟨-, rfl⟩ | ⟨-, -, hf⟩ | ⟨-, -, ha⟩ := goOn_next hg
    · exact ⟨rfl, rfl, rfl, rfl, rfl⟩
    · exact of (fetch_undisturbed hf) rfl rfl rfl rfl rfl
    · exact of (answer_undisturbed ha) rfl rfl rfl rfl rfl
  · refine of (occur_undisturbed ho fun w => ?_) rfl rfl rfl rfl rfl
    have := hr w
    rw [hi] at this
    exact ⟨fun he => this.1 (by simp [he]), fun he => this.2 (by simp [he])⟩

/-- A step is its transaction and then the execution of the word delivered to the core, if any. -/
theorem step_next {s t : State} (h : step s = .next t) : ∃ u, transact Config.chip s = .next u ∧
    ((u.delivered = none ∧ t = u) ∨
      (∃ w i, u.delivered = some w ∧ decodeWord u.acc.dmode w = .ok i ∧ exec i u = .next t) ∨
      (∃ w e, u.delivered = some w ∧ decodeWord u.acc.dmode w = .error e ∧ t = u.foreignInstruction Config.chip)) := by
  unfold step at h
  split at h
  · cases h
  · cases h
  · next u hu =>
    refine ⟨u, hu, ?_⟩
    split at h
    · next hd => cases h; exact .inl ⟨hd, rfl⟩
    · next w hd =>
      split at h
      · next i hi => exact .inr (.inl ⟨w, i, hd, hi, h⟩)
      · next e he => cases h; exact .inr (.inr ⟨w, e, hd, he, rfl⟩)

end Sys2Proof.Machine
end

