-- ==== Sys2Proof/Laws/PerInstr.lean ====
section
/-!
SUPPORT. One statement about every instruction as syntax: its word has the bits that spec/opcode_table.json fixes for its
row (the row's `match` under its `mask`).
-/

namespace Sys2Proof.Laws

/-- The `mask` and the `match` of an instruction's row of spec/opcode_table.json. -/
def TableRow.fixed : Instr → Word × Word
  | .mtspr _ _ => (0xFC0007FF#32, 0x7C0003A6#32)
  | .mfspr _ _ => (0xFC0007FF#32, 0x7C0002A6#32)
  | .isync => (0xFFFFFFFF#32, 0x4C00012C#32)
  | .mtsprMiRba0 _ => (0xFC1FFFFF#32, 0x7C10C3A6#32)
  | .mfsprMiRba0 _ => (0xFC1FFFFF#32, 0x7C10C2A6#32)
  | .mtsprMiRba1 _ => (0xFC1FFFFF#32, 0x7C11C3A6#32)
  | .mfsprMiRba1 _ => (0xFC1FFFFF#32, 0x7C11C2A6#32)
  | .mtsprMiRba2 _ => (0xFC1FFFFF#32, 0x7C12C3A6#32)
  | .mfsprMiRba2 _ => (0xFC1FFFFF#32, 0x7C12C2A6#32)
  | .mtsprMiRba3 _ => (0xFC1FFFFF#32, 0x7C13C3A6#32)
  | .mfsprMiRba3 _ => (0xFC1FFFFF#32, 0x7C13C2A6#32)
  | .mtsprMiRa0 _ => (0xFC1FFFFF#32, 0x7C10CBA6#32)
  | .mfsprMiRa0 _ => (0xFC1FFFFF#32, 0x7C10CAA6#32)
  | .mtsprMiRa1 _ => (0xFC1FFFFF#32, 0x7C11CBA6#32)
  | .mfsprMiRa1 _ => (0xFC1FFFFF#32, 0x7C11CAA6#32)
  | .mtsprMiRa2 _ => (0xFC1FFFFF#32, 0x7C12CBA6#32)
  | .mfsprMiRa2 _ => (0xFC1FFFFF#32, 0x7C12CAA6#32)
  | .mtsprMiRa3 _ => (0xFC1FFFFF#32, 0x7C13CBA6#32)
  | .mfsprMiRa3 _ => (0xFC1FFFFF#32, 0x7C13CAA6#32)
  | .mtsprMiGra _ => (0xFC1FFFFF#32, 0x7C1083A6#32)
  | .mfsprMiGra _ => (0xFC1FFFFF#32, 0x7C1082A6#32)
  | .mtsprBbcmcr _ => (0xFC1FFFFF#32, 0x7C108BA6#32)
  | .mfsprBbcmcr _ => (0xFC1FFFFF#32, 0x7C108AA6#32)
  | .b _ _ _ => (0xFC000000#32, 0x48000000#32)
  | .bMapped _ _ _ _ => (0xFC000000#32, 0x48000000#32)
  | .bc _ _ _ _ _ => (0xFC000000#32, 0x40000000#32)
  | .bcMapped _ _ _ _ _ => (0xFC000000#32, 0x40000000#32)

/-- The instruction's word has its row's fixed bits. -/
def TableRow.Statement (i : Instr) : Prop := encode i &&& (TableRow.fixed i).1 = (TableRow.fixed i).2

theorem TableRow.mtspr (rS : Reg) (n : BitVec 10) : TableRow.Statement (.mtspr rS n) := by
  change (31#6 ++ rS ++ (n.extractLsb' 0 5 ++ n.extractLsb' 5 5) ++ 467#10 ++ 0#1) &&& (63#6 ++ 0#5 ++ (0#5 ++ 0#5) ++ 1023#10 ++ 1#1) = _
  simp only [BitVec.and_append, BitVec.and_zero]
  rfl

theorem TableRow.mfspr (rD : Reg) (n : BitVec 10) : TableRow.Statement (.mfspr rD n) := by
  change (31#6 ++ rD ++ (n.extractLsb' 0 5 ++ n.extractLsb' 5 5) ++ 339#10 ++ 0#1) &&& (63#6 ++ 0#5 ++ (0#5 ++ 0#5) ++ 1023#10 ++ 1#1) = _
  simp only [BitVec.and_append, BitVec.and_zero]
  rfl

theorem TableRow.isync : TableRow.Statement (.isync) := by
  unfold TableRow.Statement; decide

theorem TableRow.mtsprMiRba0 (rS : Reg) : TableRow.Statement (.mtsprMiRba0 rS) := by
  unfold TableRow.Statement; revert rS; decide

theorem TableRow.mfsprMiRba0 (rD : Reg) : TableRow.Statement (.mfsprMiRba0 rD) := by
  unfold TableRow.Statement; revert rD; decide

theorem TableRow.mtsprMiRba1 (rS : Reg) : TableRow.Statement (.mtsprMiRba1 rS) := by
  unfold TableRow.Statement; revert rS; decide

theorem TableRow.mfsprMiRba1 (rD : Reg) : TableRow.Statement (.mfsprMiRba1 rD) := by
  unfold TableRow.Statement; revert rD; decide

theorem TableRow.mtsprMiRba2 (rS : Reg) : TableRow.Statement (.mtsprMiRba2 rS) := by
  unfold TableRow.Statement; revert rS; decide

theorem TableRow.mfsprMiRba2 (rD : Reg) : TableRow.Statement (.mfsprMiRba2 rD) := by
  unfold TableRow.Statement; revert rD; decide

theorem TableRow.mtsprMiRba3 (rS : Reg) : TableRow.Statement (.mtsprMiRba3 rS) := by
  unfold TableRow.Statement; revert rS; decide

theorem TableRow.mfsprMiRba3 (rD : Reg) : TableRow.Statement (.mfsprMiRba3 rD) := by
  unfold TableRow.Statement; revert rD; decide

theorem TableRow.mtsprMiRa0 (rS : Reg) : TableRow.Statement (.mtsprMiRa0 rS) := by
  unfold TableRow.Statement; revert rS; decide

theorem TableRow.mfsprMiRa0 (rD : Reg) : TableRow.Statement (.mfsprMiRa0 rD) := by
  unfold TableRow.Statement; revert rD; decide

theorem TableRow.mtsprMiRa1 (rS : Reg) : TableRow.Statement (.mtsprMiRa1 rS) := by
  unfold TableRow.Statement; revert rS; decide

theorem TableRow.mfsprMiRa1 (rD : Reg) : TableRow.Statement (.mfsprMiRa1 rD) := by
  unfold TableRow.Statement; revert rD; decide

theorem TableRow.mtsprMiRa2 (rS : Reg) : TableRow.Statement (.mtsprMiRa2 rS) := by
  unfold TableRow.Statement; revert rS; decide

theorem TableRow.mfsprMiRa2 (rD : Reg) : TableRow.Statement (.mfsprMiRa2 rD) := by
  unfold TableRow.Statement; revert rD; decide

theorem TableRow.mtsprMiRa3 (rS : Reg) : TableRow.Statement (.mtsprMiRa3 rS) := by
  unfold TableRow.Statement; revert rS; decide

theorem TableRow.mfsprMiRa3 (rD : Reg) : TableRow.Statement (.mfsprMiRa3 rD) := by
  unfold TableRow.Statement; revert rD; decide

theorem TableRow.mtsprMiGra (rS : Reg) : TableRow.Statement (.mtsprMiGra rS) := by
  unfold TableRow.Statement; revert rS; decide

theorem TableRow.mfsprMiGra (rD : Reg) : TableRow.Statement (.mfsprMiGra rD) := by
  unfold TableRow.Statement; revert rD; decide

theorem TableRow.mtsprBbcmcr (rS : Reg) : TableRow.Statement (.mtsprBbcmcr rS) := by
  unfold TableRow.Statement; revert rS; decide

theorem TableRow.mfsprBbcmcr (rD : Reg) : TableRow.Statement (.mfsprBbcmcr rD) := by
  unfold TableRow.Statement; revert rD; decide

theorem TableRow.b (wp : BitVec 24) (aa lk : Bool) : TableRow.Statement (.b wp aa lk) := by
  change (18#6 ++ wp ++ BitVec.ofBool aa ++ BitVec.ofBool lk) &&& (63#6 ++ 0#24 ++ 0#1 ++ 0#1) = _
  simp only [BitVec.and_append, BitVec.and_zero]
  rfl

theorem TableRow.bMapped (wp : BitVec 19) (ptr : BitVec 5) (aa lk : Bool) : TableRow.Statement (.bMapped wp ptr aa lk) := by
  change (18#6 ++ wp ++ ptr ++ BitVec.ofBool aa ++ BitVec.ofBool lk) &&& (63#6 ++ 0#19 ++ 0#5 ++ 0#1 ++ 0#1) = _
  simp only [BitVec.and_append, BitVec.and_zero]
  rfl

theorem TableRow.bc (bo bi : BitVec 5) (bd : BitVec 14) (aa lk : Bool) : TableRow.Statement (.bc bo bi bd aa lk) := by
  change (16#6 ++ bo ++ bi ++ bd ++ BitVec.ofBool aa ++ BitVec.ofBool lk) &&& (63#6 ++ 0#5 ++ 0#5 ++ 0#14 ++ 0#1 ++ 0#1) = _
  simp only [BitVec.and_append, BitVec.and_zero]
  rfl

theorem TableRow.bcMapped (cond : BitVec 10) (wp : BitVec 9) (ptr : BitVec 5) (aa lk : Bool) : TableRow.Statement (.bcMapped cond wp ptr aa lk) := by
  change (16#6 ++ cond ++ wp ++ ptr ++ BitVec.ofBool aa ++ BitVec.ofBool lk) &&& (63#6 ++ 0#10 ++ 0#9 ++ 0#5 ++ 0#1 ++ 0#1) = _
  simp only [BitVec.and_append, BitVec.and_zero]
  rfl

end Sys2Proof.Laws
end

