-- ==== Sys2Proof/Tests/Slice0.lean ====
section
/-!
SUPPORT. Tests: the words and vectors of spec/95_test_vectors.md (parts A and B), the canonical-form smoke test, and for every
statement with hypotheses a concrete case that meets them (`meets_<Name>`).

Expected values are the spec's, or worked by hand from the rule a test names.
-/

namespace Sys2Proof.Tests

open Sys2Proof.Machine
open Config (Params Side Tx Leaf CodeTree)

/-! ## Helpers -/

/-- A toy vocabulary: `0` is the byte 0x7C, `1000`, `1001` and `1010` the bypass codes of a byte, a half and a whole instruction, `11` the
mark of a label. -/
def toyTree : CodeTree :=
  .node (.leaf (.byte 0x7C#8))
    (.node (.node (.node (.leaf (.bypass .byte)) (.leaf (.bypass .half))) (.node (.leaf (.bypass .whole)) .absent)) (.leaf .labelMark))

/-- Parameters for tests: an MPC556, the internal memory at 0x0040_0000, the compressed space at 0x0010_0000. -/
def chip : Params where
  part := .mpc556
  imb := 0x00400000#32
  compWord := 0x40000#30
  resetEtre := false
  resetOerc := false
  reservedReadsZero := true
  leftPointerFirst := true
  burstable := fun a => a < 0x10000#32
  burstLen := 4
  impuAddrOn := fun a => a
  baseAddrCalc := recommendedBaseAddrCalc
  vocab := fun _ => toyTree
  bypass := fun _ w => (w.extractLsb' 24 8, 8)
  bypassHalf := fun _ w => (w.extractLsb' 16 16, 16)
  wholeSide := .left
  wholeLeftBits := 16
  labelSide := fun _ => .left
  labelNextLine := true
  dontCareBit20 := fun _ => false
  vectorOn := fun _ => 0x00012013#32
  samePage := fun _ _ => true
  platformByte := fun _ => 0#8
  freeBit := fun _ => false
  freeWord := fun _ => 0#32
  storedTo := fun _ => []

/-- The same of an MPC555. -/
def chip555 : Params := { chip with part := .mpc555 }

/-- A register of the module from a word with no field of the MPC556 dropped. -/
def raOf (w : Word) : RaReg := RaReg.write true { rs := 0#20, pp := 0#2, g := false, cmpr := 0#2 } w

def graOf (w : Word) : GraReg := GraReg.write true resetGra w

/-- Configuration S1 of 95_test_vectors B4, with a value for MI_GRA. -/
def impuS1 (gra : Word) : Impu where
  rba := #v[0x00000#20, 0x00008#20, 0x00400#20, 0x00000#20]
  ra := #v[raOf 0x0000F400#32, raOf 0x00000840#32, raOf 0x003FF030#32, raOf 0xFFFFFC00#32]
  gra := graOf gra

/-- A supervisor's plain-code access with protection on. -/
def access (addr : Word) : Access :=
  { State.reset.acc with addr := addr, msrIr := true, entry := false }

def userAccess (addr : Word) (spec : Bool) : Access := { access addr with priv := .user, spec := spec }

/-- A state with a value for MI_GRA and one for BBCMCR, nothing else of note (95_test_vectors B12). -/
def stateWith (gra bbcmcr : Word) : State :=
  { State.reset with
    impu := { State.reset.impu with gra := graOf gra }
    bbcmcr := Bbcmcr.write true { be := false, etre := false, oerc := false, enComp := false, excComp := false, decompScEn := false } bbcmcr }

/-- Memory with two compressed words at word pointer 0x00012, worked out by hand for `toyTree`: left `0 1000 01110000` from bit 0 of
bits 0:18, right `1001 1100001110100110` from bit 19, running into bits 12:19 of the next word. It stands for `mtspr 784, r3`. -/
def compressedMemory : List Host.Cell := Memory.placeWord 0x00100048#32 0x43801386#32 (Memory.placeWord 0x0010004C#32 0x000A6001#32 [])

/-- A state in which compressed code runs. -/
def compressedState : State :=
  { State.reset with
    bbcmcr := { State.reset.bbcmcr with be := false, etre := false, oerc := false, enComp := true, excComp := true }
    mem := compressedMemory }

/-- A compressed access: the two pointer address of `test_decompress`. -/
def compressedAccess : Access := { access 0x00012013#32 with dmode := .on, msrIr := false }

/-- The same with protection on. -/
def refusedOnAccess : Access := { compressedAccess with msrIr := true }

/-- The configuration relocation has no meaning in (43_exception_relocation R262, decision D36). -/
def relocatedCompressedState : State := { compressedState with bbcmcr := { compressedState.bbcmcr with etre := true } }

/-- What `test_decompress` decompresses. -/
def icduSample : Decoded where
  addr := 0x00012013#32
  instr := 0x7C70C3A6#32
  next := 0x000125B4#32
  here := 0x00012013#32
  words := [0x00100048#32, 0x0010004C#32]
  bits := 33

/-- IMPU registers with region 0 on: of a size not listed, and at a base that is no multiple of its size. -/
def badSize : Impu := { impuS1 0x80000400#32 with ra := Vector.replicate 4 (raOf 0x00002000#32) }

def badBase : Impu := { impuS1 0x80000400#32 with rba := Vector.replicate 4 1#20, ra := Vector.replicate 4 (raOf 0x00001000#32) }

/-- A pending plain-code access. -/
def pendingOne : Pending where
  acc := access 0x2000#32
  mode := .off
  words := [0x2000#32]
  gov := State.reset.bbcmcr
  judgedBy := State.reset.impu
  refused := none

/-- What a step's next state is like, if there is one. -/
def gives {α : Type} (o : Host.Outcome State Fault Refusal) (f : State → α) : Option α :=
  match o with
  | .next t => some (f t)
  | _ => none

/-- The fault of a step that stops with one. -/
def faultOf (o : Host.Outcome State Fault Refusal) : Option Fault :=
  match o with
  | .fault f => some f
  | _ => none

/-- The refusal of a step that stops with one. -/
def refusalOf (o : Host.Outcome State Fault Refusal) : Option Refusal :=
  match o with
  | .refused r => some r
  | _ => none

theorem next_of_gives {o : Host.Outcome State Fault Refusal} {f : State → Bool} (h : gives o f = some true) :
    ∃ t, o = .next t ∧ f t = true := by
  cases o with
  | next t => exact ⟨t, rfl, by simpa [gives] using h⟩
  | fault f => simp [gives] at h
  | refused r => simp [gives] at h

/-- The state in which the next step runs a word, the general register 3 holding a value. -/
def running (w : Nat) (x3 : Word) : State := (State.reset.setX 3#5 x3).withFetchWord 32 w

/-! ## Canonical form -/

theorem test_wellFormed_refuses_named_mtspr : WellFormed (.mtspr 3#5 784#10) = false := by decide

theorem test_wellFormed_refuses_named_mfspr : WellFormed (.mfspr 3#5 819#10) = false := by decide

theorem test_wellFormed_takes_other_spr : WellFormed (.mtspr 0#5 8#10) = true ∧ WellFormed (.mfspr 0#5 818#10) = false := by decide

/-! ## Decoding: every constructor by a word (30_encoding R101 to R108, 95_test_vectors B3, B10) -/

theorem test_decode_rba :
    decodeTableWord 32 0x7C70C3A6 = some (.mtsprMiRba0 3#5) ∧ decodeTableWord 32 0x7C70C2A6 = some (.mfsprMiRba0 3#5) ∧
    decodeTableWord 32 0x7C71C3A6 = some (.mtsprMiRba1 3#5) ∧ decodeTableWord 32 0x7D11C2A6 = some (.mfsprMiRba1 8#5) ∧
    decodeTableWord 32 0x7C92C3A6 = some (.mtsprMiRba2 4#5) ∧ decodeTableWord 32 0x7D12C2A6 = some (.mfsprMiRba2 8#5) ∧
    decodeTableWord 32 0x7CB3C3A6 = some (.mtsprMiRba3 5#5) ∧ decodeTableWord 32 0x7D13C2A6 = some (.mfsprMiRba3 8#5) := by
  decide

theorem test_decode_ra :
    decodeTableWord 32 0x7C90CBA6 = some (.mtsprMiRa0 4#5) ∧ decodeTableWord 32 0x7CB0CAA6 = some (.mfsprMiRa0 5#5) ∧
    decodeTableWord 32 0x7C91CBA6 = some (.mtsprMiRa1 4#5) ∧ decodeTableWord 32 0x7D11CAA6 = some (.mfsprMiRa1 8#5) ∧
    decodeTableWord 32 0x7CD2CBA6 = some (.mtsprMiRa2 6#5) ∧ decodeTableWord 32 0x7D12CAA6 = some (.mfsprMiRa2 8#5) ∧
    decodeTableWord 32 0x7CF3CBA6 = some (.mtsprMiRa3 7#5) ∧ decodeTableWord 32 0x7C73CAA6 = some (.mfsprMiRa3 3#5) := by
  decide

theorem test_decode_gra_bbcmcr_isync :
    decodeTableWord 32 0x7CB083A6 = some (.mtsprMiGra 5#5) ∧ decodeTableWord 32 0x7FF082A6 = some (.mfsprMiGra 31#5) ∧
    decodeTableWord 32 0x7FF08BA6 = some (.mtsprBbcmcr 31#5) ∧ decodeTableWord 32 0x7C108AA6 = some (.mfsprBbcmcr 0#5) ∧
    decodeTableWord 32 0x4C00012C = some .isync := by
  decide

/-- SPR 8 has the field 01000_00000 (30_encoding R103). -/
theorem test_decode_generic :
    decodeTableWord 32 0x7C0803A6 = some (.mtspr 0#5 8#10) ∧ decodeTableWord 32 0x7FE802A6 = some (.mfspr 31#5 8#10) := by
  decide

/-- `ba 0x4000` is 95_test_vectors P2; the `bc` word is 010000 01100 00010 00000000000010 0 1. -/
theorem test_decode_plain_branches :
    decodeTableWord 32 0x48004002 = some (.b 0x1000#24 true false) ∧
    decodeTableWord 32 0x41820009 = some (.bc 12#5 2#5 2#14 false true) := by
  decide

theorem test_decode_mapped_branches :
    decodeWord .on 0x48000834#32 = .ok (.bMapped 0x10#19 13#5 false false) ∧
    decodeWord .on 0x4BFFFFFD#32 = .ok (.bMapped 0x7FFFF#19 31#5 false true) ∧
    decodeWord .on 0x4182029C#32 = .ok (.bcMapped 0x182#10 5#9 7#5 false false) ∧
    decodeWord .on 0x4082FF84#32 = .ok (.bcMapped 0x082#10 0x1FF#9 1#5 false false) := by
  decide

/-- The bytes of a word lie with bits 0:7 at the lowest address (20_memory R73). -/
theorem test_decode_bytes_in_order :
    decodeBytes .off [0x7C#8, 0x70#8, 0xC3#8, 0xA6#8, 0x4C#8] = .ok (.mtsprMiRba0 3#5, [0x4C#8]) := by decide

theorem test_decode_rejects :
    decodeTableWord 32 0x60000000 = none ∧ decodeTableWord 32 0x7C70C3A7 = none ∧
    decodeBytes .off [0x7C#8, 0x70#8, 0xC3#8] = .error .tooShort := by
  decide

theorem test_encode_words :
    encode (.mtsprMiRba0 3#5) = 0x7C70C3A6#32 ∧ encode (.mfsprMiRa3 3#5) = 0x7C73CAA6#32 ∧ encode .isync = 0x4C00012C#32 ∧
    encode (.mtsprMiGra 5#5) = 0x7CB083A6#32 ∧ encode (.mfsprBbcmcr 7#5) = 0x7CF08AA6#32 ∧
    encode (.bcMapped 0x082#10 0x1FF#9 1#5 false false) = 0x4082FF84#32 := by
  decide

/-! ## Fields (95_test_vectors B1) -/

theorem test_fields :
    docField 0x80000000#32 0 1 = 1#1 ∧ docField 0x00000001#32 31 1 = 1#1 ∧ docField 0x00400FFF#32 0 20 = 0x00400#20 ∧
    docField 0x0000F400#32 20 2 = 1#2 ∧ docBit 0x0000F400#32 25 = false ∧ docField 0x00000840#32 20 2 = 2#2 ∧
    docBit 0x00000840#32 25 = true ∧ docBit 0x00003800#32 18 = true ∧ docField 0xFFF01300#32 0 19 = 0x7FF80#19 ∧
    docField 0xFFF01300#32 19 5 = 19#5 := by
  decide

/-! ## Registers (95_test_vectors B2, B11) -/

theorem test_stored_values :
    rbaImage (docField 0xFFFFFFFF#32 0 20) = 0xFFFFF000#32 ∧ rbaImage (docField 0x00400FFF#32 0 20) = 0x00400000#32 ∧
    (RaReg.write false (raOf 0#32) 0xFFFFFFFF#32).image = 0xFFFFFC40#32 ∧
    (RaReg.write true (raOf 0#32) 0xFFFFFFFF#32).image = 0xFFFFFC70#32 ∧
    (RaReg.write true (raOf 0#32) 0x00000380#32).image = 0#32 ∧
    (GraReg.write false resetGra 0xFFFFFFFF#32).image = 0xF0000C40#32 ∧
    (GraReg.write true resetGra 0xFFFFFFFF#32).image = 0xF0000C70#32 ∧
    (GraReg.write true resetGra 0x0FFFF38F#32).image = 0#32 := by
  decide

theorem test_stored_bbcmcr :
    (Bbcmcr.write false (stateWith 0#32 0#32).bbcmcr 0xFFFFFFFF#32).image = 0x00003800#32 ∧
    (Bbcmcr.write true (stateWith 0#32 0#32).bbcmcr 0xFFFFFFFF#32).image = 0x00003B00#32 ∧
    (Bbcmcr.write true { (stateWith 0#32 0#32).bbcmcr with enComp := true } 0#32).image = 0x00000400#32 := by
  decide

theorem test_reset_bbcmcr :
    (resetBbcmcr chip555 { rcw21 := true, rcw22 := true, ip := false }).image = 0#32 ∧
    (resetBbcmcr { chip555 with resetEtre := true } { rcw21 := false, rcw22 := false, ip := false }).image = 0x1000#32 ∧
    (resetBbcmcr chip { rcw21 := true, rcw22 := false, ip := false }).image = 0x0500#32 ∧
    (resetBbcmcr chip { rcw21 := true, rcw22 := true, ip := false }).image = 0x0700#32 ∧
    (resetBbcmcr chip { rcw21 := false, rcw22 := true, ip := false }).image = 0x0200#32 := by
  decide

/-! ## Protection (95_test_vectors B4, B5, B6) -/

theorem test_check_all_on :
    (impuS1 0xF0000400#32).check chip (access 0x1000#32) .off false = .allowed ∧
    (impuS1 0xF0000400#32).check chip (userAccess 0x1000#32 false) .off true = .violation false ∧
    (impuS1 0xF0000400#32).check chip (userAccess 0x8010#32 true) .off true = .violation false ∧
    (impuS1 0xF0000400#32).check chip (access 0xFFFC#32) .off false = .allowed ∧
    (impuS1 0xF0000400#32).check chip (userAccess 0x10000#32 false) .off false = .allowed ∧
    (impuS1 0xF0000400#32).check chip (access 0x00400000#32) .off true = .violation false ∧
    (impuS1 0xF0000400#32).check chip (access 0x007FFFFC#32) .on true = .violation false ∧
    (impuS1 0xF0000400#32).check chip (userAccess 0x00800000#32 true) .on false = .allowed := by
  decide

theorem test_check_two_on :
    (impuS1 0x60000400#32).check chip (access 0x1000#32) .off false = .allowed ∧
    (impuS1 0x60000400#32).check chip (userAccess 0x1000#32 false) .off true = .violation false ∧
    (impuS1 0x60000400#32).check chip (userAccess 0x8010#32 true) .off false = .violation true ∧
    (impuS1 0x60000400#32).check chip (userAccess 0x8010#32 false) .off false = .allowed ∧
    (impuS1 0x60000400#32).check chip { access 0x8FFC#32 with spec := true } .off false = .violation true ∧
    (impuS1 0x60000400#32).check chip { access 0x9000#32 with spec := true } .off false = .allowed := by
  decide

theorem test_chosen_regions :
    (impuS1 0xF0000400#32).chosen 0x8010#32 = some 0 ∧ (impuS1 0xF0000400#32).chosen 0x10000#32 = some 3 ∧
    (impuS1 0xF0000400#32).chosen 0x00400000#32 = some 2 ∧ (impuS1 0x60000400#32).chosen 0x8010#32 = some 1 ∧
    (impuS1 0x60000400#32).chosen 0x1000#32 = none := by
  decide

/-- The row of 95_test_vectors B5 with PP = 01 and G = 1; both bits are possible where two checks fail. -/
theorem test_check_pp_and_g :
    (stateWith 0x0440#32 0#32).impu.check chip555 (access 0x2000#32) .off false = .allowed ∧
    (stateWith 0x0440#32 0#32).impu.check chip555 { access 0x2000#32 with spec := true } .off false = .violation true ∧
    (stateWith 0x0440#32 0#32).impu.check chip555 (userAccess 0x2000#32 false) .off true = .violation false ∧
    (stateWith 0x0440#32 0#32).impu.check chip555 (userAccess 0x2000#32 true) .off true = .violation true ∧
    (stateWith 0x0440#32 0#32).impu.check chip555 (userAccess 0x2000#32 true) .off false = .violation false := by
  decide

theorem test_check_cmpr :
    (stateWith 0x0810#32 0#32).impu.check chip (access 0x2000#32) .off false = .allowed ∧
    (stateWith 0x0810#32 0#32).impu.check chip (access 0x2000#32) .on false = .violation false ∧
    (stateWith 0x0820#32 0#32).impu.check chip (access 0x2000#32) .on false = .allowed ∧
    (stateWith 0x0830#32 0#32).impu.check chip (access 0x2000#32) .off true = .violation true ∧
    (stateWith 0x0830#32 0#32).impu.check chip555 (access 0x2000#32) .off true = .allowed := by
  decide

/-! ## Relocation (95_test_vectors A4, B7) -/

theorem test_relocate :
    relocate chip (stateWith 0#32 0x0800#32).bbcmcr 0xFFF00500#32 = .addr 0xFFF00500#32 ∧
    relocate chip (stateWith 0#32 0x1000#32).bbcmcr 0xFFF00500#32 = .addr 0x00400028#32 ∧
    relocate chip (stateWith 0#32 0x1800#32).bbcmcr 0xFFF00500#32 = .addr 0x00408028#32 ∧
    relocate chip (stateWith 0#32 0x1800#32).bbcmcr 0xFFF00100#32 = .addr 0x00400008#32 ∧
    relocate chip (stateWith 0#32 0x1800#32).bbcmcr 0xFFF01F00#32 = .addr 0x004080F8#32 ∧
    relocate chip (stateWith 0#32 0x1800#32).bbcmcr 0xFFF00104#32 = .gap ∧
    relocate chip (stateWith 0#32 0x1800#32).bbcmcr 0xFFF01FFC#32 = .gap ∧
    relocate chip (stateWith 0#32 0x1800#32).bbcmcr 0xFFF02000#32 = .addr 0xFFF02000#32 ∧
    relocate chip (stateWith 0#32 0x1800#32).bbcmcr 0xFFEFFF00#32 = .addr 0xFFEFFF00#32 ∧
    relocationMeaningless chip { (stateWith 0#32 0x1800#32).bbcmcr with enComp := true, excComp := true } .off 0x2000#32 = true ∧
    relocationMeaningless chip { (stateWith 0#32 0x1800#32).bbcmcr with enComp := true } .off 0xFFF00500#32 = false ∧
    relocationMeaningless chip { (stateWith 0#32 0x1800#32).bbcmcr with enComp := true } .on 0xFFF00500#32 = true ∧
    relocationMeaningless chip555 { (stateWith 0#32 0x1800#32).bbcmcr with enComp := true, excComp := true } .off 0x2000#32 = false := by
  decide

/-! ## Compressed code (95_test_vectors B8, B9, B10) -/

theorem test_two_pointer_addresses :
    baseWord chip 0x00012800#32 = 0x00100048#32 ∧ leftWord chip 0x00012800#32 = 0x00100048#32 ∧
    rightWord chip 0x0001242A#32 = 0x0010004C#32 ∧ leftWord chip 0x0001242A#32 = 0x00100048#32 ∧
    leftWord chip 0x00012C8D#32 = 0x0010004C#32 ∧ rightWord chip 0x00012C8D#32 = 0x00100048#32 ∧
    baseWord chip 0xFFFFF81F#32 = 0x004FFFFC#32 ∧ bitPointers chip 0x00012C8D#32 = (4#5, 13#5) := by
  decide

theorem test_word_split :
    boundary 0xABCDE001#32 = 12 ∧ boundary 0xABCDE000#32 = 19 ∧
    takeBits chip (Memory.placeWord 0#32 0xABCDE001#32 []) .left 12 { word := 0#32, bit := 0 } 0 = 0xABC ∧
    takeBits chip (Memory.placeWord 0#32 0xABCDE001#32 []) .right 19 { word := 0#32, bit := 12 } 0 = 0x6F000 ∧
    takeBits chip (Memory.placeWord 0#32 0x12345678#32 []) .left 19 { word := 0#32, bit := 0 } 0 = 0x091A2 ∧
    takeBits chip (Memory.placeWord 0#32 0x12345678#32 []) .right 12 { word := 0#32, bit := 19 } 0 = 0xB3C := by
  decide

theorem test_mapped_targets :
    mappedTarget chip 0x00100#20 0x10#19 13#5 false = 0x001101A0#32 ∧
    docField (mappedTarget chip 0x00100#20 0x005#9 7#5 false) 0 20 = 0x00105#20 ∧
    docField (mappedTarget chip 0x00100#20 0x1FF#9 1#5 false) 0 20 = 0x000FF#20 := by
  decide

/-- Thirteen bits left, from bit 0 to bit 12 of the base word; twenty right, from bit 19 of it to bit 19 of the next one
(40_compression R149, R150): a byte of the vocabulary, a byte bypassed, a half bypassed (30_encoding R115). -/
theorem test_decompress :
    (decompress chip compressedMemory .twoPointer 0x00012013#32).map
        (fun d => (d.instr, d.next, d.here, d.words, d.bits)) =
      some (0x7C70C3A6#32, 0x000125B4#32, 0x00012013#32, [0x00100048#32, 0x0010004C#32], 33) := by
  decide

/-- A whole instruction bypassed: `1010` and sixteen bits left, sixteen bits right, 36 bits in all (30_encoding R100). -/
theorem test_decompress_whole_bypass :
    (decompress chip (Memory.placeWord 0x00100048#32 0xA7C71874#32 (Memory.placeWord 0x0010004C#32 0x00000C00#32 [])) .twoPointer
        0x00012013#32).map (fun d => (d.instr, d.bits)) =
      some (0x7C70C3A6#32, 36) := by
  decide

/-- Three bytes bypassed one by one and one of the vocabulary would be 37 bits: no instruction is so long (30_encoding R100). -/
theorem test_decompress_at_most_36_bits :
    (decodeHalves chip (Memory.placeWord 0x00100048#32 0x80081000#32 (Memory.placeWord 0x0010004C#32 0#32 []))
        { word := 0x00100048#32, bit := 0 } { word := 0x00100048#32, bit := 19 }).map (fun h => (h.leftBits, h.rightBits)) =
      some (24, 13) ∧
    decompress chip (Memory.placeWord 0x00100048#32 0x80081000#32 (Memory.placeWord 0x0010004C#32 0#32 [])) .twoPointer
        0x00012013#32 = none := by
  decide

/-- A label `11 01100 0` in front of the left half locates the right half at bit 12 of the same line (40_compression R144). -/
theorem test_direct_branch_label :
    (decompress chip (Memory.placeWord 0x00100048#32 0xD8000001#32 []) .onePointer 0x00012000#32).map
        (fun d => (d.instr, d.here)) =
      some (0x7C7C7C7C#32, 0x0001210C#32) := by
  decide

/-! ## Fetches (95_test_vectors B12, B13) -/

theorem test_fetch_single_and_burst :
    gives (fetch chip (access 0x2000#32) (stateWith 0x0400#32 0#32)) (fun t => t.out.bus.map (fun b => (b.dest, b.burst))) =
      some [(.memory 0x2000#32, false)] ∧
    gives (fetch chip (access 0x2000#32) (stateWith 0x0400#32 0x2000#32))
        (fun t => t.out.bus.map (fun b => (b.dest, b.burst, b.carriedAsBurst))) = some [(.memory 0x2000#32, true, true)] ∧
    gives (fetch chip { access 0x2000#32 with dbg := true } (stateWith 0x0400#32 0x2000#32))
        (fun t => t.out.bus.map (fun b => (b.dest, b.burst, b.dbg))) = some [(.debugPort, false, true)] := by
  decide

theorem test_fetch_violation :
    gives (fetch chip (userAccess 0x2000#32 false) (stateWith 0x0400#32 0#32))
        (fun t => (t.out.bus.length, t.out.word, t.core.srr1.bit3, t.core.srr1.bit4, t.acc.addr)) =
      some (0, none, false, true, 0x00001300#32) ∧
    gives (fetch chip { userAccess 0x2000#32 false with showCycle := true } (stateWith 0x0400#32 0#32))
        (fun t => (t.out.bus.map (fun b => (b.dest, b.showCycle, b.cancelled)), t.out.word)) =
      some ([(.memory 0x2000#32, true, true)], none) := by
  decide

theorem test_fetch_relocated_and_gap :
    gives (fetch chip (access 0xFFF01300#32) (stateWith 0x0400#32 0x1000#32)) (fun t => t.out.bus.map (fun b => b.dest)) =
      some [.memory 0x00400098#32] ∧
    faultOf (fetch chip (access 0xFFF00104#32) (stateWith 0x0400#32 0x1000#32)) = some (.relocGap 0xFFF00104#32) ∧
    gives (fetch chip (userAccess 0xFFF00104#32 false) (stateWith 0x0400#32 0x1000#32)) (fun t => t.core.srr1.bit4) =
      some true := by
  decide

/-- A fetch that reads a byte the core has stored to is refused, one beside it is not (20_memory R83). -/
theorem test_fetch_of_stored_location :
    refusalOf (fetch chip (access 0x2000#32) { stateWith 0x0400#32 0#32 with stored := [0x2003#32] }) = some .storedLocation ∧
    gives (fetch chip (access 0x2000#32) { stateWith 0x0400#32 0#32 with stored := [0x2004#32, 0x1FFF#32] })
      (fun t => t.out.executes) = some true := by
  decide

/-- An exception presented while compressed code runs saves the next instruction address in SRR0 (40_compression R150, 60_exceptions
R321); what was prefetched is discarded (40_compression R151). -/
theorem test_exception_in_compressed_code :
    gives (occur chip (.fetch { access 0x500#32 with entry := true, msrIr := false })
        { compressedState with
          bbcmcr := { compressedState.bbcmcr with excComp := false }
          acc := compressedAccess
          icdu := icduAfter chip compressedMemory (icduSample) })
      (fun t => (t.core.srr0, t.icdu.prefetched.isSome, t.acc.addr)) = some (0x000125B4#32, false, 0x500#32) := by
  decide

/-- An instruction of the core's own that ends in an exception of compressed code: the vector by MSR[IP], the return address the next
instruction address (60_exceptions R321). -/
theorem test_own_instruction_exception :
    (State.ownInstruction { chip with freeBit := fun _ => true, freeWord := fun _ => 5#32 }
        { compressedState with acc := compressedAccess, icdu := { State.reset.icdu with next := 0x000125B4#32 } }).core.srr0 =
      0x000125B4#32 ∧
    (State.ownInstruction { chip with freeBit := fun _ => true, freeWord := fun _ => 5#32 } compressedState).acc.addr =
      0xFFF00500#32 := by
  simp [State.ownCore, State.ownNext, freeAccess, freeCore, freeTarget, vectorAddress, compressedAccess]

/-- A vector fetched in Decompression ON mode behind an older access is the one the flow goes to when its turn comes. -/
theorem test_vector_behind_pending :
    gives (fetch chip State.reset.acc { compressedState with pending := [pendingOne] })
      (fun t => t.pending.tail.map (fun e => (e.acc.addr, e.acc.continues chip t.acc))) = some [(0x00012013#32, true)] := by
  decide

/-- An access refused ahead is reported when it is issued and taken when the core comes to it, though the region has been opened
since (60_exceptions R315). -/
theorem test_refused_ahead_is_taken_later :
    gives (issue chip false (userAccess 0x2000#32 false) (stateWith 0x0400#32 0#32))
      (fun t => (t.out.report.isSome, t.pending.map (fun e => e.refused), t.acc.addr)) =
        some (true, [some false], 0x100#32) ∧
    gives (answer chip true { stateWith 0x0800#32 0#32 with pending := [{ pendingOne with words := [], refused := some false }] })
      (fun t => (t.acc.addr, t.core.srr1.bit4)) = some (0x1300#32, true) := by
  decide

/-- The three outcomes of 95_test_vectors B13, by what is drawn for ETRE and OERC. -/
theorem test_isync_window :
    (({ stateWith 0#32 0x1800#32 with superseded := [(stateWith 0#32 0#32).bbcmcr] } : State).governing chip).etre = false ∧
    (({ stateWith 0#32 0x1800#32 with superseded := [(stateWith 0#32 0#32).bbcmcr] } : State).governing
      { chip with freeBit := fun n => n == 1 }).etre = true ∧
    ((stateWith 0#32 0x1800#32).governing chip).etre = true := by
  decide

/-! ## Steps: an instruction placed and run (95_test_vectors P1, P2, B2) -/

theorem test_step_mtspr_rba : gives (step (running 0x7C70C3A6 0x00400FFF#32)) (fun t => (t.impu.rba[0], t.acc.addr)) =
    some (0x00400#20, 0x00000104#32) := by decide

theorem test_step_mtspr_ra : gives (step (running 0x7C72CBA6 0x0000F440#32)) (fun t => (t.impu.ra[2].rs, t.impu.ra[2].pp, t.impu.ra[2].g)) =
    some (0x0000F#20, 1#2, true) := by decide

theorem test_step_mtspr_gra : gives (step (running 0x7C7083A6 0x80000800#32)) (fun t => (t.impu.gra.enr, t.impu.gra.pp)) =
    some (#v[true, false, false, false], 2#2) := by decide

theorem test_step_mtspr_bbcmcr : gives (step (running 0x7C708BA6 0x00001800#32))
    (fun t => (t.bbcmcr.be, t.bbcmcr.etre, t.bbcmcr.oerc, t.superseded.length)) = some (false, true, true, 1) := by decide

theorem test_step_isync : gives (step ({ State.reset with superseded := [State.reset.bbcmcr] }.withFetchWord 32 0x4C00012C))
    (fun t => (t.superseded.length, t.acc.addr)) = some (0, 0x00000104#32) := by decide

theorem test_step_ba : gives (step (running 0x48004002 0#32)) (fun t => t.acc.addr) = some 0x00004000#32 := by decide

/-- `bl -8` at 0x100. -/
theorem test_step_bl_back : gives (step (running 0x4BFFFFF9 0#32)) (fun t => (t.acc.addr, t.core.lr)) =
    some (0x000000F8#32, 0x00000104#32) := by decide

theorem test_step_user_mfspr_faults :
    faultOf (step ({ State.reset with acc := { State.reset.acc with priv := .user } }.withFetchWord 32 0x7CD082A6)) =
      some (.privilegedSpr .gra) := by decide

/-! ## Cases that meet the hypotheses of the statements -/

theorem meets_DecodeEncodeAgree :
    WellFormed (.mtspr 31#5 1023#10) = true ∧ (isBranchRow (.mtspr 31#5 1023#10) = true → DMode.on = modeOfRow (.mtspr 31#5 1023#10)) ∧
    WellFormed (.bMapped 0x7FFFF#19 31#5 true true) = true ∧ DMode.on = modeOfRow (.bMapped 0x7FFFF#19 31#5 true true) := by
  decide

theorem meets_DecodedWordsEncodeBack : decodeWord .on 0x4BFFFFFD#32 = .ok (.bMapped 0x7FFFF#19 31#5 false true) ∧
    decodeWord .off 0x7FFFFBA6#32 = .ok (.mtspr 31#5 1023#10) := by decide

/-- The state after reset meets `SprAccessRuns`, for both rows of a register: the hypotheses of `MtsprWritesWritableBitsOnly`,
`MtsprFrame`, `MfsprReadsRegister`, `MfsprFieldPositions` and `MfsprAfterMtsprReturnsWritten`, at MI_RA[3] and BBCMCR. -/
theorem meets_SprAccessRuns :
    SprAccessRuns State.reset ∧ WritesSpr (.mtsprMiRa3 31#5) (.ra 3) 31#5 ∧ WritesSpr (.mtspr 0#5 560#10) .bbcmcr 0#5 ∧
    ReadsSpr (.mfsprMiRa3 31#5) (.ra 3) 31#5 ∧ ReadsSpr (.mfspr 0#5 560#10) .bbcmcr 0#5 :=
  ⟨⟨by decide, rfl⟩, .inl rfl, .inr (by decide), .inl rfl, .inr (by decide)⟩

theorem meets_MtsprRbaWritesBaseAddress :
    SprAccessRuns State.reset ∧ WritesSpr (.mtsprMiRba0 0#5) (.rba 0) 0#5 ∧ WritesSpr (.mtspr 31#5 787#10) (.rba 3) 31#5 :=
  ⟨⟨by decide, rfl⟩, .inl rfl, .inr (by decide)⟩

theorem meets_MtsprRaWritesSizeAndAttributes :
    SprAccessRuns State.reset ∧ WritesSpr (.mtsprMiRa0 0#5) (.ra 0) 0#5 ∧ WritesSpr (.mtspr 31#5 819#10) (.ra 3) 31#5 :=
  ⟨⟨by decide, rfl⟩, .inl rfl, .inr (by decide)⟩

theorem meets_MtsprGraWritesEnablesAndAttributes :
    SprAccessRuns State.reset ∧ WritesSpr (.mtsprMiGra 0#5) .gra 0#5 ∧ WritesSpr (.mtspr 31#5 528#10) .gra 31#5 :=
  ⟨⟨by decide, rfl⟩, .inl rfl, .inr (by decide)⟩

theorem meets_MtsprBbcmcrWritesControlBits :
    SprAccessRuns State.reset ∧ WritesSpr (.mtsprBbcmcr 0#5) .bbcmcr 0#5 ∧ WritesSpr (.mtspr 31#5 560#10) .bbcmcr 31#5 :=
  ⟨⟨by decide, rfl⟩, .inl rfl, .inr (by decide)⟩

/-- A pending compressed access. -/
def pendingOn : Pending := { pendingOne with acc := compressedAccess, mode := .on, words := [0x00100048#32], gov := compressedState.bbcmcr }

theorem meets_PendingAccessesJudgedByOldOrNew :
    SprAccessRuns { State.reset with pending := [pendingOne] } ∧ WritesSpr (.mtsprMiGra 5#5) .gra 5#5 ∧
    gives (exec (.mtsprMiGra 5#5) { State.reset with pending := [pendingOne] }) (fun t => t.pending.length) = some 1 :=
  ⟨⟨by decide, rfl⟩, .inl rfl, by decide⟩

theorem meets_UserModeSprAccessFaults :
    (WritesSpr (.mtsprMiGra 3#5) .gra 3#5 ∧ ReadsSpr (.mfspr 3#5 785#10) (.rba 1) 3#5) ∧ State.reset.mode ≠ .powerSave ∧
    ({ State.reset with acc := userAccess 0x100#32 false } : State).acc.priv = .user :=
  ⟨⟨.inl rfl, .inr (by decide)⟩, by decide, rfl⟩

theorem meets_OtherSprLeavesModuleAlone : sprOfNumber 8#10 = none ∧ sprOfNumber 1023#10 = none ∧ sprOfNumber 783#10 = none ∧
    sprOfNumber 820#10 = none := by decide

theorem meets_IsyncWindowOldOrNew :
    SprAccessRuns State.reset ∧ WritesSpr (.mtsprBbcmcr 3#5) .bbcmcr 3#5 ∧ State.reset.superseded = [] :=
  ⟨⟨by decide, rfl⟩, .inl rfl, rfl⟩

theorem meets_BranchFrame : isBranchRow (.b 1#24 true true) = true ∧ isBranchRow (.bMapped 1#19 1#5 true true) = true ∧
    isBranchRow (.bc 1#5 1#5 1#14 true true) = true ∧ isBranchRow (.bcMapped 1#10 1#9 1#5 true true) = true := by decide

/-- A word whose low twelve bits differ is in the same regions (R213: bits 20:31 never take part); a region that is off. -/
theorem meets_RegionMatchIsMaskCompare :
    (impuS1 0xF0000400#32).regionLegal 0 = true ∧ (impuS1 0xF0000400#32).gra.enr[(0 : Fin 4)] = true ∧
    (impuS1 0xF0000400#32).matches 0 0xFFFF#32 = true ∧ (impuS1 0xF0000400#32).matches 0 0x10000#32 = false ∧
    (impuS1 0xF0000400#32).regionLegal 3 = true ∧ (impuS1 0xF0000400#32).matches 3 0xFFFFFFFF#32 = true ∧
    (impuS1 0x60000400#32).gra.enr[(3 : Fin 4)] = false := by
  decide

/-- The least and the greatest RS, and one between; a value not listed. -/
theorem meets_LegalSizesArePowersOfTwo : legalSize 2#20 = false ∧ (impuS1 0#32).ra[(3 : Fin 4)].rs.toNat = 2 ^ 20 - 1 ∧
    (impuS1 0#32).ra[(1 : Fin 4)].rs.toNat = 2 ^ 0 - 1 ∧ (impuS1 0#32).ra[(0 : Fin 4)].rs.toNat = 2 ^ 4 - 1 := by decide

theorem meets_AttributesOfChosenRegion :
    ((impuS1 0xF0000400#32).matches 3 0x10000#32 = true ∧ ∀ j, j < (3 : Fin 4) → (impuS1 0xF0000400#32).matches j 0x10000#32 = false) ∧
    ∀ k, (impuS1 0x60000400#32).matches k 0x1000#32 = false := by
  decide

/-- With protection off; with it on, in both modes, the address compared given as the statement asks. -/
theorem meets_AllowedExactlyWhenAllChecksPass :
    State.reset.acc.msrIr = false ∧ (access 0x1000#32).msrIr = true ∧ (impuS1 0xF0000400#32).legal = true ∧
    (0x1000#32 = (access 0x1000#32).addr ∧ 0x00012013#32 = chip.impuAddrOn refusedOnAccess.addr ∧ refusedOnAccess.msrIr = true) ∧
    (impuS1 0xF0000400#32).check chip (access 0x1000#32) .off false = .allowed ∧
    (impuS1 0xF0000400#32).check chip (userAccess 0x1000#32 false) .off false ≠ .allowed := by
  decide

theorem meets_ViolationBitOfOneCause :
    ((impuS1 0x60000400#32).check chip (userAccess 0x8010#32 true) .off false = .violation true ∧
      gOk ((impuS1 0x60000400#32).attributesAt 0x8010#32).g true = false ∧
      ppOk ((impuS1 0x60000400#32).attributesAt 0x8010#32).pp .user = true) ∧
    (impuS1 0x60000400#32).check chip (userAccess 0x1000#32 false) .off true = .violation false ∧
      gOk ((impuS1 0x60000400#32).attributesAt 0x1000#32).g false = true ∧
      ppOk ((impuS1 0x60000400#32).attributesAt 0x1000#32).pp .user = false := by
  decide

theorem meets_ServedAtOnce : ServedAtOnce chip (access 0x2000#32) .off (stateWith 0x0400#32 0#32) :=
  ⟨⟨by decide, by decide, by decide, by decide⟩, rfl, rfl⟩

/-- A size not listed (RS = 2), and a base that is no multiple of the size (RS = 1, base word 1); a fetch at a vector, and the answer to a
pending access, in a state with such a region. -/
theorem meets_IllegalRegionRefusesFetch :
    (BreaksPrecondition badSize ∧ BreaksPrecondition badBase) ∧
    Admitted chip { access 0x1300#32 with entry := true } .off { State.reset with impu := badSize } ∧ (access 0x1300#32).msrIr = true ∧
    ({ pendingOne with judgedBy := badBase } : Pending).refused = none ∧ pendingOne.acc.msrIr = true ∧
    refusalOf (fetch chip { access 0x1300#32 with entry := true } { State.reset with impu := badSize }) = some .illegalRegion :=
  ⟨⟨⟨0, by decide, .inl (by decide)⟩, ⟨0, by decide, .inr (by decide)⟩⟩, ⟨by decide, by decide, by decide, by decide⟩, rfl, rfl, rfl,
    by decide⟩

/-- Also the hypothesis of `RelocationOfEveryVector`, with OERC on and off. -/
theorem meets_RelocationTable : (stateWith 0#32 0x1800#32).bbcmcr.etre = true ∧ (stateWith 0#32 0x1800#32).bbcmcr.oerc = true ∧
    (stateWith 0#32 0x1000#32).bbcmcr.oerc = false := by decide

theorem meets_ResetEntryNotMovedByOerc : (stateWith 0#32 0x1800#32).bbcmcr.etre = true := by decide

/-- Both clauses; the configuration of decision D36 on an allowed access outside the table, and an ON-mode access at the first and at the last
address of the table. -/
theorem meets_RelocationOnlyInsideTable :
    ((stateWith 0#32 0x0800#32).bbcmcr.etre = false ∧ 0xFFEFFFFF#32 < 0xFFF00000#32 ∧ 0xFFF01FFF#32 < 0xFFF02000#32) ∧
    Admitted chip State.reset.acc .on relocatedCompressedState ∧ relocatedCompressedState.superseded = [] ∧
    relocatedCompressedState.impu.check chip (accessMade chip .on State.reset.acc) .on (chip.freeBit 5) = .allowed ∧
    Admitted chip { State.reset.acc with entry := false } .off relocatedCompressedState ∧ chip.hasComp = true ∧
    relocatedCompressedState.bbcmcr.etre = true ∧ relocatedCompressedState.bbcmcr.enComp = true ∧
    relocatedCompressedState.bbcmcr.excComp = true ∧
    Admitted chip { compressedAccess with addr := 0xFFF01FFF#32 } .on
      { relocatedCompressedState with bbcmcr := { relocatedCompressedState.bbcmcr with excComp := false } } ∧
    refusalOf (issue chip false { compressedAccess with addr := 0xFFF00000#32 }
      { relocatedCompressedState with bbcmcr := { relocatedCompressedState.bbcmcr with excComp := false } }) = some .relocatedCompressed :=
  ⟨by decide, ⟨by decide, by decide, by decide, by decide⟩, rfl, by decide, ⟨by decide, by decide, by decide, by decide⟩, by decide, rfl,
    rfl, rfl, ⟨by decide, by decide, by decide, by decide⟩, by decide⟩

theorem meets_FetchBetweenEntriesFaults :
    Admitted chip (access 0xFFF00004#32) .off (stateWith 0x0400#32 0x1800#32) ∧ (stateWith 0x0400#32 0x1800#32).superseded = [] ∧
    (stateWith 0x0400#32 0x1800#32).impu.check chip (accessMade chip .off (access 0xFFF00004#32)) .off (chip.freeBit 5) = .allowed ∧
    (stateWith 0x0400#32 0x1800#32).bbcmcr.etre = true ∧ (stateWith 0x0400#32 0x1800#32).bbcmcr.enComp = false ∧
    0xFFF00000#32 ≤ 0xFFF00004#32 ∧ 0xFFF01FFC#32 ≤ 0xFFF01FFF#32 ∧ (0xFFF00004#32).toNat % 256 ≠ 0 ∧
    (0xFFF01FFC#32).toNat % 256 ≠ 0 :=
  ⟨⟨by decide, by decide, by decide, by decide⟩, rfl, by decide, by decide, by decide, by decide, by decide, by decide, by decide⟩

/-- Plain code; the first fetch after reset; the vector of the IMPU's exception, relocated (95_test_vectors B7). -/
theorem meets_AllowedFetchDeliversWord :
    (ServedAtOnce chip (access 0x2000#32) .off (stateWith 0x0400#32 0x2000#32) ∧ (access 0x2000#32).dbg = false ∧
      (stateWith 0x0400#32 0x2000#32).impu.check chip (accessMade chip .off (access 0x2000#32)) .off (chip.freeBit 5) = .allowed ∧
      relocationMeaningless chip (stateWith 0x0400#32 0x2000#32).bbcmcr .off 0x2000#32 = false ∧
      relocate chip (stateWith 0x0400#32 0x2000#32).bbcmcr 0x2000#32 = .addr 0x2000#32 ∧
      Memory.storedIn (stateWith 0x0400#32 0x2000#32).stored 0x2000#32 = false ∧ Memory.storedIn [0x2003#32] 0x2000#32 = true) ∧
    ServedAtOnce chip State.reset.acc .off (stateWith 0#32 0#32) ∧
    ServedAtOnce chip { access 0xFFF01300#32 with entry := true } .off (stateWith 0x0400#32 0x1000#32) ∧
    relocate chip (stateWith 0x0400#32 0x1000#32).bbcmcr 0xFFF01300#32 = .addr 0x00400098#32 ∧
    gives (fetch chip { access 0xFFF01300#32 with entry := true } (stateWith 0x0400#32 0x1000#32))
      (fun t => (t.out.bus.map BusAccess.dest, t.out.executes)) = some ([.memory 0x00400098#32], true) :=
  ⟨⟨⟨⟨by decide, by decide, by decide, by decide⟩, rfl, rfl⟩, rfl, by decide, by decide, by decide, rfl, by decide⟩,
    ⟨⟨by decide, by decide, by decide, by decide⟩, rfl, rfl⟩, ⟨⟨by decide, by decide, by decide, by decide⟩, rfl, rfl⟩, by decide,
    by decide⟩

/-- A fetch, an access issued ahead, and an answer that puts a further word of a decompression on the U-bus. -/
theorem meets_BurstRequestExactlyWhenEnabled :
    (stateWith 0x0400#32 0x2000#32).superseded = [] ∧
    gives (fetch chip (access 0x20000#32) (stateWith 0x0400#32 0x2000#32)) (fun t => t.out.bus.map (fun b => b.burst)) = some [true] ∧
    gives (issue chip false (access 0x20000#32) (stateWith 0x0400#32 0x2000#32)) (fun t => t.out.bus.map (fun b => b.burst)) =
      some [true] ∧
    pendingOn.gov.be = compressedState.bbcmcr.be ∧
    gives (answer chip false { compressedState with pending := [pendingOn] }) (fun t => t.out.bus.map (fun b => (b.dest, b.burst))) =
      some [(.memory 0x0010004C#32, false)] := by
  decide

/-- A debug port access of plain code, one of compressed code, and the answer to a pending one. -/
theorem meets_DebugFetchGoesToDebugPort :
    (Admitted chip { access 0x2000#32 with dbg := true } .off (stateWith 0x0400#32 0x2000#32) ∧
      (stateWith 0x0400#32 0x2000#32).impu.check chip (accessMade chip .off { access 0x2000#32 with dbg := true }) .off
        (chip.freeBit 5) = .allowed ∧
      relocationMeaningless chip ((stateWith 0x0400#32 0x2000#32).governing chip) .off 0x2000#32 = false ∧
      relocate chip ((stateWith 0x0400#32 0x2000#32).governing chip) 0x2000#32 = .addr 0x2000#32) ∧
    Admitted chip { compressedAccess with dbg := true } .on compressedState ∧
    gives (fetch chip { compressedAccess with dbg := true } compressedState)
      (fun t => (t.out.bus.map (fun b => (b.dest, b.burst)), t.out.word, t.out.next)) =
        some ([(.debugPort, false)], some 0#32, some 0#32) ∧
    ({ pendingOne with acc := { pendingOne.acc with dbg := true } } : Pending).refused = none ∧
    (stateWith 0x0400#32 0#32).impu.check chip { pendingOne.acc with dbg := true } .off (chip.freeBit 0) = .allowed :=
  ⟨⟨⟨by decide, by decide, by decide, by decide⟩, by decide, by decide, by decide⟩, ⟨by decide, by decide, by decide, by decide⟩,
    by decide, rfl, by decide⟩

/-- A refused fetch of plain code, protected and guarded, and one of compressed code, in a region for plain code only. -/
theorem meets_ViolationTakesImpuException :
    (Admitted chip (userAccess 0x2000#32 false) .off (stateWith 0x0400#32 0#32) ∧
      (stateWith 0x0400#32 0#32).impu.check chip (accessMade chip .off (userAccess 0x2000#32 false)) .off (chip.freeBit 5) =
        .violation false) ∧
    (stateWith 0x0440#32 0#32).impu.check chip (accessMade chip .off { access 0x2000#32 with spec := true }) .off (chip.freeBit 5) =
      .violation true ∧
    Admitted chip refusedOnAccess .on { compressedState with impu := (stateWith 0x0810#32 0#32).impu } ∧
    (stateWith 0x0810#32 0#32).impu.check chip (accessMade chip .on refusedOnAccess) .on (chip.freeBit 5) = .violation false :=
  ⟨⟨⟨by decide, by decide, by decide, by decide⟩, by decide⟩, by decide, ⟨by decide, by decide, by decide, by decide⟩, by decide⟩

/-- A refused access without and with the program trace attribute, one issued ahead, and one for the debug port. -/
theorem meets_CancelledAccessShownOnlyWithAttributes :
    (accessMode chip ((stateWith 0x0400#32 0#32).governing chip) (userAccess 0x2000#32 false) = .off ∧
      (stateWith 0x0400#32 0#32).impu.check chip (accessMade chip .off (userAccess 0x2000#32 false)) .off (chip.freeBit 5) =
        .violation false) ∧
    gives (fetch chip (userAccess 0x2000#32 false) (stateWith 0x0400#32 0#32)) (fun t => t.out.bus.length) = some 0 ∧
    gives (fetch chip { userAccess 0x2000#32 false with ptrace := true } (stateWith 0x0400#32 0#32))
      (fun t => t.out.bus.map (fun b => (b.dest, b.ptrace, b.dbg, b.cancelled))) = some [(.memory 0x2000#32, true, false, true)] ∧
    gives (issue chip false { userAccess 0x2000#32 false with showCycle := true } (stateWith 0x0400#32 0#32))
      (fun t => t.out.bus.map (fun b => (b.dest, b.showCycle, b.cancelled))) = some [(.memory 0x2000#32, true, true)] ∧
    gives (fetch chip { userAccess 0x2000#32 false with ptrace := true, dbg := true } (stateWith 0x0400#32 0#32))
      (fun t => t.out.bus.map (fun b => (b.dest, b.ptrace, b.dbg, b.cancelled))) = some [(.debugPort, true, true, true)] := by
  decide

theorem meets_StandbyServesNothing :
    (({ State.reset with inputs := [.standbyEnter] } : State).inputs = .standbyEnter :: [] ∧ State.reset.pending = []) ∧
    ({ State.reset with mode := .powerSave } : State).mode = .powerSave ∧
    ({ State.reset with mode := .powerSave } : State).inputs = [] := ⟨⟨rfl, rfl⟩, rfl, rfl⟩

theorem meets_StandbyKeepsRegisters :
    (({ State.reset with inputs := [.standbyEnter] } : State).inputs = .standbyEnter :: [] ∧ State.reset.pending = []) ∧
    ({ State.reset with mode := .powerSave, inputs := [.standbyExit] } : State).inputs = .standbyExit :: [] := ⟨⟨rfl, rfl⟩, rfl⟩

theorem meets_OnModeNeedsEnComp :
    State.reset.mode ≠ .powerSave ∧ ({ access 0#32 with dmode := .on } : Access).dmode = .on ∧ (access 0#32).entry = false ∧
    chip555.hasComp = false ∧ State.reset.bbcmcr.enComp = false := by decide

/-- A vector fetched in Decompression ON mode, and one fetched in OFF mode. -/
theorem meets_ExceptionRoutineMode :
    gives (fetch chip State.reset.acc compressedState) (fun t => (t.out.executes, t.acc.dmode, t.out.word)) =
      some (true, .on, some 0x7C70C3A6#32) ∧
    gives (fetch chip State.reset.acc { compressedState with bbcmcr := { compressedState.bbcmcr with excComp := false } })
      (fun t => (t.out.executes, t.acc.dmode)) = some (true, .off) ∧
    gives (transact chip { compressedState with acc := compressedAccess, inputs := [.fetch State.reset.acc] })
      (fun t => t.out.report.isSome) = some false ∧
    State.reset.acc.entry = true ∧ compressedState.superseded = [] ∧ compressedState.pending = [] ∧
    compressedState.out.executes = false := by
  decide

/-- The hypotheses, for compressed code and for a vector fetched in Decompression ON mode, and what DECOMP_SC_EN does to the show cycles
of both words. -/
theorem meets_CompressedFetchDeliversInstruction :
    ServedAtOnce chip compressedAccess .on compressedState ∧ ServedAtOnce chip State.reset.acc .on compressedState ∧
    (compressedAccess.dbg = false ∧ (accessMade chip .on compressedAccess).addr = 0x00012013#32 ∧
      (accessMade chip .on State.reset.acc).addr = 0x00012013#32) ∧
    compressedState.impu.check chip (accessMade chip .on compressedAccess) .on (chip.freeBit 5) = .allowed ∧
    relocationMeaningless chip compressedState.bbcmcr .on compressedAccess.addr = false ∧ compressedState.icdu.prefetched = none ∧
    (decompress chip compressedState.mem compressedAccess.form compressedAccess.addr).map
      (fun d => (d.words.any (Memory.storedIn compressedState.stored), d.words.any (Memory.storedIn [0x0010004F#32]))) =
        some (false, true) ∧
    gives (fetch chip { compressedAccess with showCycle := true } compressedState)
      (fun t => t.out.bus.map (fun b => (b.dest, b.pointers))) =
        some [(.memory 0x00100048#32, none), (.memory 0x0010004C#32, none)] ∧
    gives (fetch chip { compressedAccess with showCycle := true }
        { compressedState with bbcmcr := { compressedState.bbcmcr with decompScEn := true } })
      (fun t => t.out.bus.map (fun b => (b.dest, b.pointers))) =
        some [(.memory 0x00100048#32, some (0#5, 19#5)), (.memory 0x0010004C#32, some (0#5, 19#5))] :=
  ⟨⟨⟨by decide, by decide, by decide, by decide⟩, rfl, rfl⟩, ⟨⟨by decide, by decide, by decide, by decide⟩, rfl, rfl⟩, by decide, by decide,
    by decide, rfl, by decide, by decide, by decide⟩

/-- An indirect branch through LR to plain code, whose word is executed. -/
theorem meets_IndirectBranchGoesToRegister :
    ({ stateWith 0#32 0#32 with inputs := [.indirect .lr] } : State).inputs = .indirect .lr :: [] ∧
    gives (transact chip { stateWith 0#32 0#32 with
        core := { State.reset.core with lr := 0x2000#32 }, inputs := [.indirect .lr] })
      (fun u => (u.delivered.isSome, u.acc.addr)) = some (true, 0x2000#32) ∧
    gives (transact chip { stateWith 0#32 0#32 with
        core := { State.reset.core with srr0 := 0xFFFFFFFC#32 }, inputs := [.indirect .srr0] })
      (fun u => (u.delivered.isSome, u.acc.addr)) = some (true, 0xFFFFFFFC#32) ∧
    gives (transact chip { stateWith 0#32 0#32 with inputs := [.indirect .ctr] })
      (fun u => (u.delivered.isSome, u.acc.addr)) = some (true, 0#32) := by
  decide

/-- Clauses of `AnswersInIssueOrder` in their order: the two events; the access the flow goes to, a vector in Decompression ON mode; an
allowed access issued, with its access on the U-bus; a refused one; the answers to an access of plain code, to one of compressed code, to one that violates by the
values of later, and to one refused ahead. -/
theorem meets_AnswersInIssueOrder :
    (({ State.reset with inputs := [.issue (access 0x2000#32)] } : State).inputs = .issue (access 0x2000#32) :: [] ∧
      ({ State.reset with inputs := [.answer] } : State).inputs = .answer :: [] ∧
      ({ State.reset with pending := [pendingOne] } : State).pending ≠ []) ∧
    ((accessMade chip .on State.reset.acc).addr ≠ State.reset.acc.addr ∧ State.reset.acc.entry = true) ∧
    (Admitted chip (access 0x2000#32) .off (stateWith 0x0400#32 0#32) ∧
      (stateWith 0x0400#32 0#32).impu.check chip (accessMade chip .off (access 0x2000#32)) .off (chip.freeBit 5) = .allowed ∧
      relocationMeaningless chip ((stateWith 0x0400#32 0#32).governing chip) .off 0x2000#32 = false ∧
      relocate chip ((stateWith 0x0400#32 0#32).governing chip) (accessMade chip .off (access 0x2000#32)).addr = .addr 0x2000#32 ∧
      gives (issue chip false (access 0x2000#32) (stateWith 0x0400#32 0#32)) (fun t => t.out.bus.map BusAccess.dest) =
        some [.memory 0x2000#32]) ∧
    (Admitted chip (userAccess 0x2000#32 false) .off (stateWith 0x0400#32 0#32) ∧
      (stateWith 0x0400#32 0#32).impu.check chip (accessMade chip .off (userAccess 0x2000#32 false)) .off (chip.freeBit 5) =
        .violation false) ∧
    (pendingOne.refused = none ∧ pendingOne.acc.dbg = false ∧
      (stateWith 0x0400#32 0#32).impu.check chip pendingOne.acc pendingOne.mode (chip.freeBit 0) = .allowed ∧
      Memory.storedIn State.reset.stored (pendingOne.words.headD pendingOne.acc.addr) = false) ∧
    (pendingOn.refused = none ∧ pendingOn.acc.dbg = false ∧
      pendingOn.judgedBy.check chip pendingOn.acc pendingOn.mode (chip.freeBit 0) = .allowed ∧
      (icduDecode chip compressedState.mem compressedState.icdu pendingOn.acc.form pendingOn.acc.addr).map
        (fun d => d.words.any (Memory.storedIn compressedState.stored)) = some false) ∧
    (pendingOne.refused = none ∧
      (stateWith 0x0800#32 0#32).impu.check chip { pendingOne.acc with spec := true } pendingOne.mode (chip.freeBit 0) = .allowed ∧
      (stateWith 0x0440#32 0#32).impu.check chip { pendingOne.acc with spec := true } pendingOne.mode (chip.freeBit 0) =
        .violation true) ∧
    ({ pendingOne with words := [], refused := some false } : Pending).refused = some false :=
  ⟨⟨rfl, rfl, by decide⟩, by decide, ⟨⟨by decide, by decide, by decide, by decide⟩, by decide, by decide, by decide, by decide⟩,
    ⟨⟨by decide, by decide, by decide, by decide⟩, by decide⟩, ⟨rfl, rfl, by decide, rfl⟩, ⟨rfl, rfl, by decide, by decide⟩,
    ⟨rfl, by decide, by decide⟩, rfl⟩

theorem meets_HalvesOfTwoPointerAddress :
    docBit 0x00012800#32 21 = false ∧ (docBit 0x0001242A#32 21 = true ∧ docBit 0x0001242A#32 20 = false) ∧
    docBit 0x00012C8D#32 21 = true ∧ docBit 0x00012C8D#32 20 = true := by decide

/-- The last place of each part, with the boundary at 19 and at 12. -/
theorem meets_StreamsStayInTheirPart :
    inStream chip compressedMemory .left { word := 0x00100048#32, bit := 18 } = true ∧
    inStream chip compressedMemory .left { word := 0x00100048#32, bit := 19 } = false ∧
    inStream chip compressedMemory .right { word := 0x00100048#32, bit := 30 } = true ∧
    inStream chip compressedMemory .right { word := 0x00100048#32, bit := 31 } = false ∧
    inStream chip compressedMemory .left { word := 0x0010004C#32, bit := 11 } = true ∧
    inStream chip compressedMemory .right { word := 0x0010004C#32, bit := 12 } = true := by
  decide

theorem meets_NextAddressNamesReachedPlaces :
    (0x0010004C#32 = chip.compBase + BitVec.ofNat 32 (4 * 0x13) ∧ 0x00100048#32 = chip.compBase + BitVec.ofNat 32 (4 * 0x12)) ∧
    0x004FFFFC#32 = chip.compBase + BitVec.ofNat 32 (4 * 0xFFFFF) ∧ 0xFFFFF < 2 ^ 20 ∧
    twoPointerOf chip { word := 0x00100048#32, bit := 11 } { word := 0x0010004C#32, bit := 13 } = 0x0001256D#32 := by
  decide

theorem meets_PrefetchChangesNoValue : PrefetchAgrees State.reset := by
  intro d h
  cases h

theorem meets_ResetEvents :
    ({ State.reset with inputs := [.hardReset { rcw21 := true, rcw22 := true, ip := true }] } : State).inputs =
      .hardReset { rcw21 := true, rcw22 := true, ip := true } :: [] ∧
    ({ State.reset with inputs := [.powerOn { rcw21 := false, rcw22 := false, ip := false }] } : State).inputs =
      .powerOn { rcw21 := false, rcw22 := false, ip := false } :: [] := ⟨rfl, rfl⟩

/-- First clause: the transaction delivers `isync`. -/
theorem meets_StepRunsDecodedInstruction_delivered :
    gives (transact Config.chip (running 0x4C00012C 0#32)) (fun u => (u.delivered, u.acc.dmode)) =
      some (some 0x4C00012C#32, .off) ∧ decodeWord .off 0x4C00012C#32 = .ok .isync := by
  decide

/-- Second clause: plain code with protection off, and the same at the exception vector the core starts with. -/
theorem meets_StepRunsDecodedInstruction_own :
    ((running 0x4C00012C 0#32).inputs = [] ∧
      ServedAtOnce Config.chip (running 0x4C00012C 0#32).acc .off (running 0x4C00012C 0#32) ∧ (running 0x4C00012C 0#32).acc.dbg = false) ∧
    (running 0x4C00012C 0#32).impu.check Config.chip (accessMade Config.chip .off (running 0x4C00012C 0#32).acc) .off
      (Config.chip.freeBit 5) = .allowed ∧
    relocationMeaningless Config.chip (running 0x4C00012C 0#32).bbcmcr .off (running 0x4C00012C 0#32).acc.addr = false ∧
    relocate Config.chip (running 0x4C00012C 0#32).bbcmcr (running 0x4C00012C 0#32).acc.addr = .addr 0x100#32 ∧
    Memory.storedIn (running 0x4C00012C 0#32).stored 0x100#32 = false ∧
    decodeWord .off (Memory.readWord Config.chip (running 0x4C00012C 0#32).mem 0x100#32) = .ok .isync ∧
    ServedAtOnce Config.chip State.reset.acc .off { running 0x4C00012C 0#32 with acc := State.reset.acc } :=
  ⟨⟨rfl, ⟨⟨by decide, by decide, by decide, by decide⟩, rfl, rfl⟩, rfl⟩, by decide, by decide, by decide, rfl, by decide,
    ⟨⟨by decide, by decide, by decide, by decide⟩, rfl, rfl⟩⟩

theorem meets_PlacedInstructionRuns : decodeTableWord 32 0x7FF082A6 = some (.mfsprMiGra 31#5) ∧
    relocationMeaningless Config.chip (State.reset.governing Config.chip) .off 0#32 = false := by decide

/-- A step of the core's own flow from the state after reset: no reset, a next state; the hypotheses of `NoStepWritesMemory`,
`OnlyResetChangesEnComp` and, with a register changed, of `OnlySupervisorMtsprWritesRegisters`. -/
theorem meets_OnlySupervisorMtsprWritesRegisters :
    NoReset (running 0x7C70C3A6 0x00400FFF#32) ∧ ∃ t, step (running 0x7C70C3A6 0x00400FFF#32) = .next t ∧
      ¬SameRegisters (running 0x7C70C3A6 0x00400FFF#32) t := by
  refine ⟨fun w => ⟨by simp [running, State.withFetchWord, State.placedFor], by simp [running, State.withFetchWord, State.placedFor]⟩, ?_⟩
  obtain ⟨t, ht, h⟩ := next_of_gives (o := step (running 0x7C70C3A6 0x00400FFF#32))
    (f := fun t => decide (t.impu.rba[0] ≠ (running 0x7C70C3A6 0x00400FFF#32).impu.rba[0])) (by decide)
  exact ⟨t, ht, fun hs => by simp [hs.1] at h⟩

theorem meets_UserModeKeepsRegisters :
    NoReset ({ State.reset with acc := userAccess 0x100#32 false }.withFetchWord 32 0x4C00012C) ∧
    nextPriv ({ State.reset with acc := userAccess 0x100#32 false }.withFetchWord 32 0x4C00012C) = .user ∧
    ∃ t, step ({ State.reset with acc := userAccess 0x100#32 false }.withFetchWord 32 0x4C00012C) = .next t := by
  refine ⟨fun w => ⟨by simp [State.withFetchWord, State.placedFor], by simp [State.withFetchWord, State.placedFor]⟩, rfl, ?_⟩
  obtain ⟨t, ht, -⟩ := next_of_gives (o := step ({ State.reset with acc := userAccess 0x100#32 false }.withFetchWord 32 0x4C00012C))
    (f := fun _ => true) (by decide)
  exact ⟨t, ht⟩

/-- A state that meets the invariant and steps: an `isync` placed in the state after reset. -/
theorem meets_EveryStepKeepsInvariant : (running 0x4C00012C 0#32).Inv ∧ ∃ t, step (running 0x4C00012C 0#32) = .next t := by
  refine ⟨⟨by decide, by simp [StandbyIdle, running, State.withFetchWord, State.placedFor], ?_,
    fun _ => ⟨rfl, rfl, rfl, rfl, by decide⟩, ?_⟩, ?_⟩
  · intro d h
    cases h
  · intro e h
    simp [running, State.withFetchWord, State.placedFor] at h
  · obtain ⟨t, ht, -⟩ := next_of_gives (o := step (running 0x4C00012C 0#32)) (f := fun _ => true) (by decide)
    exact ⟨t, ht⟩

end Sys2Proof.Tests
end

section
/-!
PROOFS. What a transaction leaves of the core's privilege level, and the claims about who changes the ten registers
(10_state R22, R43; 44_spr_access R292).
-/

namespace Sys2Proof.Machine

/-! ### Which operations hand a word to the core -/

@[simp] theorem State.reportViolation_executes (g : Bool) (acc : Access) (s : State) :
    (s.reportViolation g acc).out.executes = s.out.executes := rfl

@[simp] theorem State.refuseAccess_executes (p : Config.Params) (t g : Bool) (gov : Bbcmcr) (acc : Access) (m : DMode) (s : State) :
    (s.refuseAccess p t g gov acc m).out.executes = s.out.executes := by
  simp only [State.refuseAccess]; split <;> split <;> simp

@[simp] theorem State.answerDebug_executes (p : Config.Params) (m : DMode) (s : State) :
    (s.answerDebug p m).out.executes = s.out.executes := by cases m <;> rfl

/-- A state that delivers a word is one in which the core executes. -/
theorem State.executes_of_delivered {s : State} {w : Word} (h : s.delivered = some w) : s.out.executes = true := by
  unfold State.delivered at h
  split at h
  · assumption
  · cases h

/-- Issuing an access hands the core no word. -/
theorem issue_executes {p : Config.Params} {taken : Bool} {acc : Access} {s t : State} (h : issue p taken acc s = .next t) :
    t.out.executes = s.out.executes := by
  obtain ⟨-, ⟨_, _, _, _, rfl⟩ | ⟨_, _, _, _, _, _, rfl⟩⟩ := issue_next h
  · split <;> simp
  · simp

/-- Delivering data leaves the access, the mode, the queue and the order to execute alone. -/
theorem delivers_keeps {p : Config.Params} {e : Pending} {s t : State} (h : Delivers p e s t) :
    t.acc = s.acc ∧ t.mode = s.mode ∧ t.pending = s.pending ∧ t.out.executes = s.out.executes := by
  obtain ⟨-, rfl⟩ | ⟨-, -, -, rfl⟩ | ⟨-, -, d, -, -, rfl⟩ := h <;> simp

/-- Entering standby makes the mode power save and empties the queue. -/
theorem standbyEnter_next {s t : State} (h : standbyEnter s = .next t) : t = { s with mode := .powerSave, pending := [] } := by
  unfold standbyEnter at h
  split at h <;> cases h
  rfl

/-- Leaving standby changes the mode at most, to idle. -/
theorem standbyExit_eq (s : State) : standbyExit s = s ∨ standbyExit s = { s with mode := .idle } := by
  unfold standbyExit
  split
  · exact .inr rfl
  · exact .inl rfl

/-! ### The privilege level at which a delivered word is executed -/

/-- An answer that makes the core execute leaves its privilege level alone. -/
theorem answer_priv {p : Config.Params} {wanted : Bool} {s t : State} (h : answer p wanted s = .next t)
    (hs : s.out.executes = false) (ht : t.out.executes = true) : t.acc.priv = s.acc.priv := by
  obtain ⟨-, rfl⟩ | ⟨e, rest, -, ha⟩ := answer_next h
  · rfl
  · obtain ⟨_, -, rfl⟩ | ⟨_, -, rfl⟩ | ⟨u, -, hu, rfl⟩ := ha
    · split at ht <;> simp [hs] at ht
    · simp [hs] at ht
    · obtain ⟨hacc, -, -, -⟩ := delivers_keeps hu
      cases wanted <;> simp [hacc]

/-- An access of the core's flow that joins the queue leaves the core's access alone; a refused one does not join it. -/
theorem issue_taken_acc {p : Config.Params} {acc : Access} {s t : State} (h : issue p true acc s = .next t)
    (hs : s.pending = []) (ht : t.pending ≠ []) : t.acc = s.acc := by
  obtain ⟨-, ⟨_, _, _, _, rfl⟩ | ⟨_, _, _, _, _, _, rfl⟩⟩ := issue_next h
  · simp [hs] at ht
  · simp

/-- A fetch that makes the core execute does so at the privilege level of its access. -/
theorem fetch_priv {p : Config.Params} {acc : Access} {s t : State} (h : fetch p acc s = .next t)
    (hs : s.out.executes = false) (ht : t.out.executes = true) : t.acc.priv = acc.priv := by
  obtain ⟨u, hu, rfl | ⟨hp, hn, ha⟩⟩ := fetch_next h
  · simp [issue_executes hu, hs] at ht
  · have hue : u.out.executes = false := by simp [issue_executes hu, hs]
    rw [answer_priv ha hue ht, issue_taken_acc hu hp hn, State.flowTo_acc]

/-- An event that makes the core execute does so at the privilege level of the event's access, or at the core's. -/
theorem occur_priv {p : Config.Params} {e : Event} {s t : State} (h : occur p e s = .next t) (hs : s.out.executes = false)
    (ht : t.out.executes = true) : t.acc.priv = nextPriv { s with inputs := [e] } := by
  cases e with
  | fetch acc =>
    refine fetch_priv h ?_ ht
    split <;> simp [hs]
  | issue acc => rw [issue_executes h, hs] at ht; cases ht
  | answer => exact (answer_priv (s := s) h hs ht).trans rfl
  | indirect src => exact (fetch_priv (s := s.dropPrefetch) h hs ht).trans rfl
  | powerOn w => cases h; simp [hs] at ht
  | hardReset w => cases h; simp [hs] at ht
  | standbyEnter => rw [standbyEnter_next h]; rfl
  | standbyExit => cases h; obtain hx | hx := standbyExit_eq s <;> (rw [hx]; rfl)

/-- A word the core executes in a step is executed at the privilege level `nextPriv` names. -/
theorem transact_priv {p : Config.Params} {s t : State} (h : transact p s = .next t) (ht : t.out.executes = true) :
    t.acc.priv = nextPriv s := by
  obtain ⟨hi, hg⟩ | ⟨e, rest, hi, ho⟩ := transact_next h
  · have hn : nextPriv s = s.acc.priv := by simp [nextPriv, hi]
    rw [hn]
    obtain ⟨-, rfl⟩ | ⟨-, -, hf⟩ | ⟨-, -, ha⟩ := goOn_next hg
    · rfl
    · exact fetch_priv hf rfl ht
    · exact answer_priv (s := s.cleared) ha rfl ht
  · rw [occur_priv ho rfl ht]
    cases e <;> simp [nextPriv, hi]

/-! ### Who changes the ten registers -/

/-- Completing an instruction changes one of the ten registers only by an `mtspr` to one of them that runs. -/
theorem Completes.sameRegisters_or_writes {i : Instr} {s t : State} (h : Completes i s t) :
    SameRegisters s t ∨ ∃ r rS, WritesSpr i r rS ∧ SprAccessRuns s := by
  cases h with
  | wrote r rS hi hs ht => exact .inr ⟨r, rS, hi, hs⟩
  | read r rD hi hs ht => subst ht; exact .inl ⟨rfl, rfl⟩
  | own ht => subst ht; exact .inl ⟨rfl, rfl⟩
  | settled hi ht => subst ht; exact .inl ⟨rfl, rfl⟩
  | went a f lk hi ht => subst ht; exact .inl ⟨by simp, by simp⟩
  | chose a f lk hi ht => subst ht; exact .inl ⟨by simp, by simp⟩

/-- A write of a register of the module leaves EN_COMP alone. -/
@[simp] theorem State.writeSpr_enComp (p : Config.Params) (r : Spr) (v : Word) (s : State) :
    (s.writeSpr p r v).bbcmcr.enComp = s.bbcmcr.enComp := by cases r <;> rfl

/-- Completing an instruction leaves EN_COMP alone. -/
theorem Completes.enComp {i : Instr} {s t : State} (h : Completes i s t) : t.bbcmcr.enComp = s.bbcmcr.enComp := by
  cases h with
  | wrote r rS hi hs ht => subst ht; simp
  | read r rD hi hs ht => subst ht; rfl
  | own ht => subst ht; rfl
  | settled hi ht => subst ht; rfl
  | went a f lk hi ht => subst ht; simp
  | chose a f lk hi ht => subst ht; simp

/-- Settles O58: a transaction keeps the registers, and of the instructions only an `mtspr` that runs writes one. -/
theorem onlySupervisorMtsprWritesRegisters : Obligations.OnlySupervisorMtsprWritesRegisters := by
  intro s t h hr hne
  obtain ⟨u, hu, hx⟩ := step_next h
  obtain ⟨himpu, hbbcmcr, -⟩ := transact_keeps hu hr
  have same {v : State} (hv : SameRegisters u v) : SameRegisters s v := ⟨hv.1.trans himpu, hv.2.trans hbbcmcr⟩
  obtain ⟨-, rfl⟩ | ⟨w, i, hd, hi, he⟩ | ⟨w, e, -, -, rfl⟩ := hx
  · exact absurd (same ⟨rfl, rfl⟩) hne
  · obtain hsame | ⟨r, rS, hw, hs⟩ := (exec_completes he).sameRegisters_or_writes
    · exact absurd (same hsame) hne
    · exact ⟨u, w, i, r, rS, hu, hd, hi, hw, hs⟩
  · exact absurd (same ⟨rfl, rfl⟩) hne

/-- Settles O57: what changes a register runs in supervisor mode, and the level it runs at is that of the step's access. -/
theorem userModeKeepsRegisters : Obligations.UserModeKeepsRegisters := by
  intro s t h hr hp
  by_contra hne
  obtain ⟨u, w, i, r, rS, hu, hd, -, -, -, hsup⟩ := onlySupervisorMtsprWritesRegisters s t h hr hne
  rw [transact_priv hu (State.executes_of_delivered hd), hp] at hsup
  cases hsup

/-- Settles O56: neither a transaction that is no reset nor any instruction changes EN_COMP. -/
theorem onlyResetChangesEnComp : Obligations.OnlyResetChangesEnComp := by
  intro s t h hr
  obtain ⟨u, hu, hx⟩ := step_next h
  obtain ⟨-, hbbcmcr, -⟩ := transact_keeps hu hr
  rw [← hbbcmcr]
  obtain ⟨-, rfl⟩ | ⟨w, i, -, -, he⟩ | ⟨w, e, -, -, rfl⟩ := hx
  · rfl
  · exact (exec_completes he).enComp
  · rfl

end Sys2Proof.Machine
end

section
/-!
PROOFS. The invariant of the machine, kept by every operation and so by every step (10_state R29, R47, R51; 20_memory R75;
40_compression R131, R151; 41_modes_of_operation R191).
-/

namespace Sys2Proof.Machine

/-! ### The prefetched instruction -/

/-- With nothing prefetched the prefetched instruction agrees. -/
theorem PrefetchAgrees.of_none {s : State} (h : s.icdu.prefetched = none) : PrefetchAgrees s := by
  intro d hd
  rw [h] at hd
  cases hd

/-- The same prefetched instruction agrees with the same memory. -/
theorem PrefetchAgrees.congr {s t : State} (h : PrefetchAgrees s) (hi : t.icdu.prefetched = s.icdu.prefetched)
    (hm : t.mem = s.mem) : PrefetchAgrees t := by
  intro d hd
  rw [hm]
  exact h d (hi ▸ hd)

/-- What the ICDU prefetches when it delivers an instruction agrees with memory. -/
theorem PrefetchAgrees.of_icduAfter {s : State} {d : Decoded} (h : s.icdu = icduAfter Config.chip s.mem d) : PrefetchAgrees s := by
  intro d' hd
  have hn : decompress Config.chip s.mem .twoPointer d.next = some d' := by rw [h] at hd; exact hd
  obtain ⟨ha, -⟩ := decompress_some hn
  rw [ha, hn]

/-- Delivered data leaves an agreeing prefetched instruction. -/
theorem PrefetchAgrees.delivers {e : Pending} {s t : State} (h : PrefetchAgrees s) (hd : Delivers Config.chip e s t) :
    PrefetchAgrees t := by
  obtain ⟨-, rfl⟩ | ⟨-, -, -, rfl⟩ | ⟨-, -, d, -, -, rfl⟩ := hd
  · cases hm : e.mode with
    | off => exact h.congr rfl rfl
    | on => exact .of_none rfl
  · exact h.congr rfl rfl
  · exact .of_icduAfter (d := d) (by simp)

/-- Handing a word over, or passing it over, leaves an agreeing prefetched instruction. -/
theorem PrefetchAgrees.handOver {wanted : Bool} {acc : Access} {s t : State} (hs : PrefetchAgrees s) (ht : PrefetchAgrees t)
    (hm : t.mem = s.mem) : PrefetchAgrees (t.handOver wanted acc s.icdu) := by
  cases wanted with
  | false => exact hs.congr rfl hm
  | true =>
    cases hd : acc.dmode with
    | off => exact .of_none (by simp [hd])
    | on => exact ht.congr (by simp [hd]) (by simp)

/-! ### Carrying the invariant over -/

/-- The invariant of a state with the same registers and memory needs the other three parts only. -/
theorem State.Inv.of_same_registers {s t : State} (hs : s.Inv) (hi : t.impu = s.impu) (hb : t.bbcmcr = s.bbcmcr)
    (hm : t.mem = s.mem) (standby : StandbyIdle t) (prefetch : PrefetchAgrees t) (pending : PendingAdmitted t) : t.Inv where
  memory := hm ▸ hs.memory
  standby := standby
  prefetch := prefetch
  mpc555 := by simpa only [CompressionAbsent, hi, hb] using hs.mpc555
  pending := pending

/-- The invariant of a state with the same registers, memory, mode and queue needs the prefetched instruction only. -/
theorem State.Inv.congr {s t : State} (hs : s.Inv) (hi : t.impu = s.impu) (hb : t.bbcmcr = s.bbcmcr) (hm : t.mem = s.mem)
    (hc : t.mode = s.mode) (hq : t.pending = s.pending) (prefetch : PrefetchAgrees t) : t.Inv :=
  hs.of_same_registers hi hb hm (by simpa only [StandbyIdle, hc, hq] using hs.standby) prefetch
    (by simpa only [PendingAdmitted, hb, hq] using hs.pending)

/-- The oldest pending access leaves the queue. -/
theorem State.Inv.pop {s : State} {e : Pending} {rest : List Pending} (hs : s.Inv) (hp : s.pending = e :: rest) (n : Nat) :
    State.Inv { s with pending := rest, draws := n } := by
  refine hs.of_same_registers rfl rfl rfl (fun hm => ?_) (hs.prefetch.congr rfl rfl) (fun e' he' => hs.pending e' ?_)
  · have := hs.standby hm
    rw [hp] at this
    cases this
  · rw [hp]
    exact List.mem_cons_of_mem _ he'

/-! ### Issuing and answering -/

/-- Every access pending after an issue was pending before, or is the one issued. -/
theorem issue_pending {p : Config.Params} {taken : Bool} {acc : Access} {s t : State} (h : issue p taken acc s = .next t)
    {e : Pending} (he : e ∈ t.pending) :
    e ∈ s.pending ∨ e.mode = accessMode p (s.governing p) acc ∧ e.acc = accessMade p e.mode acc := by
  obtain ⟨-, ⟨m, _, rfl, _, rfl⟩ | ⟨m, _, rfl, _, _, _, rfl⟩⟩ := issue_next h
  · cases taken with
    | true => exact .inl (by simpa using he)
    | false =>
      obtain he | rfl := by simpa using he
      · exact .inl he
      · exact .inr ⟨rfl, rfl⟩
  · obtain he | rfl := by simpa using he
    · exact .inl he
    · exact .inr ⟨rfl, rfl⟩

/-- An issued access makes the controller active, and keeps what is prefetched or discards it. -/
theorem issue_mode_prefetched {p : Config.Params} {taken : Bool} {acc : Access} {s t : State} (h : issue p taken acc s = .next t) :
    t.mode = .active ∧ (t.icdu.prefetched = none ∨ t.icdu = s.icdu) := by
  obtain ⟨-, ⟨_, _, _, _, rfl⟩ | ⟨_, _, _, _, _, _, rfl⟩⟩ := issue_next h
  · cases taken <;> simp
  · simp

/-- Issuing an access keeps the invariant. -/
theorem State.Inv.issue {taken : Bool} {acc : Access} {s t : State} (hs : s.Inv)
    (h : issue Config.chip taken acc s = .next t) : t.Inv := by
  obtain ⟨⟨-, -, hon, hoff⟩, -⟩ := issue_next h
  have hu := issue_undisturbed h
  obtain ⟨hmode, hpre⟩ := issue_mode_prefetched h
  refine hs.of_same_registers hu.impu hu.bbcmcr hu.mem (fun hm => ?_) ?_ (fun e he => ?_)
  · rw [hmode] at hm
    cases hm
  · obtain hnone | hsame := hpre
    · exact .of_none hnone
    · exact hs.prefetch.congr (by rw [hsame]) hu.mem
  · rw [hu.bbcmcr]
    obtain hold | ⟨hem, hea⟩ := issue_pending h he
    · exact hs.pending e hold
    · rw [hea, hem]
      exact ⟨hoff, hon⟩

/-- What an answer does after the access left the queue keeps the invariant. -/
theorem State.Inv.answers {wanted : Bool} {e : Pending} {s t : State} (hs : s.Inv) (h : Answers Config.chip wanted e s t) :
    t.Inv := by
  obtain ⟨guarded, -, rfl⟩ | ⟨guarded, -, rfl⟩ | ⟨u, -, hu, rfl⟩ := h
  · cases wanted with
    | false => exact hs
    | true => exact hs.congr rfl rfl rfl rfl rfl (.of_none rfl)
  · refine hs.congr (by simp) (by simp) (by simp) (by simp) (by simp) ?_
    cases wanted with
    | false => exact hs.prefetch.congr (by simp) (by simp)
    | true => exact .of_none (by simp)
  · have hk := delivers_undisturbed hu
    obtain ⟨-, hmode, hpending, -⟩ := delivers_keeps hu
    exact hs.congr (by simp [hk.impu]) (by simp [hk.bbcmcr]) (by simp [hk.mem]) (by simp [hmode]) (by simp [hpending])
      (hs.prefetch.handOver (hs.prefetch.delivers hu) hk.mem)

/-- An answer keeps the invariant. -/
theorem State.Inv.answer {wanted : Bool} {s t : State} (hs : s.Inv) (h : answer Config.chip wanted s = .next t) : t.Inv := by
  obtain ⟨-, rfl⟩ | ⟨e, rest, hp, ha⟩ := answer_next h
  · exact hs
  · exact (hs.pop hp _).answers ha

/-- A fetch keeps the invariant. -/
theorem State.Inv.fetch {acc : Access} {s t : State} (hs : s.Inv) (h : fetch Config.chip acc s = .next t) : t.Inv := by
  have hf : (s.flowTo acc).Inv := by
    refine hs.congr rfl rfl rfl rfl rfl ?_
    cases hp : s.icdu.hasPrefetched acc with
    | false => exact .of_none (by simp [hp])
    | true => exact hs.prefetch.congr (by simp [hp]) rfl
  obtain ⟨u, hu, rfl | ⟨-, -, ha⟩⟩ := fetch_next h
  · exact hf.issue hu
  · exact (hf.issue hu).answer ha

/-! ### Resets, standby and events -/

/-- A state with the fields that both resets set meets the invariant, if MI_RA holds no CMPR on the MPC555. -/
theorem State.Inv.of_reset {s t : State} {w : ResetWord} (hs : s.Inv) (hm : t.mem = s.mem) (hq : t.pending = [])
    (hi : t.icdu = resetIcdu) (hb : t.bbcmcr = resetBbcmcr Config.chip w) (hg : t.impu.gra = resetGra)
    (hr : Config.chip.hasComp = false → ∀ k : Fin 4, t.impu.ra[k].cmpr = 0#2) : t.Inv where
  memory := hm ▸ hs.memory
  standby := fun _ => hq
  prefetch := .of_none (by rw [hi]; rfl)
  mpc555 := fun hc => ⟨by simp [hb, resetBbcmcr, hc], by simp [hb, resetBbcmcr, hc], by simp [hb, resetBbcmcr, hc],
    by rw [hg]; rfl, hr hc⟩
  pending := by
    intro e he
    rw [hq] at he
    cases he

/-- A hard reset keeps the invariant. -/
theorem State.Inv.hardReset {s : State} (hs : s.Inv) (w : ResetWord) : (s.hardReset Config.chip w).Inv :=
  hs.of_reset rfl rfl rfl rfl rfl fun hc => by
    obtain ⟨-, -, -, -, hra⟩ := hs.mpc555 hc
    exact hra

/-- A power-on reset keeps the invariant. -/
theorem State.Inv.powerOn {s : State} (hs : s.Inv) (w : ResetWord) : (s.powerOn Config.chip w).Inv :=
  hs.of_reset rfl rfl rfl rfl rfl fun hc k => by simp [State.powerOn, powerOnImpu, RaReg.write, hc]

/-- Standby entry keeps the invariant. -/
theorem State.Inv.standbyEnter {s t : State} (hs : s.Inv) (h : standbyEnter s = .next t) : t.Inv := by
  rw [standbyEnter_next h]
  exact hs.of_same_registers rfl rfl rfl (fun _ => rfl) (hs.prefetch.congr rfl rfl) (by simp [PendingAdmitted])

/-- Standby exit keeps the invariant. -/
theorem State.Inv.standbyExit {s : State} (hs : s.Inv) : (standbyExit s).Inv := by
  obtain hx | hx := standbyExit_eq s
  · rwa [hx]
  · rw [hx]
    exact hs.of_same_registers rfl rfl rfl (by simp [StandbyIdle]) (hs.prefetch.congr rfl rfl) hs.pending

/-- An event keeps the invariant. -/
theorem State.Inv.occur {e : Event} {s t : State} (hs : s.Inv) (h : occur Config.chip e s = .next t) : t.Inv := by
  cases e with
  | fetch acc =>
    refine State.Inv.fetch ?_ h
    split
    · exact hs.congr rfl rfl rfl rfl rfl (hs.prefetch.congr rfl rfl)
    · exact hs
  | issue acc => exact State.Inv.issue hs h
  | answer => exact State.Inv.answer hs h
  | indirect src => exact State.Inv.fetch (s := s.dropPrefetch) (hs.congr rfl rfl rfl rfl rfl (.of_none rfl)) h
  | powerOn w => cases h; exact hs.powerOn w
  | hardReset w => cases h; exact hs.hardReset w
  | standbyEnter => exact State.Inv.standbyEnter hs h
  | standbyExit => cases h; exact hs.standbyExit

/-- A transaction keeps the invariant. -/
theorem State.Inv.transact {s t : State} (hs : s.Inv) (h : transact Config.chip s = .next t) : t.Inv := by
  have hc : s.cleared.Inv := hs.congr rfl rfl rfl rfl rfl (hs.prefetch.congr rfl rfl)
  obtain ⟨-, hg⟩ | ⟨e, rest, -, ho⟩ := transact_next h
  · obtain ⟨-, rfl⟩ | ⟨-, -, hf⟩ | ⟨-, -, ha⟩ := goOn_next hg
    · exact hc
    · exact hc.fetch hf
    · exact hc.answer ha
  · exact State.Inv.occur (s := { s.cleared with inputs := rest })
      (hc.congr rfl rfl rfl rfl rfl (hc.prefetch.congr rfl rfl)) ho

/-! ### Executing an instruction -/

/-- Judging pending accesses again changes none of their accesses and modes. -/
theorem mem_rejudge {p : Config.Params} {r : Spr} {v : Word} {e : Pending} {l : List Pending} {n : Nat}
    (h : e ∈ rejudge p r v n l) : ∃ e' ∈ l, e.acc = e'.acc ∧ e.mode = e'.mode := by
  induction l generalizing n with
  | nil => cases h
  | cons a rest ih =>
    obtain rfl | h := List.mem_cons.mp h
    · exact ⟨a, List.mem_cons_self, by split <;> rfl, by split <;> rfl⟩
    · obtain ⟨e', he', hkept⟩ := ih h
      exact ⟨e', List.mem_cons_of_mem _ he', hkept⟩

/-- Every access pending after a write of a register was pending before, but for what it is judged by. -/
theorem mem_writeSpr_pending {p : Config.Params} {r : Spr} {v : Word} {s : State} {e : Pending}
    (h : e ∈ (s.writeSpr p r v).pending) : ∃ e' ∈ s.pending, e.acc = e'.acc ∧ e.mode = e'.mode := by
  cases r with
  | bbcmcr => exact ⟨e, h, rfl, rfl⟩
  | rba k => exact mem_rejudge h
  | ra k => exact mem_rejudge h
  | gra => exact mem_rejudge h

/-- On the MPC555 a write of an IMPU register leaves every CMPR field alone (44_spr_access R285, R287). -/
theorem Impu.write_cmpr (r : Spr) (v : Word) (m : Impu) :
    (Impu.write false r v m).gra.cmpr = m.gra.cmpr ∧ ∀ k : Fin 4, (Impu.write false r v m).ra[k].cmpr = m.ra[k].cmpr := by
  cases r with
  | rba i => exact ⟨rfl, fun _ => rfl⟩
  | gra => exact ⟨rfl, fun _ => rfl⟩
  | bbcmcr => exact ⟨rfl, fun _ => rfl⟩
  | ra i =>
    refine ⟨rfl, fun k => ?_⟩
    by_cases hik : i = k
    · subst hik
      simp [Impu.write, RaReg.write]
    · have hne : i.val ≠ k.val := fun h => hik (Fin.ext h)
      simp [Impu.write, Vector.getElem_set_ne _ _ hne]

/-- On the MPC555 a write of BBCMCR leaves EXC_COMP and DECOMP_SC_EN alone (44_spr_access R289). -/
theorem Bbcmcr.write_mpc556_fields (old : Bbcmcr) (v : Word) :
    (Bbcmcr.write false old v).excComp = old.excComp ∧ (Bbcmcr.write false old v).decompScEn = old.decompScEn :=
  ⟨rfl, rfl⟩

/-- A write of a register keeps the MPC556-only fields empty on the MPC555. -/
theorem CompressionAbsent.writeSpr {s : State} (h : CompressionAbsent s) (r : Spr) (v : Word) :
    CompressionAbsent (s.writeSpr Config.chip r v) := by
  intro hc
  obtain ⟨hen, hexc, hsc, hgra, hra⟩ := h hc
  have himpu (r : Spr) : (Impu.write Config.chip.hasComp r v s.impu).gra.cmpr = 0#2 ∧
      ∀ k : Fin 4, (Impu.write Config.chip.hasComp r v s.impu).ra[k].cmpr = 0#2 := by
    obtain ⟨hg, hk⟩ := Impu.write_cmpr r v s.impu
    rw [hc]
    exact ⟨hg.trans hgra, fun k => (hk k).trans (hra k)⟩
  cases r with
  | bbcmcr =>
    have hb := Bbcmcr.write_mpc556_fields s.bbcmcr v
    rw [← hc] at hb
    exact ⟨hen, hb.1.trans hexc, hb.2.trans hsc, hgra, hra⟩
  | rba k => exact ⟨hen, hexc, hsc, himpu _⟩
  | ra k => exact ⟨hen, hexc, hsc, himpu _⟩
  | gra => exact ⟨hen, hexc, hsc, himpu _⟩

/-- A write of a register keeps the invariant. -/
theorem State.Inv.writeSpr {s : State} (hs : s.Inv) (r : Spr) (v : Word) : (s.writeSpr Config.chip r v).Inv where
  memory := by simpa using hs.memory
  standby := by
    intro hm
    refine List.eq_nil_iff_forall_not_mem.mpr fun e he => ?_
    obtain ⟨e', he', -⟩ := mem_writeSpr_pending he
    rw [hs.standby (by simpa using hm)] at he'
    cases he'
  prefetch := hs.prefetch.congr (by simp) (by simp)
  mpc555 := hs.mpc555.writeSpr r v
  pending := by
    intro e he
    obtain ⟨e', he', hacc, hmode⟩ := mem_writeSpr_pending he
    rw [hacc, hmode, State.writeSpr_enComp]
    exact hs.pending e' he'

/-- Completing an instruction keeps the invariant. -/
theorem Completes.inv {i : Instr} {s t : State} (h : Completes i s t) (hs : s.Inv) : t.Inv := by
  cases h with
  | wrote r rS hi hr ht =>
    subst ht
    have hw := hs.writeSpr r (s.getX rS)
    exact hw.congr rfl rfl rfl rfl rfl (hw.prefetch.congr rfl rfl)
  | read r rD hi hr ht => subst ht; exact hs.congr rfl rfl rfl rfl rfl (hs.prefetch.congr rfl rfl)
  | own ht => subst ht; exact hs.congr rfl rfl rfl rfl rfl (hs.prefetch.congr rfl rfl)
  | settled hi ht => subst ht; exact hs.congr rfl rfl rfl rfl rfl (hs.prefetch.congr rfl rfl)
  | went a f lk hi ht =>
    subst ht
    exact hs.congr (by simp) (by simp) (by simp) (by simp) (by simp) (.of_none (by simp))
  | chose a f lk hi ht =>
    subst ht
    refine hs.congr (by simp) (by simp) (by simp) (by simp) (by simp) ?_
    cases hb : Config.chip.freeBit s.draws with
    | false => exact hs.prefetch.congr (by simp [hb]) (by simp)
    | true => exact .of_none (by simp [hb])

/-- Settles O59: the transaction keeps the invariant, and so does the instruction it delivers. -/
theorem everyStepKeepsInvariant : Obligations.EveryStepKeepsInvariant := by
  intro s t hs h
  obtain ⟨u, hu, hx⟩ := step_next h
  have hinv := hs.transact hu
  obtain ⟨-, rfl⟩ | ⟨w, i, -, -, he⟩ | ⟨w, e, -, -, rfl⟩ := hx
  · exact hinv
  · exact (exec_completes he).inv hinv
  · exact hinv.congr rfl rfl rfl rfl rfl (hinv.prefetch.congr rfl rfl)

end Sys2Proof.Machine
end

section
/-!
PROOFS. Facts of the registers themselves: the listed region sizes, the SPR numbers, the state after reset (10_state R20, R21,
R26, R38, R47).
-/

namespace Sys2Proof.Machine

/-- The size check is the one of natural numbers: `rs` and `rs + 1` have no bit in common. -/
theorem legalSize_iff_and_eq_zero (rs : BitVec 20) : legalSize rs = true ↔ (rs.toNat + 1) &&& rs.toNat = 0 := by
  rw [legalSize, beq_iff_eq, ← BitVec.toNat_inj, BitVec.toNat_and, Nat.and_comm, BitVec.toNat_add]
  by_cases hlast : rs.toNat = 2 ^ 20 - 1
  · rw [hlast]; decide
  · have hlt := rs.isLt
    rw [show (1#20).toNat = 1 from rfl, Nat.mod_eq_of_lt (by omega)]
    rfl

/-- Settles O24: two neighbouring numbers have no bit in common exactly when the upper one is a power of two. -/
theorem legalSizesArePowersOfTwo : Obligations.LegalSizesArePowersOfTwo := by
  refine ⟨fun rs => ?_, fun m j k _ hk => ?_⟩
  · have hpow := Nat.and_sub_one_eq_zero_iff_isPowerOfTwo (Nat.succ_ne_zero rs.toNat)
    rw [legalSize_iff_and_eq_zero]
    refine hpow.trans ⟨fun ⟨k, hk⟩ => ⟨k, ?_, by omega⟩, fun ⟨k, _, hk⟩ => ⟨k, ?_⟩⟩
    · exact (Nat.pow_le_pow_iff_right (a := 2) (by omega)).mp (hk ▸ rs.isLt)
    · have := Nat.two_pow_pos k
      omega
  · rw [Impu.size, hk, Nat.sub_add_cancel Nat.one_le_two_pow, pow_add, show 2 ^ 12 = 4096 from rfl]

/-- The second number of Tables 4-2 to 4-4 as arithmetic on the SPR number (10_state R21). -/
theorem sprTableNumber_eq (n : BitVec 10) : sprTableNumber n = (n.toNat % 32) * 512 + (n.toNat / 32) * 16 := by
  have hhigh : n.toNat / 32 < 2 ^ 5 := by omega
  have hswap : (sprSwap n).toNat = (n.toNat % 32) * 32 + n.toNat / 32 := by
    rw [sprSwap, BitVec.toNat_append, BitVec.extractLsb'_toNat, BitVec.extractLsb'_toNat, Nat.shiftRight_eq_div_pow,
      Nat.shiftRight_eq_div_pow, Nat.div_one, Nat.mod_eq_of_lt hhigh, ← Nat.shiftLeft_add_eq_or_of_lt hhigh, Nat.shiftLeft_eq]
  rw [sprTableNumber, hswap]
  omega

/-- Settles O4: the names by the two lemmas about `sprOfNumber`, the numbers register by register. -/
theorem tenRegisterNumbers : Obligations.TenRegisterNumbers := by
  refine ⟨fun n r => ⟨sprNumber_of_sprOfNumber, fun h => h ▸ sprOfNumber_sprNumber r⟩, ?_, ?_, rfl, rfl, ?_, ?_, ?_, ?_,
    sprTableNumber_eq⟩ <;> decide

/-- With MSR[IR] = 0 the IMPU allows every access (42_impu_protection R210). -/
theorem Impu.check_of_not_msrIr {acc : Access} (h : acc.msrIr = false) (p : Config.Params) (u : Impu) (m : DMode) (tie : Bool) :
    u.check p acc m tie = .allowed := by
  simp [Impu.check, h]

/-- Settles O52: the fields as State.reset gives them, and protection off allows everything. -/
theorem resetStateDisabled : Obligations.ResetStateDisabled :=
  ⟨by decide, by decide, rfl, rfl, rfl, rfl, rfl, rfl, fun p _ m tie h => Impu.check_of_not_msrIr h p _ m tie⟩

end Sys2Proof.Machine
end

section
/-!
PROOFS. Memory is never written (20_memory R76, R83), and the accesses pending on the U-bus: by which IMPU values they are judged
(R85), how they are issued, reported and answered in issue order (R81; 60_exceptions R314, R315).
-/

namespace Sys2Proof.Machine

/-! ### Memory through a step -/

/-- No event writes memory, a reset included. -/
theorem occur_mem {p : Config.Params} {e : Event} {s t : State} (h : occur p e s = .next t) : t.mem = s.mem := by
  cases e with
  | powerOn w => cases h; rfl
  | hardReset w => cases h; rfl
  | _ => exact (occur_undisturbed h (by simp)).mem

/-- No transaction writes memory. -/
theorem transact_mem {p : Config.Params} {s t : State} (h : transact p s = .next t) : t.mem = s.mem := by
  obtain ⟨-, hg⟩ | ⟨e, rest, -, ho⟩ := transact_next h
  · obtain ⟨-, rfl⟩ | ⟨-, -, hf⟩ | ⟨-, -, ha⟩ := goOn_next hg
    · rfl
    · exact (fetch_undisturbed hf).mem
    · exact (answer_undisturbed ha).mem
  · exact occur_mem (s := { s.cleared with inputs := rest }) ho

/-- Completing an instruction of the table writes no memory. -/
theorem Completes.mem {i : Instr} {s t : State} (h : Completes i s t) : t.mem = s.mem := by
  cases h with
  | wrote r rS hi hs ht => subst ht; simp
  | read r rD hi hs ht => subst ht; rfl
  | own ht => subst ht; rfl
  | settled hi ht => subst ht; rfl
  | went a f lk hi ht => subst ht; simp
  | chose a f lk hi ht => subst ht; simp

/-- Settles O55: neither the transaction nor what the core then executes writes memory. -/
theorem noStepWritesMemory : Obligations.NoStepWritesMemory := by
  intro s t h
  obtain ⟨u, hu, hx⟩ := step_next h
  have hmem : t.mem = s.mem := by
    rw [← transact_mem hu]
    obtain ⟨-, rfl⟩ | ⟨w, i, -, -, he⟩ | ⟨w, e, -, -, rfl⟩ := hx
    · rfl
    · exact (exec_completes he).mem
    · rfl
  exact ⟨hmem, fun a => by rw [hmem]⟩

/-! ### Pending accesses while an IMPU register is written -/

/-- The access in place `k` is judged again or not by a free bit of its own. -/
theorem getElem?_rejudge (p : Config.Params) (r : Spr) (v : Word) (n : Nat) (l : List Pending) (k : Nat) :
    (rejudge p r v n l)[k]? = l[k]?.map fun e =>
      if p.freeBit (n + k) then { e with judgedBy := Impu.write p.hasComp r v e.judgedBy } else e := by
  induction l generalizing n k with
  | nil => rfl
  | cons e rest ih =>
    cases k with
    | zero => rfl
    | succ k =>
      rw [rejudge, List.getElem?_cons_succ, List.getElem?_cons_succ, ih, Nat.add_right_comm]
      rfl

@[simp] theorem length_rejudge (p : Config.Params) (r : Spr) (v : Word) (n : Nat) (l : List Pending) :
    (rejudge p r v n l).length = l.length := by
  induction l generalizing n with
  | nil => rfl
  | cons e rest ih => simp [rejudge, ih]

@[simp] theorem State.writeSpr_pending_length (p : Config.Params) (r : Spr) (v : Word) (s : State) :
    (s.writeSpr p r v).pending.length = s.pending.length := by
  cases r with
  | bbcmcr => rfl
  | rba i => exact length_rejudge ..
  | ra i => exact length_rejudge ..
  | gra => exact length_rejudge ..

/-- What a write of a register of the module can do to the access pending in place `k` (20_memory R85). -/
theorem State.writeSpr_pending_getElem? {p : Config.Params} {r : Spr} {v : Word} {s : State} {k : Nat} {e e' : Pending}
    (he : s.pending[k]? = some e) (he' : (s.writeSpr p r v).pending[k]? = some e') :
    e' = e ∨ e' = { e with judgedBy := Impu.write p.hasComp r v e.judgedBy } := by
  have impu (r : Spr) (h : (rejudge p r v s.draws s.pending)[k]? = some e') :
      e' = e ∨ e' = { e with judgedBy := Impu.write p.hasComp r v e.judgedBy } := by
    obtain rfl : _ = e' := by simpa [getElem?_rejudge, he] using h
    split
    · exact .inr rfl
    · exact .inl rfl
  cases r with
  | bbcmcr => exact .inl (Option.some.inj (he'.symm.trans he))
  | rba i => exact impu _ he'
  | ra i => exact impu _ he'
  | gra => exact impu _ he'

/-- Settles O11: the write keeps the queue's length, and in each place the access or its judging by the new value. -/
theorem pendingAccessesJudgedByOldOrNew : Obligations.PendingAccessesJudgedByOldOrNew := by
  intro r rS s i hi hs
  refine ⟨_, (exec_writes hi s).trans (mtsprTo_runs hs), State.writeSpr_pending_length .., fun k e e' he he' => ?_⟩
  obtain rfl | rfl := State.writeSpr_pending_getElem? he he'
  · exact ⟨rfl, rfl, rfl, rfl, rfl, .inl rfl⟩
  · exact ⟨rfl, rfl, rfl, rfl, rfl, .inr rfl⟩

/-! ### The report of a violation, and taking it -/

/-- The IMPU's vector by MSR[IP] (60_exceptions R312). -/
theorem vectorAddress_impuVector (msrIp : Bool) :
    vectorAddress msrIp impuVector = if msrIp then 0xFFF01300#32 else 0x00001300#32 := by
  cases msrIp <;> rfl

/-- Taking the exception of a refused access is what comes after its report. -/
theorem State.refuseAccess_taken (p : Config.Params) (guarded : Bool) (gov : Bbcmcr) (acc : Access) (m : DMode) (s : State) :
    s.refuseAccess p true guarded gov acc m = (s.refuseAccess p false guarded gov acc m).takeViolation p guarded m := rfl

/-- Without show cycle and program trace a refused access that is not taken is only reported. -/
theorem State.refuseAccess_hidden {p : Config.Params} {guarded : Bool} {gov : Bbcmcr} {acc : Access} {m : DMode} {s : State}
    (h : (acc.showCycle || acc.ptrace) = false) :
    s.refuseAccess p false guarded gov acc m = s.reportViolation guarded acc := by
  simp only [State.refuseAccess, h, Bool.false_eq_true, if_false]

/-- With one of the two it is forwarded as cancelled before its report. -/
theorem State.refuseAccess_shown {p : Config.Params} {guarded : Bool} {gov : Bbcmcr} {acc : Access} {m : DMode} {s : State}
    (h : (acc.showCycle || acc.ptrace) = true) :
    s.refuseAccess p false guarded gov acc m =
      (s.forward p gov acc m true (forwardedWords p m acc.form acc.addr)).reportViolation guarded acc := by
  simp only [State.refuseAccess, h, Bool.false_eq_true, if_false, if_true]

/-- A refused access that is not taken leaves the core's side alone. -/
theorem State.refuseAccess_ahead_keeps (p : Config.Params) (guarded : Bool) (gov : Bbcmcr) (acc : Access) (m : DMode) (s : State) :
    (s.refuseAccess p false guarded gov acc m).core = s.core ∧ (s.refuseAccess p false guarded gov acc m).acc = s.acc := by
  cases h : acc.showCycle || acc.ptrace with
  | false => rw [State.refuseAccess_hidden h]; exact ⟨rfl, rfl⟩
  | true => rw [State.refuseAccess_shown h]; simp

/-- What a violation shows: its report, the cancelled access on the U-bus exactly with show cycle or program trace, and no word
delivered (60_exceptions R310 to R314). -/
structure ShowsViolation (p : Config.Params) (guarded : Bool) (gov : Bbcmcr) (acc : Access) (m : DMode) (s t : State) : Prop where
  report : ∃ r, t.out.report = some r ∧ r.addr = acc.addr ∧ r.bits = violationBits guarded ∧
    r.vector = (if s.core.msrIp then 0xFFF01300#32 else 0x00001300#32) ∧ r.delivered = (acc.showCycle || acc.ptrace)
  hidden : (acc.showCycle || acc.ptrace) = false → t.out.bus = s.out.bus
  shown : (acc.showCycle || acc.ptrace) = true →
    AppearsOnBus p gov acc m true (forwardedWords p m acc.form acc.addr) s t
  word : t.out.word = s.out.word

/-- What a violation shows is told by the outputs and MSR[IP] alone. -/
theorem ShowsViolation.congr {p : Config.Params} {guarded : Bool} {gov : Bbcmcr} {acc : Access} {m : DMode} {s t s' t' : State}
    (h : ShowsViolation p guarded gov acc m s t) (hip : s'.core.msrIp = s.core.msrIp) (hs : s'.out = s.out) (ht : t'.out = t.out) :
    ShowsViolation p guarded gov acc m s' t' where
  report := by rw [ht, hip]; exact h.report
  hidden := by rw [ht, hs]; exact h.hidden
  shown := fun hc => (h.shown hc).congr (by rw [hs]) (by rw [ht])
  word := by rw [ht, hs]; exact h.word

/-- Refusing an access shows its violation, taken or not. -/
theorem refuseAccess_shows (p : Config.Params) (taken guarded : Bool) (gov : Bbcmcr) (acc : Access) (m : DMode) (s : State) :
    ShowsViolation p guarded gov acc m s (s.refuseAccess p taken guarded gov acc m) := by
  have hv := vectorAddress_impuVector s.core.msrIp
  have ahead : ShowsViolation p guarded gov acc m s (s.refuseAccess p false guarded gov acc m) := by
    cases h : acc.showCycle || acc.ptrace with
    | false =>
      rw [State.refuseAccess_hidden h]
      exact ⟨⟨_, rfl, rfl, rfl, hv, rfl⟩, fun _ => rfl, fun hc => by simp [h] at hc, rfl⟩
    | true =>
      rw [State.refuseAccess_shown h]
      exact ⟨⟨_, rfl, rfl, rfl, by simpa using hv, rfl⟩, fun hc => by simp [h] at hc,
        fun _ => (forward_appears ..).congr rfl rfl, State.forward_out_word ..⟩
  cases taken with
  | false => exact ahead
  | true => exact ahead.congr rfl rfl rfl

/-- What taking the IMPU's exception makes of the core's side: the SRR1 bits and the place where it goes on (60_exceptions R311,
R312). -/
theorem takeViolation_goes (p : Config.Params) (guarded : Bool) (m : DMode) (s : State) :
    (s.takeViolation p guarded m).core.srr1 = violationBits guarded ∧
      (s.takeViolation p guarded m).acc.addr = (if s.core.msrIp then 0xFFF01300#32 else 0x00001300#32) ∧
      (s.takeViolation p guarded m).acc.entry = true :=
  ⟨rfl, vectorAddress_impuVector _, rfl⟩

/-- What refusing an access makes of the core's side: nothing ahead of the core's flow, and the exception where the flow meets it
(60_exceptions R315). -/
theorem refuseAccess_flow (p : Config.Params) (taken guarded : Bool) (gov : Bbcmcr) (acc : Access) (m : DMode) (s : State) :
    (taken = false → (s.refuseAccess p taken guarded gov acc m).core = s.core ∧
      (s.refuseAccess p taken guarded gov acc m).acc = s.acc) ∧
    (taken = true → (s.refuseAccess p taken guarded gov acc m).core.srr1 = violationBits guarded ∧
      (s.refuseAccess p taken guarded gov acc m).acc.addr = (if s.core.msrIp then 0xFFF01300#32 else 0x00001300#32) ∧
      (s.refuseAccess p taken guarded gov acc m).acc.entry = true) := by
  have hkeeps := s.refuseAccess_ahead_keeps p guarded gov acc m
  refine ⟨?_, ?_⟩
  · rintro rfl
    exact hkeeps
  · rintro rfl
    rw [State.refuseAccess_taken, ← hkeeps.1]
    exact takeViolation_goes ..

/-! ### Accesses issued ahead and their answers -/

/-- A fetch behind older accesses only issues its access (20_memory R81). -/
theorem fetch_behind {p : Config.Params} {acc : Access} {s : State} (h : s.pending ≠ []) :
    fetch p acc s = issue p true acc (s.flowTo acc) := by
  have he : s.pending.isEmpty = false := by simpa using h
  unfold fetch
  cases issue p true acc (s.flowTo acc) <;> simp [he]

/-- The core's flow wants the oldest pending access where that is made of the flow's own. -/
theorem wantsOldest_of_made {p : Config.Params} {s : State} {e : Pending} {rest : List Pending} {m : DMode}
    (hp : s.pending = e :: rest) (he : e.acc = accessMade p m s.acc) (hm : s.acc.entry = true ∨ m = s.acc.dmode) :
    s.wantsOldest p = true := by
  have hmode : (s.acc.entry || m == s.acc.dmode) = true := by simpa using hm
  simp only [State.wantsOldest, hp, Access.continues, he]
  simpa [accessMade] using hmode

/-- Handing a word over gives out what was delivered and the order to execute if the word is wanted; a word passed over leaves the
core's flow alone and the ICDU at the place given. -/
theorem State.handOver_shows (wanted : Bool) (made : Access) (before : Icdu) (s : State) :
    (s.handOver wanted made before).out = { s.out with executes := wanted || s.out.executes } ∧
      (wanted = false → (s.handOver wanted made before).acc = s.acc ∧ (s.handOver wanted made before).icdu = before) := by
  cases wanted with
  | false => exact ⟨rfl, fun _ => ⟨rfl, rfl⟩⟩
  | true => exact ⟨rfl, fun h => by cases h⟩

/-- An answer hands over the data it delivers. -/
theorem answer_delivers {p : Config.Params} {wanted : Bool} {s u : State} {e : Pending} {rest : List Pending}
    (hp : s.pending = e :: rest) (he : e.refused = none) (hc : e.judgedBy.check p e.acc e.mode (p.freeBit s.draws) = .allowed)
    (hu : answerData p e { s with pending := rest, draws := s.draws + 1 } = .next u) :
    ∃ t, answer p wanted s = .next t ∧ t.pending = u.pending ∧ t.core = u.core ∧
      t.out = { u.out with executes := wanted || u.out.executes } ∧ (wanted = false → t.acc = u.acc ∧ t.icdu = s.icdu) := by
  obtain ⟨hout, hpassed⟩ := u.handOver_shows wanted e.acc s.icdu
  refine ⟨u.handOver wanted e.acc s.icdu, ?_, by simp, by simp, hout, hpassed⟩
  rw [answer_allowed hp he hc, hu]

/-- The data of plain code is the access's own word (20_memory R77, R81). -/
theorem answerData_plain {p : Config.Params} {e : Pending} {s : State} (hd : e.acc.dbg = false) (hm : e.mode = .off)
    (hs : Memory.storedIn s.stored (e.words.headD e.acc.addr) = false) :
    answerData p e s = .next (s.deliver (Memory.readWord p s.mem (e.words.headD e.acc.addr)) none) := by
  simp only [answerData, hd, hm, hs, Bool.false_eq_true, if_false]

/-- The data of compressed code is the decompressed instruction, its further words on the U-bus (40_compression R147, R148). -/
theorem answerData_decompressed {p : Config.Params} {e : Pending} {s : State} {d : Decoded} (hd : e.acc.dbg = false)
    (hm : e.mode = .on) (hi : icduDecode p s.mem s.icdu e.acc.form e.acc.addr = some d)
    (hs : d.words.any (Memory.storedIn s.stored) = false) :
    answerData p e s =
      .next { ((s.forward p e.gov e.acc .on false (d.words.filter (fun a => !e.words.contains a))).deliver d.instr
        (some d.next)) with icdu := icduAfter p s.mem d } := by
  simp only [answerData, hd, hm, hi, hs, Bool.false_eq_true, if_false]

/-- Settles O45: clause by clause, by the lemmas about issuing, refusing and answering an access. -/
theorem answersInIssueOrder : Obligations.AnswersInIssueOrder := by
  refine ⟨fun p s acc rest => ⟨fun h => ?_, fun h => ?_, fetch_behind⟩, fun p s e rest m => wantsOldest_of_made,
    fun p taken acc s m a ha hc hn hr => ?_, fun p acc s m guarded ha hc => ?_, fun p wanted s e rest hp he hd hc => ?_,
    fun p wanted s e rest guarded hp he hc => ?_, fun p s e rest guarded hp he => ⟨?_, ?_⟩⟩
  · simp only [transact, h, occur]
  · simp only [transact, h, occur]
    rfl
  · refine ⟨_, issue_allowed taken ha hc hn hr, by simp, (forward_appears _ _ _ _ _ _ s.issuing).congr rfl rfl, ?_⟩
    simp
  · obtain ⟨hcore, hacc⟩ := s.issuing.refuseAccess_ahead_keeps p guarded (s.governing p) (accessMade p m acc) m
    have hshow := refuseAccess_shows p false guarded (s.governing p) (accessMade p m acc) m s.issuing
    exact ⟨_, issue_refused false ha hc, by simp, hshow.report, hshow.hidden, fun h => (hshow.shown h).congr rfl rfl,
      hcore, hacc, hshow.word⟩
  · refine ⟨fun hm hs => ?_, fun d hm hi hs => ?_⟩
    · obtain ⟨t, ht, hpending, hcore, hout, hpassed⟩ := answer_delivers (wanted := wanted) hp he hc (answerData_plain hd hm hs)
      refine ⟨t, ht, hpending, ?_⟩
      rw [hout]
      exact ⟨rfl, rfl, rfl, hcore, hpassed⟩
    · obtain ⟨t, ht, hpending, hcore, hout, hpassed⟩ :=
        answer_delivers (wanted := wanted) hp he hc (answerData_decompressed hd hm hi hs)
      have happears := forward_appears p e.gov e.acc .on false (d.words.filter (fun a => !e.words.contains a))
        { s with pending := rest, draws := s.draws + 1 }
      refine ⟨t, ht, by simp [hpending], by rw [hout]; rfl, by rw [hout]; rfl, happears.congr rfl (by rw [hout]; rfl),
        by simp [hout], by simp [hcore], fun hw => ?_⟩
      obtain ⟨hacc, hicdu⟩ := hpassed hw
      exact ⟨by simp [hacc], hicdu⟩
  · have hshow := refuseAccess_shows p wanted guarded e.gov e.acc e.mode { s with pending := rest, draws := s.draws + 1 }
    exact ⟨_, answer_violation hp he hc, by simp, hshow.word, by simp, hshow.report, hshow.hidden,
      fun h => (hshow.shown h).congr rfl rfl, refuseAccess_flow ..⟩
  · exact ⟨_, answer_refused hp he, rfl, rfl, rfl, rfl⟩
  · obtain ⟨hsrr1, haddr, hentry⟩ := takeViolation_goes p guarded e.mode { s with pending := rest, draws := s.draws + 1 }
    exact ⟨_, answer_refused hp he, rfl, hsrr1, haddr, hentry, rfl⟩

end Sys2Proof.Machine
end

section
/-!
PROOFS. The decoder and the encoder agree in both directions (30_encoding R100 to R108, R120): a word is an instruction's exactly
when its fields are the instruction's, and both directions read that equivalence.
-/

namespace Sys2Proof.Machine

/-! ### Fields of a word -/

/-- A field is put together from two parts exactly when they are the two fields it is split into. -/
theorem docField_eq_append_iff {w : Word} {a n k : Nat} {x : BitVec n} {y : BitVec k} (h : a + n + k ≤ 32) :
    docField w a (n + k) = x ++ y ↔ docField w a n = x ∧ docField w (a + n) k = y := by
  have hsplit : docField w a (n + k) = docField w a n ++ docField w (a + n) k := by
    rw [docField, docField, docField, show 32 - a - (n + k) = 32 - (a + n) - k by omega]
    exact (BitVec.extractLsb'_append_extractLsb'_eq_extractLsb' (by omega)).symm
  rw [hsplit]
  refine ⟨fun heq => ⟨?_, ?_⟩, fun ⟨hx, hy⟩ => by rw [hx, hy]⟩
  · rw [← BitVec.extractLsb'_append_eq_left (a := docField w a n), heq, BitVec.extractLsb'_append_eq_left]
  · rw [← BitVec.extractLsb'_append_eq_right (b := docField w (a + n) k), heq, BitVec.extractLsb'_append_eq_right]

/-- The field of all 32 bits is the word. -/
theorem docField_whole (w : Word) : docField w 0 32 = w := BitVec.extractLsb'_eq_self

/-- A field of one bit is that bit. -/
theorem docField_eq_ofBool_iff {w : Word} {a : Nat} {b : Bool} (ha : a ≤ 31) :
    docField w a 1 = BitVec.ofBool b ↔ docBit w a = b := by
  have hbit : docField w a 1 = BitVec.ofBool (docBit w a) := by
    apply BitVec.eq_of_getLsbD_eq
    intro j hj
    obtain rfl : j = 0 := by omega
    simp [docBit, docField, show 32 - a - 1 = 31 - a by omega]
  rw [hbit, BitVec.ofBool_eq_iff_eq]

/-- Exchanging the two halves of an SPR number twice gives it back (30_encoding R103). -/
@[simp] theorem sprSwap_sprSwap (n : BitVec 10) : sprSwap (sprSwap n) = n := by
  rw [sprSwap, sprSwap, BitVec.extractLsb'_append_eq_right, BitVec.extractLsb'_append_eq_left]
  exact BitVec.extractLsb'_append_extractLsb'

/-! ### The words of the rows, field by field (30_encoding R101 to R108) -/

/-- A word of the `mtspr` and `mfspr` rows by its fields; the extended opcode `x` tells the two apart. -/
theorem eq_sprWord_iff {r : Reg} {s x : BitVec 10} {w : Word} : w = 31#6 ++ r ++ s ++ x ++ 0#1 ↔
    docField w 0 6 = 31#6 ∧ docField w 6 5 = r ∧ docField w 11 10 = s ∧ docField w 21 10 = x ∧ docBit w 31 = false := by
  conv_lhs => rw [← docField_whole w, show 0#1 = BitVec.ofBool false from rfl]
  rw [docField_eq_append_iff (k := 1), docField_eq_append_iff (k := 10), docField_eq_append_iff (k := 10),
    docField_eq_append_iff (k := 5), docField_eq_ofBool_iff, and_assoc, and_assoc, and_assoc] <;> decide

/-- A word is that of `b` before mapping exactly when its fields are (30_encoding R105). -/
theorem eq_encode_b_iff {wp : BitVec 24} {aa lk : Bool} {w : Word} : w = encode (.b wp aa lk) ↔
    docField w 0 6 = 18#6 ∧ docField w 6 24 = wp ∧ docBit w 30 = aa ∧ docBit w 31 = lk := by
  conv_lhs => rw [← docField_whole w, encode]
  rw [docField_eq_append_iff (k := 1), docField_eq_append_iff (k := 1), docField_eq_append_iff (k := 24),
    docField_eq_ofBool_iff, docField_eq_ofBool_iff, and_assoc, and_assoc] <;> decide

/-- A word is that of `b` after mapping exactly when its fields are (30_encoding R106). -/
theorem eq_encode_bMapped_iff {wp : BitVec 19} {ptr : BitVec 5} {aa lk : Bool} {w : Word} :
    w = encode (.bMapped wp ptr aa lk) ↔
    docField w 0 6 = 18#6 ∧ docField w 6 19 = wp ∧ docField w 25 5 = ptr ∧ docBit w 30 = aa ∧ docBit w 31 = lk := by
  conv_lhs => rw [← docField_whole w, encode]
  rw [docField_eq_append_iff (k := 1), docField_eq_append_iff (k := 1), docField_eq_append_iff (k := 5),
    docField_eq_append_iff (k := 19), docField_eq_ofBool_iff, docField_eq_ofBool_iff, and_assoc, and_assoc, and_assoc] <;> decide

/-- A word is that of `bc` before mapping exactly when its fields are (30_encoding R107). -/
theorem eq_encode_bc_iff {bo bi : BitVec 5} {bd : BitVec 14} {aa lk : Bool} {w : Word} : w = encode (.bc bo bi bd aa lk) ↔
    docField w 0 6 = 16#6 ∧ docField w 6 5 = bo ∧ docField w 11 5 = bi ∧ docField w 16 14 = bd ∧ docBit w 30 = aa ∧
      docBit w 31 = lk := by
  conv_lhs => rw [← docField_whole w, encode]
  rw [docField_eq_append_iff (k := 1), docField_eq_append_iff (k := 1), docField_eq_append_iff (k := 14),
    docField_eq_append_iff (k := 5), docField_eq_append_iff (k := 5), docField_eq_ofBool_iff, docField_eq_ofBool_iff,
    and_assoc, and_assoc, and_assoc, and_assoc] <;> decide

/-- A word is that of `bc` after mapping exactly when its fields are (30_encoding R108). -/
theorem eq_encode_bcMapped_iff {cond : BitVec 10} {wp : BitVec 9} {ptr : BitVec 5} {aa lk : Bool} {w : Word} :
    w = encode (.bcMapped cond wp ptr aa lk) ↔
    docField w 0 6 = 16#6 ∧ docField w 6 10 = cond ∧ docField w 16 9 = wp ∧ docField w 25 5 = ptr ∧ docBit w 30 = aa ∧
      docBit w 31 = lk := by
  conv_lhs => rw [← docField_whole w, encode]
  rw [docField_eq_append_iff (k := 1), docField_eq_append_iff (k := 1), docField_eq_append_iff (k := 5),
    docField_eq_append_iff (k := 9), docField_eq_append_iff (k := 10), docField_eq_ofBool_iff, docField_eq_ofBool_iff,
    and_assoc, and_assoc, and_assoc, and_assoc] <;> decide

/-! ### The row of an SPR number (30_encoding R103, R120) -/

/-- The own row of a register that is written: its word, and that it is canonical and no branch. -/
theorem mtsprOwnRow_canonical (r : Spr) (rS : Reg) : encode (mtsprOwnRow r rS) = mtsprWord (sprNumber r) rS ∧
    WellFormed (mtsprOwnRow r rS) = true ∧ isBranchRow (mtsprOwnRow r rS) = false := by
  cases r with
  | rba k => fin_cases k <;> exact ⟨rfl, rfl, rfl⟩
  | ra k => fin_cases k <;> exact ⟨rfl, rfl, rfl⟩
  | gra => exact ⟨rfl, rfl, rfl⟩
  | bbcmcr => exact ⟨rfl, rfl, rfl⟩

/-- The number of a register of the module gives that register's own `mtspr` row. -/
theorem mtsprRow_of_some {n : BitVec 10} {r : Spr} (h : sprOfNumber n = some r) (rS : Reg) : mtsprRow n rS = mtsprOwnRow r rS := by
  rw [mtsprRow, h]
  cases r with
  | rba k => fin_cases k <;> rfl
  | ra k => fin_cases k <;> rfl
  | gra => rfl
  | bbcmcr => rfl

/-- Every other number gives the generic `mtspr` row. -/
theorem mtsprRow_of_none {n : BitVec 10} (h : sprOfNumber n = none) (rS : Reg) : mtsprRow n rS = .mtspr rS n := by
  rw [mtsprRow, h]

/-- The `mtspr` row of any number has that number's word, is canonical and no branch. -/
theorem mtsprRow_canonical (n : BitVec 10) (rS : Reg) : encode (mtsprRow n rS) = mtsprWord n rS ∧
    WellFormed (mtsprRow n rS) = true ∧ isBranchRow (mtsprRow n rS) = false := by
  cases h : sprOfNumber n with
  | none => rw [mtsprRow_of_none h]; exact ⟨rfl, by simp [WellFormed, h], rfl⟩
  | some r => rw [mtsprRow_of_some h, sprNumber_of_sprOfNumber h]; exact mtsprOwnRow_canonical r rS

/-- The own row of a register that is read: its word, and that it is canonical and no branch. -/
theorem mfsprOwnRow_canonical (r : Spr) (rD : Reg) : encode (mfsprOwnRow r rD) = mfsprWord (sprNumber r) rD ∧
    WellFormed (mfsprOwnRow r rD) = true ∧ isBranchRow (mfsprOwnRow r rD) = false := by
  cases r with
  | rba k => fin_cases k <;> exact ⟨rfl, rfl, rfl⟩
  | ra k => fin_cases k <;> exact ⟨rfl, rfl, rfl⟩
  | gra => exact ⟨rfl, rfl, rfl⟩
  | bbcmcr => exact ⟨rfl, rfl, rfl⟩

/-- The number of a register of the module gives that register's own `mfspr` row. -/
theorem mfsprRow_of_some {n : BitVec 10} {r : Spr} (h : sprOfNumber n = some r) (rD : Reg) : mfsprRow n rD = mfsprOwnRow r rD := by
  rw [mfsprRow, h]
  cases r with
  | rba k => fin_cases k <;> rfl
  | ra k => fin_cases k <;> rfl
  | gra => rfl
  | bbcmcr => rfl

/-- Every other number gives the generic `mfspr` row. -/
theorem mfsprRow_of_none {n : BitVec 10} (h : sprOfNumber n = none) (rD : Reg) : mfsprRow n rD = .mfspr rD n := by
  rw [mfsprRow, h]

/-- The `mfspr` row of any number has that number's word, is canonical and no branch. -/
theorem mfsprRow_canonical (n : BitVec 10) (rD : Reg) : encode (mfsprRow n rD) = mfsprWord n rD ∧
    WellFormed (mfsprRow n rD) = true ∧ isBranchRow (mfsprRow n rD) = false := by
  cases h : sprOfNumber n with
  | none => rw [mfsprRow_of_none h]; exact ⟨rfl, by simp [WellFormed, h], rfl⟩
  | some r => rw [mfsprRow_of_some h, sprNumber_of_sprOfNumber h]; exact mfsprOwnRow_canonical r rD

/-! ### The decoder on words and on bytes -/

/-- The word of an `mtspr` decodes to the row of its number, in both modes. -/
theorem decodeWord_mtsprWord (m : DMode) (n : BitVec 10) (rS : Reg) : decodeWord m (mtsprWord n rS) = .ok (mtsprRow n rS) := by
  obtain ⟨hop, hr, hs, hx, hlast⟩ := eq_sprWord_iff.mp (Eq.refl (mtsprWord n rS))
  unfold decodeWord
  rw [if_pos ⟨hop, hx, hlast⟩, hs, hr, sprSwap_sprSwap]

/-- The word of an `mfspr` decodes to the row of its number, in both modes. -/
theorem decodeWord_mfsprWord (m : DMode) (n : BitVec 10) (rD : Reg) : decodeWord m (mfsprWord n rD) = .ok (mfsprRow n rD) := by
  obtain ⟨hop, hr, hs, hx, hlast⟩ := eq_sprWord_iff.mp (Eq.refl (mfsprWord n rD))
  unfold decodeWord
  rw [if_neg (by simp [hx]), if_pos ⟨hop, hx, hlast⟩, hs, hr, sprSwap_sprSwap]

/-- `isync` has the opcode 19. -/
theorem ne_isyncWord {w : Word} (h : docField w 0 6 ≠ 19#6) : w ≠ 0x4C00012C#32 := by
  rintro rfl
  exact h (by decide)

/-- The word of a canonical instruction decodes to it in every mode its row stands in. -/
theorem decodeWord_encode {i : Instr} {m : DMode} (hi : WellFormed i = true) (hm : isBranchRow i = true → m = modeOfRow i) :
    decodeWord m (encode i) = .ok i := by
  cases i with
  | mtspr rS n => exact (decodeWord_mtsprWord m n rS).trans (by rw [mtsprRow_of_none (by simpa [WellFormed] using hi)])
  | mfspr rD n => exact (decodeWord_mfsprWord m n rD).trans (by rw [mfsprRow_of_none (by simpa [WellFormed] using hi)])
  | isync => rfl
  | b wp aa lk =>
    obtain rfl := hm rfl
    obtain ⟨hop, hwp, haa, hlk⟩ := eq_encode_b_iff.mp (Eq.refl (encode (.b wp aa lk)))
    have hne := ne_isyncWord (w := encode (.b wp aa lk)) (by simp [hop])
    simp [decodeWord, hop, hwp, haa, hlk, hne, modeOfRow]
  | bMapped wp ptr aa lk =>
    obtain rfl := hm rfl
    obtain ⟨hop, hwp, hptr, haa, hlk⟩ := eq_encode_bMapped_iff.mp (Eq.refl (encode (.bMapped wp ptr aa lk)))
    have hne := ne_isyncWord (w := encode (.bMapped wp ptr aa lk)) (by simp [hop])
    simp [decodeWord, hop, hwp, hptr, haa, hlk, hne, modeOfRow]
  | bc bo bi bd aa lk =>
    obtain rfl := hm rfl
    obtain ⟨hop, hbo, hbi, hbd, haa, hlk⟩ := eq_encode_bc_iff.mp (Eq.refl (encode (.bc bo bi bd aa lk)))
    have hne := ne_isyncWord (w := encode (.bc bo bi bd aa lk)) (by simp [hop])
    simp [decodeWord, hop, hbo, hbi, hbd, haa, hlk, hne, modeOfRow]
  | bcMapped cond wp ptr aa lk =>
    obtain rfl := hm rfl
    obtain ⟨hop, hcond, hwp, hptr, haa, hlk⟩ := eq_encode_bcMapped_iff.mp (Eq.refl (encode (.bcMapped cond wp ptr aa lk)))
    have hne := ne_isyncWord (w := encode (.bcMapped cond wp ptr aa lk)) (by simp [hop])
    simp [decodeWord, hop, hcond, hwp, hptr, haa, hlk, hne, modeOfRow]
  | mtsprMiRba0 rS | mtsprMiRba1 rS | mtsprMiRba2 rS | mtsprMiRba3 rS | mtsprMiRa0 rS | mtsprMiRa1 rS | mtsprMiRa2 rS
  | mtsprMiRa3 rS | mtsprMiGra rS | mtsprBbcmcr rS => exact decodeWord_mtsprWord m _ rS
  | mfsprMiRba0 rD | mfsprMiRba1 rD | mfsprMiRba2 rD | mfsprMiRba3 rD | mfsprMiRa0 rD | mfsprMiRa1 rD | mfsprMiRa2 rD
  | mfsprMiRa3 rD | mfsprMiGra rD | mfsprBbcmcr rD => exact decodeWord_mfsprWord m _ rD

/-- The four bytes of a word decode as the word does. -/
theorem decodeBytes_bytesOfWord (m : DMode) (w : Word) (rest : List Byte) :
    decodeBytes m (bytesOfWord w ++ rest) = (decodeWord m w).map (fun i => (i, rest)) := by
  change (decodeWord m (wordOfBytes _ _ _ _)).map (fun i => (i, rest)) = _
  rw [wordOfBytes_docField]

/-- Settles O1: the bytes decode as their word does, and that word decodes to its instruction. -/
theorem decodeEncodeAgree : Obligations.DecodeEncodeAgree := by
  intro i m rest hi hm
  rw [decodeBytes_bytesOfWord, decodeWord_encode hi hm]
  rfl

/-- Settles O2, along the branches of the decoder: each checks the fixed fields and takes the others from the word. -/
theorem decodedWordsEncodeBack : Obligations.DecodedWordsEncodeBack := by
  intro m w i h
  unfold decodeWord at h
  split at h
  · next hspr =>
    obtain ⟨hop, hx, hlast⟩ := hspr
    obtain ⟨hencode, hwf, hbranch⟩ := mtsprRow_canonical (sprSwap (docField w 11 10)) (docField w 6 5)
    cases h
    exact ⟨hencode.trans (eq_sprWord_iff.mpr ⟨hop, rfl, (sprSwap_sprSwap _).symm, hx, hlast⟩).symm, hwf, by simp [hbranch]⟩
  split at h
  · next hspr =>
    obtain ⟨hop, hx, hlast⟩ := hspr
    obtain ⟨hencode, hwf, hbranch⟩ := mfsprRow_canonical (sprSwap (docField w 11 10)) (docField w 6 5)
    cases h
    exact ⟨hencode.trans (eq_sprWord_iff.mpr ⟨hop, rfl, (sprSwap_sprSwap _).symm, hx, hlast⟩).symm, hwf, by simp [hbranch]⟩
  split at h
  · next hw => cases h; exact ⟨hw.symm, rfl, by simp [isBranchRow]⟩
  split at h
  · next hop =>
    cases m with
    | off => cases h; exact ⟨(eq_encode_b_iff.mpr ⟨hop, rfl, rfl, rfl⟩).symm, rfl, fun _ => rfl⟩
    | on => cases h; exact ⟨(eq_encode_bMapped_iff.mpr ⟨hop, rfl, rfl, rfl, rfl⟩).symm, rfl, fun _ => rfl⟩
  split at h
  · next hop =>
    cases m with
    | off => cases h; exact ⟨(eq_encode_bc_iff.mpr ⟨hop, rfl, rfl, rfl, rfl, rfl⟩).symm, rfl, fun _ => rfl⟩
    | on => cases h; exact ⟨(eq_encode_bcMapped_iff.mpr ⟨hop, rfl, rfl, rfl, rfl, rfl⟩).symm, rfl, fun _ => rfl⟩
  · cases h

/-- Settles O3: thirteen closed words. -/
theorem specWordsDecode : Obligations.SpecWordsDecode := by
  unfold Obligations.SpecWordsDecode
  decide

end Sys2Proof.Machine
end

section
/-!
PROOFS. What the four branches do at the module's port (30_encoding R105 to R108, 40_compression R143, R150, R151), where the halves
of an instruction lie and how its streams run through memory (30_encoding R111, R113, 40_compression R149).
-/

namespace Sys2Proof.Machine

/-! ### The state after a branch -/

/-- Linking changes nothing the next instruction address is made of. -/
@[simp] theorem State.link_nextAddr (lk : Bool) (s : State) : (s.link lk).nextAddr = s.nextAddr := by
  unfold State.link; split <;> rfl

/-- A conditional branch leaves in the core what linking leaves, with CTR free (log 41). -/
@[simp] theorem State.conditional_core (p : Config.Params) (a : Word) (f : AddrForm) (lk : Bool) (s : State) :
    (s.conditional p a f lk).core = { (s.link lk).core with ctr := p.freeWord s.draws } := by
  simp only [State.conditional]; split <;> rfl

/-- A conditional branch that is taken: the core goes on at the target and the prefetched instruction is discarded. -/
theorem State.conditional_taken {p : Config.Params} {s : State} (h : p.freeBit s.draws = true) (a : Word) (f : AddrForm) (lk : Bool) :
    (s.conditional p a f lk).acc = { s.acc with addr := a, form := f, entry := false } ∧
      (s.conditional p a f lk).icdu = { s.icdu with prefetched := none } := by
  simp [State.conditional, h]

/-- A conditional branch that is not taken: the core goes on with the next instruction. -/
theorem State.conditional_untaken {p : Config.Params} {s : State} (h : p.freeBit s.draws = false) (a : Word) (f : AddrForm)
    (lk : Bool) : GoesOn s (s.conditional p a f lk) ∧ (s.conditional p a f lk).icdu = s.icdu := by
  simp [State.conditional, GoesOn, h]

/-! ### Targets before compression mapping -/

/-- The target of a branch before mapping as an integer modulo 2^32 (93_implementation_defined G2). -/
theorem toInt_plainTarget {n : Nat} (hn : n ≤ 32) (cia : Word) (wp : BitVec n) (aa : Bool) :
    (plainTarget cia wp aa).toInt = ((if aa then 0 else cia.toInt) + 4 * wp.toInt).bmod (2 ^ 32) := by
  have hbase : (if aa then 0#32 else cia).toInt = if aa then 0 else cia.toInt := by cases aa <;> rfl
  have hfour : (BitVec.twoPow 32 2).toInt = 4 := by decide
  rw [plainTarget, BitVec.toInt_add, BitVec.shiftLeft_eq_mul_twoPow, BitVec.toInt_mul, BitVec.toInt_signExtend_of_le hn,
    hbase, hfour, Int.add_bmod_bmod, Int.mul_comm]

/-- Settles O19: both branches go by `toInt_plainTarget`; the conditional one, by its free bit, there or on. -/
theorem plainBranchTargets : Obligations.PlainBranchTargets := by
  refine ⟨fun wp aa lk s => ⟨_, rfl, toInt_plainTarget (by decide) .., rfl, by simp⟩, fun bo bi bd aa lk s => ⟨_, rfl, ?_⟩⟩
  cases h : Config.chip.freeBit s.draws with
  | true =>
    obtain ⟨hacc, -⟩ := State.conditional_taken h (plainTarget s.acc.addr bd aa) .twoPointer lk
    rw [hacc]
    exact ⟨.inl (toInt_plainTarget (by decide) ..), rfl, by simp⟩
  | false =>
    obtain ⟨hgoes, -⟩ := State.conditional_untaken h (plainTarget s.acc.addr bd aa) .twoPointer lk
    exact ⟨.inr hgoes, by rw [hgoes], by simp⟩

/-! ### What a branch leaves alone -/

/-- What every branch leaves alone, and the little it may change. -/
structure BranchKeeps (s t : State) : Prop where
  registers : SameRegisters s t
  superseded : t.superseded = s.superseded
  pending : t.pending = s.pending
  interface : SameInterface s t
  mem : t.mem = s.mem
  mode : t.mode = s.mode
  parked : t.parked = s.parked
  lastBus : t.lastBus = s.lastBus
  stored : t.stored = s.stored
  icdu : t.icdu = { s.icdu with prefetched := none } ∨ t.icdu = s.icdu ∧ GoesOn s t
  x : t.core.x = s.core.x
  srr0 : t.core.srr0 = s.core.srr0
  srr1 : t.core.srr1 = s.core.srr1
  msrIp : t.core.msrIp = s.core.msrIp
  lr : t.core.lr = s.core.lr ∨ t.core.lr = s.nextAddr
  acc : t.acc = { s.acc with addr := t.acc.addr, form := t.acc.form, entry := false }

/-- LR after linking or not. -/
theorem State.link_lr_cases (lk : Bool) (s : State) : (s.link lk).core.lr = s.core.lr ∨ (s.link lk).core.lr = s.nextAddr := by
  cases lk with
  | false => exact .inl rfl
  | true => exact .inr rfl

/-- A branch that always goes to its target keeps all this. -/
theorem branchKeeps_branchTo (lk : Bool) (a : Word) (f : AddrForm) (s : State) : BranchKeeps s ((s.link lk).branchTo a f) := by
  constructor
  case icdu => exact .inl (by simp)
  case lr => exact s.link_lr_cases lk
  case registers => exact ⟨by simp, by simp⟩
  case interface => exact ⟨by simp, by simp⟩
  all_goals simp

/-- A conditional branch keeps all this, taken or not. -/
theorem branchKeeps_conditional (p : Config.Params) (a : Word) (f : AddrForm) (lk : Bool) (s : State) :
    BranchKeeps s (s.conditional p a f lk) := by
  have hflow : (s.conditional p a f lk).acc = { s.acc with
        addr := (s.conditional p a f lk).acc.addr, form := (s.conditional p a f lk).acc.form, entry := false } ∧
      ((s.conditional p a f lk).icdu = { s.icdu with prefetched := none } ∨
        (s.conditional p a f lk).icdu = s.icdu ∧ GoesOn s (s.conditional p a f lk)) := by
    cases h : p.freeBit s.draws with
    | true =>
      obtain ⟨hacc, hicdu⟩ := State.conditional_taken h a f lk
      exact ⟨by rw [hacc], .inl hicdu⟩
    | false =>
      obtain ⟨hgoes, hicdu⟩ := State.conditional_untaken h a f lk
      exact ⟨by rw [hgoes], .inr ⟨hicdu, hgoes⟩⟩
  constructor
  case icdu => exact hflow.2
  case acc => exact hflow.1
  case lr => rw [State.conditional_core]; exact s.link_lr_cases lk
  case registers => exact ⟨by simp, by simp⟩
  case interface => exact ⟨by simp, by simp⟩
  all_goals simp

/-- Every branch gives a next state that keeps all this. -/
theorem exec_branchKeeps {i : Instr} (hi : isBranchRow i = true) (s : State) : ∃ t, exec i s = .next t ∧ BranchKeeps s t := by
  cases i with
  | b wp aa lk => exact ⟨_, rfl, branchKeeps_branchTo ..⟩
  | bMapped wp ptr aa lk => exact ⟨_, rfl, branchKeeps_branchTo ..⟩
  | bc bo bi bd aa lk => exact ⟨_, rfl, branchKeeps_conditional ..⟩
  | bcMapped cond wp ptr aa lk => exact ⟨_, rfl, branchKeeps_conditional ..⟩
  | _ => cases hi

/-- Settles O22: the frame shared by the four branches, and the direct ones with nothing free. -/
theorem branchFrame : Obligations.BranchFrame := by
  intro i s hi
  obtain ⟨t, ht, hk⟩ := exec_branchKeeps hi s
  refine ⟨t, ht, hk.registers, hk.superseded, hk.pending, hk.interface, fun a => by rw [hk.mem], hk.mem, hk.mode, hk.parked, hk.lastBus,
    hk.stored, hk.icdu, hk.x, hk.srr0, hk.srr1, hk.msrIp, hk.lr, ?_, ?_, hk.acc⟩
  · rintro wp aa lk rfl
    cases ht
    simp
  · rintro wp ptr aa lk rfl
    cases ht
    simp

/-! ### The halves of an instruction (30_encoding R111) -/

/-- The base word lies as many words behind COMP_BASE as bits 0:19 say (40_compression R147). -/
theorem baseWord_eq_add_ofNat (p : Config.Params) (a : Word) :
    baseWord p a = p.compBase + BitVec.ofNat 32 ((docField a 0 20).toNat * 4) := by
  have hpointer : (0#12 ++ docField a 0 20 : Word).toNat = (docField a 0 20).toNat := (BitVec.toNat_append ..).trans (by simp)
  rw [baseWord]
  congr 1
  apply BitVec.eq_of_toNat_eq
  rw [BitVec.toNat_shiftLeft, hpointer, BitVec.toNat_ofNat, Nat.shiftLeft_eq]

/-- Settles O47: the three cases of bits 21 and 20, and the address of the base word. -/
theorem halvesOfTwoPointerAddress : Obligations.HalvesOfTwoPointerAddress := by
  intro p a
  refine ⟨fun h21 => ?_, fun h21 h20 => ?_, fun h21 h20 => ?_, baseWord_eq_add_ofNat p a⟩
  · simp [leftWord, rightWord, h21]
  · simp [leftWord, rightWord, h21, h20]
  · simp [leftWord, rightWord, h21, h20]

/-! ### Streams (30_encoding R113, 40_compression R149) -/

/-- A place lies in a stream's part between its first bit and its end. -/
theorem inStream_iff {p : Config.Params} {mem : List Host.Cell} {side : Config.Side} {q : Place} : inStream p mem side q = true ↔
    streamFirst (Memory.readWord p mem q.word) side ≤ q.bit ∧ q.bit < streamEnd (Memory.readWord p mem q.word) side := by
  simp [inStream]

/-- A stream has at least one bit in every word. -/
theorem streamFirst_lt_streamEnd (w : Word) (side : Config.Side) : streamFirst w side < streamEnd w side := by
  have hboundary : 0 < boundary w ∧ boundary w < 31 := by
    unfold boundary; split <;> decide
  cases side with
  | left => exact hboundary.1
  | right => exact hboundary.2

/-- Settles O48: inside its part a stream goes on by a bit; at the end it starts at the first bit of the next word's part. -/
theorem streamsStayInTheirPart : Obligations.StreamsStayInTheirPart := by
  intro p mem side q hq
  obtain ⟨hfirst, hend⟩ := inStream_iff.mp hq
  unfold nextPlace
  split
  · next hin => exact ⟨inStream_iff.mpr ⟨Nat.le_succ_of_le hfirst, hin⟩, .inl ⟨rfl, rfl⟩⟩
  · next hout =>
    have hlast : q.bit + 1 = streamEnd (Memory.readWord p mem q.word) side := by omega
    refine ⟨inStream_iff.mpr ⟨Nat.le_refl _, streamFirst_lt_streamEnd ..⟩, .inr ⟨rfl, ?_, ?_⟩⟩
    · cases side <;> rfl
    · rw [hlast]; cases side <;> rfl

end Sys2Proof.Machine
end

section
/-!
PROOFS. Addresses of compressed code: the fields of the one pointer format, where a mapped branch goes (30_encoding R106, R108, R112,
40_compression R143, R150), and the two pointer address of two places (30_encoding R110, R111).
-/

namespace Sys2Proof.Machine

/-! ### The two address forms, field by field -/

/-- A word is a one pointer address exactly when its fields are the parts of one (30_encoding R112). -/
theorem eq_onePointer_iff {wp : BitVec 20} {ptr : BitVec 5} {w : Word} : w = onePointer wp ptr ↔
    docField w 0 20 = wp ∧ docField w 20 2 = 0#2 ∧ docField w 22 5 = ptr ∧ docField w 27 5 = 0#5 := by
  conv_lhs => rw [← docField_whole w, onePointer]
  rw [docField_eq_append_iff (k := 5), docField_eq_append_iff (k := 5), docField_eq_append_iff (k := 2), and_assoc, and_assoc] <;>
    decide

/-- A word is a two pointer address exactly when its fields are the parts of one (30_encoding R110). -/
theorem eq_twoPointer_iff {wp : BitVec 20} {b20 b21 : Bool} {x y : BitVec 5} {w : Word} :
    w = wp ++ BitVec.ofBool b20 ++ BitVec.ofBool b21 ++ x ++ y ↔
      docField w 0 20 = wp ∧ docBit w 20 = b20 ∧ docBit w 21 = b21 ∧ docField w 22 5 = x ∧ docField w 27 5 = y := by
  conv_lhs => rw [← docField_whole w]
  rw [docField_eq_append_iff (k := 5), docField_eq_append_iff (k := 5), docField_eq_append_iff (k := 1),
    docField_eq_append_iff (k := 1), docField_eq_ofBool_iff, docField_eq_ofBool_iff, and_assoc, and_assoc, and_assoc] <;> decide

/-! ### Targets after compression mapping -/

/-- The target of a mapped branch, field by field (40_compression R143). -/
theorem mappedTarget_fields (p : Config.Params) (base : BitVec 20) {n : Nat} (wp : BitVec n) (ptr : BitVec 5) (aa : Bool) :
    docField (mappedTarget p base wp ptr aa) 0 20 = p.baseAddrCalc base n wp aa ∧
      docField (mappedTarget p base wp ptr aa) 20 2 = 0#2 ∧ docField (mappedTarget p base wp ptr aa) 22 5 = ptr ∧
      docField (mappedTarget p base wp ptr aa) 27 5 = 0#5 :=
  eq_onePointer_iff.mp rfl

/-- Settles O20: both branches go by `mappedTarget_fields`; the conditional one, by its free bit, there or on. -/
theorem mappedBranchTarget : Obligations.MappedBranchTarget := by
  refine ⟨fun wp ptr aa lk s => ?_, fun cond wp ptr aa lk s => ⟨_, rfl, ?_, by simp⟩⟩
  · obtain ⟨hbase, hzero, hptr, hlast⟩ := mappedTarget_fields Config.chip s.icdu.base wp ptr aa
    exact ⟨_, rfl, hbase, hzero, hptr, hlast, rfl, by simp⟩
  · obtain ⟨hbase, hzero, hptr, hlast⟩ := mappedTarget_fields Config.chip s.icdu.base wp ptr aa
    cases h : Config.chip.freeBit s.draws with
    | true =>
      obtain ⟨hacc, -⟩ := State.conditional_taken h (mappedTarget Config.chip s.icdu.base wp ptr aa) .onePointer lk
      rw [hacc]
      exact .inl ⟨hbase, hzero, hptr, hlast, rfl⟩
    | false =>
      obtain ⟨hgoes, -⟩ := State.conditional_untaken h (mappedTarget Config.chip s.icdu.base wp ptr aa) .onePointer lk
      exact .inr hgoes

/-! ### The two pointer address of two places (40_compression R150) -/

/-- Words of the 4-Mbyte compressed space lie in the order of their numbers. -/
theorem ofNat_four_mul_lt_iff {i j : Nat} (hi : i < 2 ^ 20) (hj : j < 2 ^ 20) :
    BitVec.ofNat 32 (4 * i) < BitVec.ofNat 32 (4 * j) ↔ i < j := by
  rw [BitVec.lt_def, BitVec.toNat_ofNat, BitVec.toNat_ofNat]
  omega

/-- Words of the 4-Mbyte compressed space are told apart by their numbers. -/
theorem ofNat_four_mul_inj {i j : Nat} (hi : i < 2 ^ 20) (hj : j < 2 ^ 20) :
    BitVec.ofNat 32 (4 * i) = BitVec.ofNat 32 (4 * j) ↔ i = j := by
  rw [← BitVec.toNat_inj, BitVec.toNat_ofNat, BitVec.toNat_ofNat]
  omega

/-- The word pointer of a word of the compressed space is its number. -/
theorem toNat_wordPointer {k : Nat} (hk : k < 2 ^ 20) : ((BitVec.ofNat 32 (4 * k) >>> 2).extractLsb' 0 20).toNat = k := by
  rw [BitVec.extractLsb'_toNat, BitVec.toNat_ushiftRight, BitVec.toNat_ofNat, Nat.shiftRight_eq_div_pow, Nat.shiftRight_eq_div_pow]
  omega

/-- A 5-bit pointer holds every bit position of a word. -/
theorem toNat_bitPointer {b : Nat} (hb : b < 32) : (BitVec.ofNat 5 b).toNat = b := by
  rw [BitVec.toNat_ofNat]
  omega

/-- The pointers are taken apart in the order they are put in (`PTR_ORDER`). -/
theorem bitPointers_twoPointerOf (p : Config.Params) (l r : Place) :
    bitPointers p (twoPointerOf p l r) = (BitVec.ofNat 5 l.bit, BitVec.ofNat 5 r.bit) := by
  obtain ⟨-, -, -, hfirst, hsecond⟩ := eq_twoPointer_iff.mp (Eq.refl (twoPointerOf p l r))
  rw [bitPointers, hfirst, hsecond]
  cases p.leftPointerFirst <;> rfl

/-- The two pointer address of places in words `i` and `j` of the compressed space: its base word is the lower one, bit 21 tells whether
they differ, and bit 20 then whether the right one is the lower (30_encoding R111). -/
theorem twoPointerOf_parts {p : Config.Params} {l r : Place} {i j : Nat} (hl : l.word = p.compBase + BitVec.ofNat 32 (4 * i))
    (hr : r.word = p.compBase + BitVec.ofNat 32 (4 * j)) (hi : i < 2 ^ 20) (hj : j < 2 ^ 20) :
    baseWord p (twoPointerOf p l r) = p.compBase + BitVec.ofNat 32 (4 * min i j) ∧
      (docBit (twoPointerOf p l r) 21 = true ↔ i ≠ j) ∧ (i ≠ j → (docBit (twoPointerOf p l r) 20 = true ↔ j < i)) := by
  obtain ⟨hwp, h20, h21, -, -⟩ := eq_twoPointer_iff.mp (Eq.refl (twoPointerOf p l r))
  have hlow : (r.word - p.compBase < l.word - p.compBase) ↔ j < i := by
    rw [hl, hr, add_sub_cancel_left, add_sub_cancel_left, ofNat_four_mul_lt_iff hj hi]
  have hne : (l.word != r.word) = true ↔ i ≠ j := by
    rw [bne_iff_ne, hl, hr, Ne, BitVec.add_right_inj, ofNat_four_mul_inj hi hj]
  refine ⟨?_, by rw [h21, hne], fun h => ?_⟩
  · have hlower : (if decide (r.word - p.compBase < l.word - p.compBase) then r.word else l.word) - p.compBase =
        BitVec.ofNat 32 (4 * min i j) := by
      by_cases hji : j < i
      · rw [if_pos (decide_eq_true (hlow.mpr hji)), hr, add_sub_cancel_left, Nat.min_eq_right (by omega)]
      · rw [if_neg (by simpa [hlow] using hji), hl, add_sub_cancel_left, Nat.min_eq_left (by omega)]
    rw [baseWord_eq_add_ofNat, hwp, hlower, toNat_wordPointer (by omega), Nat.mul_comm]
  · rw [h20, if_pos (hne.mpr h), decide_eq_true_iff, hlow]

/-- Settles O49: the three cases of two words, the same one or either first, read by `halvesOfTwoPointerAddress`. -/
theorem nextAddressNamesReachedPlaces : Obligations.NextAddressNamesReachedPlaces := by
  intro p l r i j hl hr hi hj hadj hlb hrb
  obtain ⟨hbase, h21, h20⟩ := twoPointerOf_parts hl hr hi hj
  obtain ⟨hsame, hleftLow, hrightLow, -⟩ := halvesOfTwoPointerAddress p (twoPointerOf p l r)
  have hnext (k : Nat) : p.compBase + BitVec.ofNat 32 (4 * k) + 4#32 = p.compBase + BitVec.ofNat 32 (4 * (k + 1)) := by
    rw [BitVec.add_assoc, Nat.mul_succ, BitVec.ofNat_add]
  have hwords : leftWord p (twoPointerOf p l r) = l.word ∧ rightWord p (twoPointerOf p l r) = r.word := by
    obtain rfl | rfl | rfl := hadj
    · obtain ⟨hleft, hright⟩ := hsame (by simpa using h21)
      rw [hleft, hright, hbase, hl, hr, Nat.min_self]
      exact ⟨rfl, rfl⟩
    · obtain ⟨hleft, hright⟩ := hrightLow (h21.mpr (by omega)) ((h20 (by omega)).mpr (by omega))
      rw [hleft, hright, hbase, hl, hr, Nat.min_eq_right (by omega), hnext]
      exact ⟨rfl, rfl⟩
    · obtain ⟨hleft, hright⟩ := hleftLow (h21.mpr (by omega)) (by simpa using h20 (by omega))
      rw [hleft, hright, hbase, hl, hr, Nat.min_eq_left (by omega), hnext]
      exact ⟨rfl, rfl⟩
  rw [bitPointers_twoPointerOf]
  exact ⟨hwords.1, hwords.2, toNat_bitPointer hlb, toNat_bitPointer hrb⟩

end Sys2Proof.Machine
end

section
/-!
PROOFS. Fetches of compressed code: what the prefetched instruction may change, who is admitted, where indirect branches and exceptions
lead, and what an allowed fetch in Decompression ON mode delivers (40_compression R131, R133, R141, R145 to R151, 20_memory R74, R83).
-/

namespace Sys2Proof.Machine

/-! ### Prefetch -/

/-- Taking a prefetched instruction that agrees with memory gives what decompressing gives (40_compression R151). -/
theorem icduDecode_eq_decompress {p : Config.Params} {mem : List Host.Cell} {u : Icdu}
    (h : ∀ d, u.prefetched = some d → decompress p mem .twoPointer d.addr = some d) (f : AddrForm) (a : Word) :
    icduDecode p mem u f a = decompress p mem f a := by
  unfold icduDecode
  split
  · next d hd =>
    split
    · next hseq =>
      obtain ⟨rfl, rfl⟩ : f = .twoPointer ∧ d.addr = a := by simpa using hseq
      exact (h d hd).symm
    · rfl
  · rfl

/-- Settles O50: `icduDecode_eq_decompress` at the machine's parameters. -/
theorem prefetchChangesNoValue : Obligations.PrefetchChangesNoValue :=
  fun _ f a h => icduDecode_eq_decompress h f a

/-- What is prefetched where the core's flow goes to an access was prefetched before. -/
theorem State.prefetched_of_flowTo {acc : Access} {s : State} {d : Decoded} (h : (s.flowTo acc).icdu.prefetched = some d) :
    s.icdu.prefetched = some d := by
  rw [State.flowTo_icdu] at h
  split at h
  · exact h
  · cases h

/-! ### Who is admitted (40_compression R131) -/

/-- Issuing an access in Decompression ON mode where the part or EN_COMP does not allow it. -/
theorem issue_disabled {p : Config.Params} {taken : Bool} {acc : Access} {s : State} (hmode : s.mode ≠ .powerSave)
    (hm : accessMode p (s.governing p) acc = .on) (hd : p.hasComp = false ∨ s.bbcmcr.enComp = false) :
    issue p taken acc s = .refused .decompressionDisabled := by
  have hnot : ¬(p.hasComp ∧ s.bbcmcr.enComp) := by
    obtain h | h := hd
    · simp [h]
    · simp [h]
  unfold issue
  rw [if_neg hmode, if_pos ⟨hm, hnot⟩]

/-- A fetch whose access is refused a meaning when it is issued has none. -/
theorem fetch_of_issue_refused {p : Config.Params} {acc : Access} {s : State} {r : Refusal}
    (h : issue p true acc (s.flowTo acc) = .refused r) : fetch p acc s = .refused r := by
  simp only [fetch, h]

/-- Settles O43: outside a vector the mode is the access's own, and `issue` asks for EN_COMP and the part first. -/
theorem onModeNeedsEnComp : Obligations.OnModeNeedsEnComp := by
  intro p acc s hmode hon hentry hd
  have hm : accessMode p (s.governing p) acc = .on := by simp [accessMode, hentry, hon]
  exact ⟨fetch_of_issue_refused (issue_disabled (s := s.flowTo acc) hmode hm hd), fun _ => issue_disabled hmode hm hd⟩

/-! ### What a fetch can do -/

/-- Delivering data leaves the core's side alone. -/
theorem delivers_core {p : Config.Params} {e : Pending} {s t : State} (h : Delivers p e s t) : t.core = s.core := by
  obtain ⟨-, rfl⟩ | ⟨-, -, -, rfl⟩ | ⟨-, -, d, -, -, rfl⟩ := h <;> simp

/-- What a fetch can do: report a violation, join the pending accesses, or deliver its word for execution. Only the first may change
the core's side, and only the last makes the core execute. -/
inductive Fetches (p : Config.Params) (acc : Access) (s t : State) : Prop where
  | reported (hr : t.out.report.isSome = true) (he : t.out.executes = s.out.executes)
  | joined (hc : t.core = s.core) (he : t.out.executes = s.out.executes)
  | delivered (hc : t.core = s.core) (ha : t.acc = accessMade p (accessMode p (s.governing p) acc) acc)

/-- Refusing an access reports it. -/
theorem State.refuseAccess_report (p : Config.Params) (taken guarded : Bool) (gov : Bbcmcr) (acc : Access) (m : DMode) (s : State) :
    (s.refuseAccess p taken guarded gov acc m).out.report.isSome = true := by
  obtain ⟨r, hr, -⟩ := (refuseAccess_shows p taken guarded gov acc m s).report
  rw [hr, Option.isSome_some]

/-- A word handed over for execution is executed at the access that fetched it, with the other attributes of the core's flow. -/
theorem State.toExecute_acc_of_made {p : Config.Params} {m : DMode} {acc : Access} {s : State} (h : s.acc = acc) :
    (s.toExecute (accessMade p m acc)).acc = accessMade p m acc := by
  rw [State.toExecute_acc, h]
  rfl

/-- A fetch that gives a next state did one of these. -/
theorem fetch_fetches {p : Config.Params} {acc : Access} {s t : State} (h : fetch p acc s = .next t) : Fetches p acc s t := by
  obtain ⟨u, hu, hx⟩ := fetch_next h
  have hexec : u.out.executes = s.out.executes := (issue_executes hu).trans rfl
  obtain ⟨-, ⟨m, guarded, -, -, hrefused⟩ | ⟨m, a, hm, -, -, -, rfl⟩⟩ := issue_next hu
  · rw [if_pos rfl] at hrefused
    subst hrefused
    obtain rfl | ⟨hp, hq, -⟩ := hx
    · exact .reported (State.refuseAccess_report ..) hexec
    · exact absurd (by simpa using hp) hq
  · obtain rfl : m = accessMode p (s.governing p) acc := hm
    obtain rfl | ⟨hp, -, ha⟩ := hx
    · exact .joined (by simp) hexec
    · obtain ⟨hq, -⟩ | ⟨e, rest, hq, ha⟩ := answer_next ha
      · simp at hq
      · obtain ⟨rfl, rfl⟩ := by simpa [hp] using hq
        obtain ⟨_, he, -⟩ | ⟨_, -, rfl⟩ | ⟨v, -, hv, rfl⟩ := ha
        · cases he
        · exact .reported (State.refuseAccess_report ..) ((State.refuseAccess_executes ..).trans hexec)
        · obtain ⟨hacc, -, -, -⟩ := delivers_keeps hv
          exact .delivered (by simp [delivers_core hv]) (State.toExecute_acc_of_made (hacc.trans (by simp)))

/-- A fetch that makes the core execute executes at the access it made, with the core's side as before. -/
theorem fetch_executed {p : Config.Params} {acc : Access} {s t : State} (h : fetch p acc s = .next t)
    (hs : s.out.executes = false) (ht : t.out.executes = true) :
    t.core = s.core ∧ t.acc = accessMade p (accessMode p (s.governing p) acc) acc := by
  obtain ⟨-, he⟩ | ⟨-, he⟩ | ⟨hc, ha⟩ := fetch_fetches h
  · rw [he, hs] at ht; cases ht
  · rw [he, hs] at ht; cases ht
  · exact ⟨hc, ha⟩

/-- A fetch that reports no violation leaves the core's side alone. -/
theorem fetch_core_of_unreported {p : Config.Params} {acc : Access} {s t : State} (h : fetch p acc s = .next t)
    (hr : t.out.report = none) : t.core = s.core := by
  obtain ⟨hr', -⟩ | ⟨hc, -⟩ | ⟨hc, -⟩ := fetch_fetches h
  · rw [hr] at hr'; cases hr'
  · exact hc
  · exact hc

/-! ### Indirect branches (40_compression R145) and exceptions (R133, R150) -/

/-- Settles O21: the fetch is of the register's value in the two pointer form, and what is delivered is what was fetched. -/
theorem indirectBranchGoesToRegister : Obligations.IndirectBranchGoesToRegister := by
  intro p src rest s u hi h hd
  obtain ⟨w, hw⟩ := Option.isSome_iff_exists.mp hd
  simp only [transact, hi] at h
  obtain ⟨hcore, hacc⟩ := fetch_executed (s := State.dropPrefetch { s.cleared with inputs := rest }) h rfl
    (State.executes_of_delivered hw)
  rw [hacc]
  refine ⟨?_, ?_, ?_, rfl, rfl, hcore⟩ <;> (rintro rfl; rfl)

/-- A vector is fetched in Decompression ON mode exactly where the part, EN_COMP and EXC_COMP say so (40_compression R133). -/
theorem accessMode_entry_eq_on_iff {p : Config.Params} {gov : Bbcmcr} {acc : Access} (h : acc.entry = true) :
    accessMode p gov acc = .on ↔ p.hasComp = true ∧ gov.enComp = true ∧ gov.excComp = true := by
  simp [accessMode, h, ← and_assoc, and_comm]

/-- Settles O44: the vector's mode by `accessMode_entry_eq_on_iff`; SRR0 is saved before the fetch, and no fetch but a reported one
changes it. -/
theorem exceptionRoutineMode : Obligations.ExceptionRoutineMode := by
  refine ⟨fun p acc s t hentry hset _ hs h ht => ?_, fun p acc rest s t hi hentry hon h hr => ?_⟩
  · obtain ⟨-, hacc⟩ := fetch_executed h hs ht
    rw [hacc, State.governing_settled hset]
    exact accessMode_entry_eq_on_iff hentry
  · simp only [transact, hi, occur, hentry, if_true] at h
    rw [fetch_core_of_unreported h hr]
    simp [State.returnAddress, hon]

/-! ### Word alignment (20_memory R74) -/

/-- The two last bits of a word are zero exactly when it is a multiple of four. -/
theorem docField_last_eq_zero_iff (w : Word) : docField w 30 2 = 0#2 ↔ w.toNat % 4 = 0 := by
  rw [← BitVec.toNat_inj, docField, BitVec.extractLsb'_toNat]
  simp

/-- The base word of a compressed address is word aligned. -/
theorem baseWord_aligned (p : Config.Params) (a : Word) : (baseWord p a).toNat % 4 = 0 := by
  have hbase : p.compBase.toNat = p.compWord.toNat * 4 := by
    rw [Config.Params.compBase, BitVec.toNat_append]
    simp [Nat.shiftLeft_eq]
  rw [baseWord_eq_add_ofNat, BitVec.toNat_add, BitVec.toNat_ofNat, hbase]
  omega

/-- Every word a compressed access goes to first is word aligned. -/
theorem physicalWords_aligned {p : Config.Params} {f : AddrForm} {a w : Word} (h : w ∈ physicalWords p f a) :
    docField w 30 2 = 0#2 := by
  have hw : w = baseWord p a ∨ w = baseWord p a + 4#32 := by
    cases f with
    | onePointer => exact .inl (List.mem_singleton.mp h)
    | twoPointer =>
      simp only [physicalWords] at h
      split at h
      · simpa using h
      · exact .inl (List.mem_singleton.mp h)
  have hbase := baseWord_aligned p a
  rw [docField_last_eq_zero_iff]
  obtain rfl | rfl := hw
  · exact hbase
  · rw [BitVec.toNat_add, BitVec.toNat_ofNat]
    omega

/-! ### A fetch that is served at once -/

/-- Relocation leaves the address of an access in Decompression ON mode alone, where it has a meaning (43_exception_relocation R262). -/
theorem relocate_on {p : Config.Params} {gov : Bbcmcr} {acc : Access} (hm : accessMode p gov acc = .on)
    (hn : relocationMeaningless p gov .on acc.addr = false) :
    relocate p gov (accessMade p .on acc).addr = .addr (accessMade p .on acc).addr := by
  unfold relocate
  cases het : gov.etre with
  | false => split <;> rfl
  | true =>
    have hentry : acc.entry = false := by
      by_contra he
      obtain ⟨hc, hen, hex⟩ := (accessMode_entry_eq_on_iff (by simpa using he)).mp hm
      simp [relocationMeaningless, hc, hen, hex, het] at hn
    obtain ⟨-, htable⟩ : _ ∧ inExceptionTable acc.addr = false := by
      simpa [relocationMeaningless, het] using hn
    simp [accessMade, hentry, htable]

/-- The access of a fetch as it waits on the U-bus for its answer. -/
def State.awaited (p : Config.Params) (acc : Access) (m : DMode) (words : List Word) (s : State) : Pending :=
  { acc := accessMade p m acc, mode := m, words := words, gov := s.governing p, judgedBy := s.impu, refused := none }

/-- The state in which the access of a fetch, forwarded with nothing older pending, is answered. -/
def State.sent (p : Config.Params) (acc : Access) (m : DMode) (words : List Word) (s : State) : State :=
  let forwarded := (s.flowTo acc).issuing.forward p (s.governing p) (accessMade p m acc) m false words
  { forwarded with pending := [], draws := forwarded.draws + 1 }

/-- Sending an access puts it on the U-bus. -/
theorem State.sent_appears (p : Config.Params) (acc : Access) (m : DMode) (words : List Word) (s : State) :
    AppearsOnBus p (s.governing p) (accessMade p m acc) m false words s (s.sent p acc m words) :=
  (forward_appears _ _ _ _ _ _ (s.flowTo acc).issuing).congr rfl rfl

/-- Sending an access makes the core's flow go to it, and leaves memory, the core's side and the ten registers alone. -/
theorem State.sent_keeps (p : Config.Params) (acc : Access) (m : DMode) (words : List Word) (s : State) :
    (s.sent p acc m words).icdu = (s.flowTo acc).icdu ∧ (s.sent p acc m words).acc = acc ∧ (s.sent p acc m words).pending = [] ∧
      (s.sent p acc m words).mem = s.mem ∧ (s.sent p acc m words).stored = s.stored ∧ (s.sent p acc m words).core = s.core ∧
      SameRegisters s (s.sent p acc m words) := by
  simp [State.sent, SameRegisters]

/-- An allowed fetch with nothing older pending comes out as its data does, which the core executes. -/
theorem fetch_served {p : Config.Params} {acc : Access} {m : DMode} {s : State} {a : Word} (ha : Admitted p acc m s)
    (hp : s.pending = []) (hc : s.impu.check p (accessMade p m acc) m (p.freeBit (s.draws + 5)) = .allowed)
    (hn : relocationMeaningless p (s.governing p) m acc.addr = false)
    (hr : relocate p (s.governing p) (accessMade p m acc).addr = .addr a) :
    fetch p acc s =
      match answerData p (s.awaited p acc m (forwardedWords p m acc.form a)) (s.sent p acc m (forwardedWords p m acc.form a)) with
      | .next u => .next (u.toExecute (accessMade p m acc))
      | .fault f => .fault f
      | .refused r => .refused r :=
  (fetch_allowed ha hp hc hn hr).trans (answer_allowed (e := s.awaited p acc m (forwardedWords p m acc.form a))
    (by simp [hp, State.awaited]) rfl (Impu.check_allowed hc _))

/-- A decompression that would read a byte the core has stored to has no meaning (20_memory R83, decision D28). -/
theorem answerData_stored {p : Config.Params} {e : Pending} {s : State} {d : Decoded} (hd : e.acc.dbg = false)
    (hm : e.mode = .on) (hi : icduDecode p s.mem s.icdu e.acc.form e.acc.addr = some d)
    (hs : d.words.any (Memory.storedIn s.stored) = true) : answerData p e s = .refused .storedLocation := by
  simp only [answerData, hd, hm, hi, hs, Bool.false_eq_true, if_false, if_true]

/-- Settles O46: relocation leaves the address alone, what is prefetched agrees, and the decompression is handed over, its further words
behind the first ones. -/
theorem compressedFetchDeliversInstruction : Obligations.CompressedFetchDeliversInstruction := by
  rintro p acc s a d ⟨hadm, hp, hset⟩ hdbg rfl hc hn hpre hd
  have hgov := State.governing_settled (p := p) hset
  have ⟨_, hm, _, _⟩ := hadm
  rw [hgov] at hm
  have hserved := fetch_served hadm hp hc (by rwa [hgov]) (by rw [hgov]; exact relocate_on hm.symm hn)
  obtain ⟨hicdu, hacc, hpending, hmem, hstored, hcore, hregs⟩ :=
    s.sent_keeps p acc .on (physicalWords p acc.form (accessMade p .on acc).addr)
  have hdecode := (icduDecode_eq_decompress (u := (s.flowTo acc).icdu) (fun e he => hpre e (State.prefetched_of_flowTo he))
    acc.form (accessMade p .on acc).addr).trans hd
  rw [← hicdu, ← hmem] at hdecode
  rw [forwardedWords] at hserved
  refine ⟨fun hs => ?_, fun hs => ?_⟩
  · rw [← hstored] at hs
    rw [hserved, answerData_stored (d := d) hdbg rfl hdecode hs]
  · rw [← hstored] at hs
    rw [answerData_decompressed (d := d) hdbg rfl hdecode hs] at hserved
    refine ⟨_, hserved, rfl, rfl, rfl, (decompress_some hd).2, fun w => physicalWords_aligned, ?_, rfl, rfl, rfl, rfl, rfl,
      State.toExecute_acc_of_made (by simp [hacc]), by simp [hpending], ⟨by simp [hregs.1], by simp [hregs.2]⟩, by simp [hcore],
      by simp [hmem], by simp [hstored]⟩
    rw [← hgov]
    exact (s.sent_appears ..).append hdbg ((forward_appears ..).congr rfl rfl)

end Sys2Proof.Machine
end

section
/-!
PROOFS. A fetch of plain code served at once, the instruction a step runs, and standby (41_modes_of_operation R182, R185, R190, R191,
43_exception_relocation R256, 20_memory R73, R83).
-/

namespace Sys2Proof.Machine

/-! ### A fetch of plain code that is served at once -/

/-- An access in Decompression OFF mode is made at the address the core issued. -/
theorem accessMade_off (p : Config.Params) (acc : Access) : accessMade p .off acc = { acc with dmode := .off } := by
  simp [accessMade]

/-- Plain code that the core has stored to has no meaning (20_memory R83, decision D28). -/
theorem answerData_plain_stored {p : Config.Params} {e : Pending} {s : State} (hd : e.acc.dbg = false) (hm : e.mode = .off)
    (hs : Memory.storedIn s.stored (e.words.headD e.acc.addr) = true) : answerData p e s = .refused .storedLocation := by
  simp only [answerData, hd, hm, hs, Bool.false_eq_true, if_false, if_true]

/-- The state after a fetch of plain code from the word at `a`: the word is handed to the core for execution, and what was prefetched is
discarded. -/
def State.plainFetched (p : Config.Params) (acc : Access) (a : Word) (s : State) : State :=
  { s with
    mode := .active
    parked := true
    lastBus := some a
    icdu := { s.icdu with prefetched := none }
    acc := { acc with dmode := .off }
    draws := s.draws + 7
    out := {
      bus := s.out.bus ++ memoryAccesses p (s.governing p) acc .off false s.lastBus [a]
      word := some (Memory.readWord p s.mem a)
      next := none
      report := s.out.report
      executes := true } }

/-- Forwarding an access that is not for the debug port (41_modes_of_operation R182, R189). -/
theorem State.forward_memory {acc : Access} (hd : acc.dbg = false) (p : Config.Params) (gov : Bbcmcr) (m : DMode) (cancelled : Bool)
    (words : List Word) (s : State) :
    s.forward p gov acc m cancelled words = { s with
      parked := true
      lastBus := words.getLast?.or s.lastBus
      out := { s.out with bus := s.out.bus ++ memoryAccesses p gov acc m cancelled s.lastBus words } } :=
  if_neg (by simp [hd])

/-- Whether the access is the prefetched successor or not, nothing stays prefetched where plain code is executed. -/
theorem State.flowTo_prefetch_dropped (acc : Access) (s : State) :
    { (s.flowTo acc).icdu with prefetched := none } = { s.icdu with prefetched := none } := by
  rw [State.flowTo_icdu]
  split <;> rfl

/-- The state in which an access of plain code is answered. -/
theorem State.sent_plain {p : Config.Params} {acc : Access} {s : State} (hd : acc.dbg = false) (hp : s.pending = []) (a : Word) :
    s.sent p acc .off [a] = { s with
      mode := .active
      parked := true
      lastBus := some a
      icdu := (s.flowTo acc).icdu
      acc := acc
      draws := s.draws + 7
      out := { s.out with bus := s.out.bus ++ memoryAccesses p (s.governing p) acc .off false s.lastBus [a] } } := by
  rw [State.sent, State.forward_memory (acc := accessMade p .off acc) hd, accessMade_off, hp]
  rfl

/-- The word of plain code, once sent for and delivered, is executed in the state `plainFetched` names. -/
theorem State.sent_deliver_toExecute {p : Config.Params} {acc : Access} {s : State} (hd : acc.dbg = false) (hp : s.pending = [])
    (a : Word) :
    ((s.sent p acc .off [a]).deliver (Memory.readWord p s.mem a) none).toExecute (accessMade p .off acc) =
      s.plainFetched p acc a := by
  rw [State.sent_plain hd hp, accessMade_off]
  exact congrArg (fun u => { s.plainFetched p acc a with icdu := u }) (s.flowTo_prefetch_dropped acc)

/-- A fetch of plain code that the IMPU allows and relocation sends to `a`, with nothing older pending: the word at `a` is handed to the
core, or refused where the core has stored to it. -/
theorem fetch_plain {p : Config.Params} {acc : Access} {s : State} {a : Word} (ha : Admitted p acc .off s) (hp : s.pending = [])
    (hd : acc.dbg = false)
    (hc : s.impu.check p (accessMade p .off acc) .off (p.freeBit (s.draws + 5)) = .allowed)
    (hn : relocationMeaningless p (s.governing p) .off acc.addr = false) (hr : relocate p (s.governing p) acc.addr = .addr a) :
    fetch p acc s =
      if Memory.storedIn s.stored a then .refused .storedLocation else .next (s.plainFetched p acc a) := by
  have hserved := fetch_served ha hp hc hn (by rwa [accessMade_off])
  obtain ⟨-, -, -, hmem, hstored, -, -⟩ := s.sent_keeps p acc .off [a]
  rw [forwardedWords] at hserved
  cases hs : Memory.storedIn s.stored a with
  | true =>
    rw [hserved, answerData_plain_stored hd rfl (by rwa [hstored])]
    rfl
  | false =>
    rw [hserved, answerData_plain hd rfl (by rwa [hstored]), hmem]
    exact congrArg Host.Outcome.next (State.sent_deliver_toExecute hd hp a)

/-- What such a fetch puts on the U-bus. -/
theorem State.plainFetched_appears {p : Config.Params} {acc : Access} (hd : acc.dbg = false) (a : Word) (s : State) :
    AppearsOnBus p (s.governing p) acc .off false [a] s (s.plainFetched p acc a) :=
  (forward_appears p (s.governing p) acc .off false [a] s).congr rfl (by rw [State.forward_memory hd]; rfl)

/-- Settles O36: with BBCMCR settled it is `fetch_plain`, which names the whole state after it. -/
theorem allowedFetchDeliversWord : Obligations.AllowedFetchDeliversWord := by
  rintro p acc s a ⟨hadm, hp, hset⟩ hd hc hn hr
  rw [← State.governing_settled (p := p) hset] at hn hr ⊢
  rw [fetch_plain hadm hp hd hc hn hr]
  exact ⟨fun hs => if_pos hs, fun hs => ⟨_, if_neg (by simp [hs]), rfl, rfl, rfl, State.plainFetched_appears hd a s, rfl, hp, rfl,
    ⟨rfl, rfl⟩, hset, rfl, rfl, rfl, rfl⟩⟩

/-! ### The instruction a step runs -/

/-- A step whose transaction hands the core a word of the table runs that instruction. -/
theorem step_eq_exec {s u : State} {w : Word} {i : Instr} (hu : transact Config.chip s = .next u) (hw : u.delivered = some w)
    (hi : decodeWord u.acc.dmode w = .ok i) : step s = exec i u := by
  simp only [step, hu, hw, hi]

/-- A step whose transaction hands the core no word is that transaction. -/
theorem step_eq_transact {s u : State} (hu : transact Config.chip s = .next u) (hw : u.out.executes = false) : step s = .next u := by
  simp only [step, hu, State.delivered, hw, Bool.false_eq_true, if_false]

/-- With nothing presented or pending the core's own next access is fetched. -/
theorem transact_ownFetch {p : Config.Params} {s : State} (hi : s.inputs = []) (hm : s.mode ≠ .powerSave) (hp : s.pending = []) :
    transact p s = fetch p s.acc s.cleared := by
  simp [transact, goOn, hi, hm, hp]

/-- A step with nothing presented or pending, whose access is one of plain code that is allowed, runs the instruction in memory. -/
theorem step_ownFetch {s : State} {i : Instr} {a : Word} (hi : s.inputs = []) (ha : Admitted Config.chip s.acc .off s)
    (hp : s.pending = []) (hd : s.acc.dbg = false)
    (hc : s.impu.check Config.chip (accessMade Config.chip .off s.acc) .off (Config.chip.freeBit (s.draws + 5)) = .allowed)
    (hn : relocationMeaningless Config.chip (s.governing Config.chip) .off s.acc.addr = false)
    (hr : relocate Config.chip (s.governing Config.chip) s.acc.addr = .addr a) (hs : Memory.storedIn s.stored a = false)
    (hw : decodeWord .off (Memory.readWord Config.chip s.mem a) = .ok i) :
    step s = exec i (s.cleared.plainFetched Config.chip s.acc a) := by
  have hfetch := fetch_plain (s := s.cleared) ha hp hd hc hn hr
  have ⟨hmode, _, _, _⟩ := ha
  rw [if_neg (by simp [hs]), ← transact_ownFetch hi hmode hp] at hfetch
  exact step_eq_exec hfetch rfl hw

/-- Settles O53: a step reads its transaction's word, and `step_ownFetch` names the state after a fetch of plain code. -/
theorem stepRunsDecodedInstruction : Obligations.StepRunsDecodedInstruction := by
  refine ⟨fun s u w i => step_eq_exec, ?_⟩
  rintro s i a hi ⟨hadm, hp, hset⟩ hd hc hn hr hs hw
  rw [← State.governing_settled (p := Config.chip) hset] at hn hr
  exact ⟨_, step_ownFetch hi hadm hp hd hc hn hr hs hw⟩

/-- The access of a placed instruction is word aligned and outside the exception table (log 2). -/
theorem plainAccess_addr (acc : Access) :
    docField (plainAccess acc).addr 30 2 = 0#2 ∧ inExceptionTable (plainAccess acc).addr = false := by
  unfold plainAccess
  dsimp only
  split
  · next h => simpa using h
  · decide

/-- In Decompression OFF mode whether relocation has a meaning does not depend on the address. -/
theorem relocationMeaningless_off (p : Config.Params) (gov : Bbcmcr) (a b : Word) :
    relocationMeaningless p gov .off a = relocationMeaningless p gov .off b := rfl

/-- Outside the exception table relocation leaves an address alone. -/
theorem relocate_outside {a : Word} (h : inExceptionTable a = false) (p : Config.Params) (gov : Bbcmcr) :
    relocate p gov a = .addr a := by
  simp [relocate, h]

/-- What a table word decodes to is what the decoder reads from it in plain code. -/
theorem decodeWord_of_decodeTableWord {nbits w : Nat} {i : Instr} (h : decodeTableWord nbits w = some i) :
    decodeWord .off (BitVec.ofNat 32 w) = .ok i := by
  rw [decodeTableWord, ← List.append_nil (bytesOfWord _), decodeBytes_bytesOfWord] at h
  cases hd : decodeWord .off (BitVec.ofNat 32 w) with
  | ok j => rw [hd] at h; cases h; rfl
  | error e => rw [hd] at h; cases h

/-- The access of a placed instruction is admitted. -/
theorem placedFor_admitted (p : Config.Params) (w : Word) (s : State) : Admitted p (s.placedFor w).acc .off (s.placedFor w) := by
  refine ⟨?_, rfl, nofun, fun _ => ?_⟩
  · simp only [State.placedFor]
    split
    · decide
    · assumption
  · rw [accessMade_off]
    exact (plainAccess_addr s.acc).1

/-- Settles O54: the placed access is admitted, allowed and not relocated, and the word read is the one placed. -/
theorem placedInstructionRuns : Obligations.PlacedInstructionRuns := by
  intro s nbits w i hi hn
  refine ⟨_, step_ownFetch (a := (plainAccess s.acc).addr) rfl (placedFor_admitted Config.chip (BitVec.ofNat 32 w) s) rfl rfl
    (Impu.check_of_not_msrIr rfl ..) ((relocationMeaningless_off ..).trans hn) (relocate_outside (plainAccess_addr s.acc).2 ..) rfl ?_,
    ⟨rfl, rfl⟩, rfl, rfl, rfl, rfl, rfl, rfl, rfl⟩
  exact (congrArg _ (Memory.readWord_placeWord ..)).trans (decodeWord_of_decodeTableWord hi)

/-! ### Standby (41_modes_of_operation R190, R191) -/

/-- Standby is entered where nothing is pending. -/
theorem standbyEnter_of_idle {s : State} (h : s.pending = []) : standbyEnter s = .next { s with mode := .powerSave, pending := [] } := by
  simp [standbyEnter, h]

/-- The step that enters standby with nothing pending. -/
theorem step_standbyEnter {s : State} {rest : List Event} (hi : s.inputs = .standbyEnter :: rest) (hp : s.pending = []) :
    step s = .next { s.cleared with inputs := rest, mode := .powerSave, pending := [] } := by
  have hu : transact Config.chip s = standbyEnter { s.cleared with inputs := rest } := by simp only [transact, hi, occur]
  exact step_eq_transact (hu.trans (standbyEnter_of_idle hp)) rfl

/-- The step that leaves standby. -/
theorem step_standbyExit {s : State} {rest : List Event} (hi : s.inputs = .standbyExit :: rest) :
    step s = .next (standbyExit { s.cleared with inputs := rest }) := by
  have hu : transact Config.chip s = .next (standbyExit { s.cleared with inputs := rest }) := by simp only [transact, hi, occur]
  refine step_eq_transact hu ?_
  obtain hx | hx := standbyExit_eq { s.cleared with inputs := rest } <;> rw [hx] <;> rfl

/-- After standby the mode is another one. -/
theorem standbyExit_mode (s : State) : (standbyExit s).mode ≠ .powerSave := by
  unfold standbyExit
  split
  · simp
  · assumption

/-- Settles O42: the two steps, field by field. -/
theorem standbyKeepsRegisters : Obligations.StandbyKeepsRegisters := by
  refine ⟨fun s rest hi hp => ⟨_, step_standbyEnter hi hp, rfl, ⟨rfl, rfl⟩, rfl, rfl, rfl, rfl⟩,
    fun s rest hi => ⟨_, step_standbyExit hi, standbyExit_mode _, ?_⟩⟩
  obtain hx | hx := standbyExit_eq { s.cleared with inputs := rest } <;> rw [hx] <;> exact ⟨⟨rfl, rfl⟩, rfl, rfl, rfl, rfl⟩

/-- In standby no access is issued. -/
theorem issue_standby {s : State} (h : s.mode = .powerSave) (p : Config.Params) (taken : Bool) (acc : Access) :
    issue p taken acc s = .refused .powerSave :=
  if_pos h

/-- In standby no register of the module is written or read. -/
theorem exec_standby {s : State} (h : s.mode = .powerSave) {i : Instr} {r : Spr} {x : Reg} (hi : WritesSpr i r x ∨ ReadsSpr i r x) :
    exec i s = .refused .powerSave := by
  obtain hw | hr := hi
  · rw [exec_writes hw]; exact if_pos h
  · rw [exec_reads hr]; exact if_pos h

/-- With nothing presented a step in standby ends the outputs of the step before. -/
theorem step_standby {s : State} (h : s.mode = .powerSave) (hi : s.inputs = []) : step s = .next s.cleared := by
  refine step_eq_transact ?_ rfl
  simp [transact, goOn, hi, h]

/-- Settles O41: entry by `step_standbyEnter`, then every operation asks for the mode first. -/
theorem standbyServesNothing : Obligations.StandbyServesNothing :=
  ⟨fun _ _ hi hp => ⟨_, step_standbyEnter hi hp, rfl⟩, fun s h =>
    ⟨fun p acc => ⟨fetch_of_issue_refused (issue_standby (s := s.flowTo acc) h ..), fun taken => issue_standby h p taken acc⟩,
      fun _ _ _ hi => exec_standby h hi, step_standby h⟩⟩

end Sys2Proof.Machine
end

section
/-!
PROOFS. What accesses put on the U-bus: the burst request (41_modes_of_operation R183, R193, R194) and the single access to the debug
port (R189, decision D35).
-/

namespace Sys2Proof.Machine

/-! ### The burst request (41_modes_of_operation R183, R193, R194) -/

/-- Every access put on the U-bus between two states carries the burst request as `be` and the debug bit `dbg` say, and is carried
out as a burst only with the request. -/
def BurstsAsEnabled (be dbg : Bool) (s t : State) : Prop :=
  ∃ shown, t.out.bus = s.out.bus ++ shown ∧
    ∀ b ∈ shown, b.burst = (be && !dbg) ∧ (b.carriedAsBurst = true → b.burst = true)

/-- Where the U-bus shows nothing new there is nothing to say. -/
theorem BurstsAsEnabled.of_same_bus {be dbg : Bool} {s t : State} (h : t.out.bus = s.out.bus) : BurstsAsEnabled be dbg s t :=
  ⟨[], by simp [h], by simp⟩

/-- What is put on the U-bus in two stretches is what each puts there. -/
theorem BurstsAsEnabled.trans {be dbg : Bool} {s t u : State} (h : BurstsAsEnabled be dbg s t) (k : BurstsAsEnabled be dbg t u) :
    BurstsAsEnabled be dbg s u := by
  obtain ⟨xs, hb, h⟩ := h
  obtain ⟨ys, kb, k⟩ := k
  exact ⟨xs ++ ys, by rw [kb, hb, List.append_assoc], fun b hm => (List.mem_append.mp hm).elim (h b) (k b)⟩

/-- What an access puts on the U-bus carries the burst request as the BBCMCR value it was issued under says. -/
theorem AppearsOnBus.bursts {p : Config.Params} {gov : Bbcmcr} {acc : Access} {m : DMode} {cancelled : Bool} {words : List Word}
    {s t : State} (h : AppearsOnBus p gov acc m cancelled words s t) : BurstsAsEnabled gov.be acc.dbg s t := by
  obtain ⟨shown, hb, -, h⟩ := h
  refine ⟨shown, hb, fun b hm => ?_⟩
  obtain ⟨hburst, hcarried, -⟩ := h b hm
  exact ⟨hburst, hcarried⟩

/-- A violation shows its cancelled access or nothing. -/
theorem ShowsViolation.bursts {p : Config.Params} {guarded : Bool} {gov : Bbcmcr} {acc : Access} {m : DMode} {s t : State}
    (h : ShowsViolation p guarded gov acc m s t) : BurstsAsEnabled gov.be acc.dbg s t := by
  cases hc : acc.showCycle || acc.ptrace with
  | false => exact .of_same_bus (h.hidden hc)
  | true => exact (h.shown hc).bursts

/-- Delivered data puts at most the further words of a decompression on the U-bus. -/
theorem Delivers.bursts {p : Config.Params} {e : Pending} {s t : State} (h : Delivers p e s t) :
    BurstsAsEnabled e.gov.be e.acc.dbg s t := by
  obtain ⟨-, rfl⟩ | ⟨-, -, -, rfl⟩ | ⟨-, -, d, -, -, rfl⟩ := h
  · exact .of_same_bus (by cases e.mode <;> rfl)
  · exact .of_same_bus rfl
  · exact ((forward_appears ..).congr rfl rfl : AppearsOnBus p e.gov e.acc .on false _ s _).bursts

/-- What the answer to an access puts on the U-bus. -/
theorem Answers.bursts {p : Config.Params} {wanted : Bool} {e : Pending} {s t : State} (h : Answers p wanted e s t) :
    BurstsAsEnabled e.gov.be e.acc.dbg s t := by
  obtain ⟨guarded, -, rfl⟩ | ⟨guarded, -, rfl⟩ | ⟨u, -, hu, rfl⟩ := h
  · exact .of_same_bus (by cases wanted <;> rfl)
  · exact (refuseAccess_shows ..).bursts
  · exact hu.bursts.trans (.of_same_bus (by rw [(u.handOver_shows wanted e.acc s.icdu).1]))

/-- What an answer puts on the U-bus, by the access answered. -/
theorem answer_bursts {p : Config.Params} {wanted : Bool} {s t : State} {e : Pending} {rest : List Pending}
    (hp : s.pending = e :: rest) (h : answer p wanted s = .next t) : BurstsAsEnabled e.gov.be e.acc.dbg s t := by
  obtain ⟨hq, -⟩ | ⟨e', rest', hq, ha⟩ := answer_next h
  · rw [hp] at hq; cases hq
  · rw [hp] at hq
    cases hq
    exact ha.bursts

/-- What issuing an access puts on the U-bus. -/
theorem issue_bursts {p : Config.Params} {taken : Bool} {acc : Access} {s t : State} (h : issue p taken acc s = .next t) :
    BurstsAsEnabled (s.governing p).be acc.dbg s t := by
  obtain ⟨-, ⟨m, guarded, -, -, rfl⟩ | ⟨m, a, -, -, -, -, rfl⟩⟩ := issue_next h
  · have hshow := (refuseAccess_shows p taken guarded (s.governing p) (accessMade p m acc) m s.issuing).bursts
    cases taken <;> exact hshow
  · exact (forward_appears p (s.governing p) (accessMade p m acc) m false _ s.issuing).bursts

/-- An access that joins an empty queue waits there with its debug bit and the BBCMCR value it was issued under. -/
theorem issue_joins {p : Config.Params} {taken : Bool} {acc : Access} {s t : State} {e : Pending} {rest : List Pending}
    (h : issue p taken acc s = .next t) (hp : s.pending = []) (hq : t.pending = e :: rest) :
    e.gov = s.governing p ∧ e.acc.dbg = acc.dbg := by
  obtain ⟨-, ⟨m, guarded, -, -, rfl⟩ | ⟨m, a, -, -, -, -, rfl⟩⟩ := issue_next h
  · cases taken with
    | true => simp [hp] at hq
    | false =>
      obtain ⟨rfl, -⟩ := by simpa [hp] using hq
      exact ⟨rfl, rfl⟩
  · obtain ⟨rfl, -⟩ := by simpa [hp] using hq
    exact ⟨rfl, rfl⟩

/-- What a fetch puts on the U-bus, its answer included. -/
theorem fetch_bursts {p : Config.Params} {acc : Access} {s t : State} (h : fetch p acc s = .next t) :
    BurstsAsEnabled (s.governing p).be acc.dbg s t := by
  obtain ⟨u, hu, hx⟩ := fetch_next h
  have hissued : BurstsAsEnabled (s.governing p).be acc.dbg s u := issue_bursts (s := s.flowTo acc) hu
  obtain rfl | ⟨hp, hne, ha⟩ := hx
  · exact hissued
  · obtain ⟨e, rest, hq⟩ := List.exists_cons_of_ne_nil hne
    obtain ⟨hgov, hdbg⟩ := issue_joins (s := s.flowTo acc) hu hp hq
    have hanswered := answer_bursts hq ha
    rw [hgov, hdbg] at hanswered
    exact hissued.trans hanswered

/-- Settles O37: what a fetch, an issue and an answer put on the U-bus, with BBCMCR settled. -/
theorem burstRequestExactlyWhenEnabled : Obligations.BurstRequestExactlyWhenEnabled := by
  refine ⟨fun p acc s t hset h => ?_, fun p wanted s t e rest hp hbe h => ?_⟩
  · rw [← State.governing_settled (p := p) hset]
    obtain hf | ⟨taken, hi⟩ := h
    · exact fetch_bursts hf
    · exact issue_bursts hi
  · rw [← hbe]
    exact answer_bursts hp h

/-! ### The debug port (41_modes_of_operation R189) -/

/-- A debug port access puts one single access on the U-bus, to the debug port. -/
theorem AppearsOnBus.toDebugPort {p : Config.Params} {gov : Bbcmcr} {acc : Access} {m : DMode} {cancelled : Bool} {words : List Word}
    {s t : State} (h : AppearsOnBus p gov acc m cancelled words s t) (hd : acc.dbg = true) :
    ∃ b, t.out.bus = s.out.bus ++ [b] ∧ b.dest = .debugPort ∧ b.burst = false ∧ b.carriedAsBurst = false ∧ b.dbg = true := by
  obtain ⟨shown, hb, hdest, h⟩ := h
  rw [if_pos hd, List.map_eq_singleton_iff] at hdest
  obtain ⟨b, rfl, hport⟩ := hdest
  obtain ⟨hburst, hcarried, -, -, -, hdbg, -⟩ := h b (List.mem_singleton_self b)
  rw [hd, Bool.not_true, Bool.and_false] at hburst
  refine ⟨b, hb, hport, hburst, ?_, hdbg.trans hd⟩
  rw [hburst] at hcarried
  simpa using hcarried

/-- The data of a debug port access is what the port returns, whatever memory holds. -/
theorem answerData_debug {e : Pending} (hd : e.acc.dbg = true) (p : Config.Params) (s : State) :
    answerData p e s = .next (s.answerDebug p e.mode) :=
  if_pos hd

/-- What the debug port returns: a free word, in Decompression ON mode with a free next instruction address; nothing goes on the
U-bus. -/
theorem State.answerDebug_out (p : Config.Params) (m : DMode) (s : State) :
    (s.answerDebug p m).out.bus = s.out.bus ∧ (s.answerDebug p m).out.word = some (p.freeWord s.draws) ∧
      (m = .on → (s.answerDebug p m).out.next = some (p.freeWord (s.draws + 1))) := by
  cases m with
  | off => exact ⟨rfl, rfl, nofun⟩
  | on => exact ⟨rfl, rfl, fun _ => rfl⟩

/-- Sending an access takes seven free values: six when it is issued and one when it is answered. -/
@[simp] theorem State.sent_draws (p : Config.Params) (acc : Access) (m : DMode) (words : List Word) (s : State) :
    (s.sent p acc m words).draws = s.draws + 7 := by
  simp [State.sent, issueDraws]

/-- Settles O38: a fetch and an issue forward the access to the port, and at once or later the answer is the port's. -/
theorem debugFetchGoesToDebugPort : Obligations.DebugFetchGoesToDebugPort := by
  refine ⟨fun p acc s m a hadm hd hc hn hr => ⟨fun taken => ?_, fun hp => ?_⟩, fun p wanted s e rest hp he hd hc => ?_⟩
  · have happears := forward_appears p (s.governing p) (accessMade p m acc) m false (forwardedWords p m acc.form a) s.issuing
    obtain ⟨b, hb⟩ := happears.toDebugPort hd
    exact ⟨_, b, issue_allowed taken hadm hc hn hr, hb⟩
  · have hserved := fetch_served hadm hp hc hn hr
    rw [answerData_debug hd] at hserved
    obtain ⟨-, hacc, hpending, hmem, -, hcore, himpu, hbbcmcr⟩ := s.sent_keeps p acc m (forwardedWords p m acc.form a)
    obtain ⟨b, hbus, hport⟩ := (s.sent_appears p acc m (forwardedWords p m acc.form a)).toDebugPort hd
    obtain ⟨hout, hword, hnext⟩ := (s.sent p acc m (forwardedWords p m acc.form a)).answerDebug_out p m
    rw [State.sent_draws] at hword hnext
    obtain ⟨hdest, hburst, hcarried, hdbg⟩ := hport
    exact ⟨_, b, hserved, hout.trans hbus, hdest, hburst, hcarried, hdbg, hword, hnext, rfl,
      State.toExecute_acc_of_made (by simp [hacc]), by simp [hpending], ⟨by simp [himpu], by simp [hbbcmcr]⟩,
      by simp [hcore], by simp [hmem]⟩
  · obtain ⟨t, ht, hpending, hcore, hout, hpassed⟩ := answer_delivers (wanted := wanted) hp he hc (answerData_debug hd p _)
    have hkept := answer_undisturbed ht
    obtain ⟨hbus, hword, hnext⟩ := State.answerDebug_out p e.mode { s with pending := rest, draws := s.draws + 1 }
    refine ⟨t, ht, by simp [hpending], ?_, ?_, ?_, ?_, ⟨hkept.impu, hkept.bbcmcr⟩, by simp [hcore], hkept.mem, ?_⟩
    · rw [hout]; exact hbus
    · rw [hout]; exact hword
    · rw [hout]; exact hnext
    · rw [hout]; simp
    · simpa using hpassed

end Sys2Proof.Machine
end

section
/-!
PROOFS. The IMPU: which addresses a region matches, which region is chosen, and what the checks of PP, G and CMPR allow, report and
refuse a meaning (42_impu_protection R210 to R222, 60_exceptions R311, decision D10).
-/

namespace Sys2Proof.Machine

/-! ### Region match (42_impu_protection R212, R213) -/

/-- Bits 0:19 of an address are its 4-Kbyte page. -/
theorem docField_page_toNat (a : Word) : (docField a 0 20).toNat = a.toNat / 4096 := by
  rw [docField, BitVec.extractLsb'_toNat, Nat.shiftRight_eq_div_pow]
  omega

/-- A region matches by pages, bits 20:31 of the address taking no part: from its base page on, as many as RS says. -/
theorem Impu.matches_iff {m : Impu} {k : Fin 4} {a : Word} : m.matches k a = true ↔
    m.gra.enr[k] = true ∧ m.rba[k].toNat ≤ (docField a 0 20).toNat ∧
      (docField a 0 20).toNat < m.rba[k].toNat + (m.ra[k].rs.toNat + 1) := by
  rw [docField_page_toNat, Impu.matches, Bool.and_eq_true, Bool.and_eq_true, decide_eq_true_iff, decide_eq_true_iff, and_assoc,
    Impu.base, Impu.size, ← Nat.add_mul, ← Nat.le_div_iff_mul_le (by decide), ← Nat.div_lt_iff_lt_mul (by decide)]

/-- An enabled region keeps the preconditions exactly when its size is listed and its base is a multiple of it. -/
theorem Impu.regionLegal_iff_of_enabled {m : Impu} {k : Fin 4} (he : m.gra.enr[k] = true) :
    m.regionLegal k = true ↔ legalSize m.ra[k].rs = true ∧ m.rba[k] &&& m.ra[k].rs = 0#20 := by
  rw [Impu.regionLegal, he, Bool.not_true, Bool.false_or, Bool.and_eq_true, beq_iff_eq]

/-- A number has no bit in common with `2 ^ n - 1` exactly when it is a multiple of `2 ^ n`. -/
theorem and_eq_zero_iff_dvd {w n : Nat} {v rs : BitVec w} (h : rs.toNat = 2 ^ n - 1) : v &&& rs = 0#w ↔ 2 ^ n ∣ v.toNat := by
  rw [← BitVec.toNat_inj, BitVec.toNat_and, h, Nat.and_two_pow_sub_one_eq_mod, BitVec.toNat_ofNat, Nat.zero_mod,
    Nat.dvd_iff_mod_eq_zero]

/-- Clearing the bits of `2 ^ n - 1` takes the last multiple of `2 ^ n` up to a number. -/
theorem toNat_and_not_eq {w n : Nat} {v rs : BitVec w} (h : rs.toNat = 2 ^ n - 1) :
    (v &&& ~~~rs).toNat = v.toNat / 2 ^ n * 2 ^ n := by
  have hbit (i : Nat) (hi : i < w) : rs[i] = decide (i < n) := by
    rw [← BitVec.getLsbD_eq_getElem, ← BitVec.testBit_toNat, h, Nat.testBit_two_pow_sub_one]
  have hshift : v &&& ~~~rs = v >>> n <<< n := by
    ext i hi
    by_cases hn : i < n
    · simp [hbit, hn]
    · simp [hbit, hn, hi, Nat.add_sub_cancel' (Nat.le_of_not_lt hn)]
  rw [hshift, BitVec.toNat_shiftLeft, BitVec.toNat_ushiftRight, Nat.shiftRight_eq_div_pow, Nat.shiftLeft_eq,
    Nat.mod_eq_of_lt ((Nat.div_mul_le_self ..).trans_lt v.isLt)]

/-- A page lies in the `2 ^ n` pages from a multiple of `2 ^ n` on exactly when it is that multiple without its last `n` bits. -/
theorem and_not_eq_iff_of_dvd {w n : Nat} {v b rs : BitVec w} (h : rs.toNat = 2 ^ n - 1) (hb : 2 ^ n ∣ b.toNat) :
    v &&& ~~~rs = b ↔ b.toNat ≤ v.toNat ∧ v.toNat < b.toNat + 2 ^ n := by
  obtain ⟨q, hq⟩ := hb
  have hpos := Nat.two_pow_pos n
  rw [← BitVec.toNat_inj, toNat_and_not_eq h, hq, Nat.mul_comm, Nat.mul_right_inj hpos.ne', Nat.div_eq_iff hpos, Nat.mul_comm q]
  omega

/-- Settles O23: a region matches by pages, a legal size is `2 ^ n` of them, and a legal base is a multiple of that. -/
theorem regionMatchIsMaskCompare : Obligations.RegionMatchIsMaskCompare := by
  refine fun m k a => ⟨fun hoff => ?_, fun hlegal henabled => ?_⟩
  · rw [← Bool.not_eq_true, Impu.matches_iff, hoff]
    exact fun h => Bool.false_ne_true h.1
  · obtain ⟨hsize, hbase⟩ := (Impu.regionLegal_iff_of_enabled henabled).mp hlegal
    obtain ⟨n, -, hn⟩ := (legalSizesArePowersOfTwo.1 _).mp hsize
    rw [Impu.matches_iff, and_not_eq_iff_of_dvd hn ((and_eq_zero_iff_dvd hn).mp hbase), hn, Nat.sub_add_cancel Nat.one_le_two_pow]
    exact and_iff_right henabled

/-! ### The chosen region (42_impu_protection R214, R215) -/

/-- The chosen region is the first of the four that matches. -/
theorem Impu.chosen_eq_find? (m : Impu) (a : Word) : m.chosen a = Fin.find? (fun k => m.matches k a) := by
  have hthree : (2 : Fin 3).succ = 3 := rfl
  simp only [Impu.chosen, Fin.find?_succ, Fin.find?_zero, Fin.succ_zero_eq_one, Fin.succ_one_eq_two, hthree]
  split_ifs <;> rfl

/-- Settles O25: the first that matches. -/
theorem lowestIndexRegionChosen : Obligations.LowestIndexRegionChosen := by
  intro m a
  rw [Impu.chosen_eq_find?]
  exact ⟨fun _ => Fin.find?_eq_some_iff, Fin.find?_eq_none_iff⟩

/-- Settles O26: by the chosen region. -/
theorem attributesOfChosenRegion : Obligations.AttributesOfChosenRegion := by
  intro m a
  obtain ⟨hsome, hnone⟩ := lowestIndexRegionChosen m a
  refine ⟨fun k hk hlower => ?_, fun hk => ?_⟩
  · rw [Impu.attributesAt, (hsome k).mpr ⟨hk, hlower⟩]
  · rw [Impu.attributesAt, hnone.mpr hk]

/-! ### The three checks (42_impu_protection R217, R218, R220) -/

/-- Settles O28: cell by cell. -/
theorem attributeTables : Obligations.AttributeTables := by
  refine ⟨fun v => ?_, fun v => ?_, fun v => ?_, fun m => ?_, fun m => ?_, fun c m => ?_⟩
  · cases v <;> rfl
  · cases v <;> rfl
  · cases v <;> exact ⟨rfl, rfl⟩
  · cases m <;> exact ⟨rfl, rfl⟩
  · cases m <;> exact ⟨rfl, rfl⟩
  · rfl

/-- PP allows both levels from 2 on, and the supervisor with 1. -/
theorem ppOk_iff {pp : BitVec 2} {v : Priv} : ppOk pp v = true ↔ pp = 2#2 ∨ pp = 3#2 ∨ (pp = 1#2 ∧ v = .supervisor) := by
  revert pp
  cases v <;> decide

/-- G stops a speculative access only. -/
theorem gOk_iff {g spec : Bool} : gOk g spec = true ↔ ¬(g = true ∧ spec = true) := by
  rw [gOk, Bool.not_eq_true', ← Bool.not_eq_true, Bool.and_eq_true]

/-- CMPR restricts on the MPC556 only, to OFF mode with 1 and to ON mode with 3. -/
theorem cmprOk_iff {hasComp : Bool} {cmpr : BitVec 2} {m : DMode} :
    cmprOk hasComp cmpr m = true ↔ (hasComp = true → (cmpr = 1#2 → m = .off) ∧ (cmpr = 3#2 → m = .on)) := by
  revert cmpr
  cases hasComp <;> cases m <;> decide

/-! ### The check of an access (42_impu_protection R221) -/

/-- With protection on and legal regions an access is allowed where the three checks allow it, and else a violation. -/
theorem Impu.check_of_legal {p : Config.Params} {u : Impu} {acc : Access} {m : DMode} {at_ : Attributes} (hir : acc.msrIr = true)
    (hlegal : u.legal = true) (hat : u.attributesAt (compareAddr p m acc.addr) = at_) (tie : Bool) :
    u.check p acc m tie =
      if (ppOk at_.pp acc.priv && gOk at_.g acc.spec && cmprOk p.hasComp at_.cmpr m) = true then .allowed
      else .violation (reportsGuarded (ppOk at_.pp acc.priv) (gOk at_.g acc.spec) tie) := by
  simp only [Impu.check, hir, hlegal, hat, Bool.not_true, Bool.false_eq_true, if_false]

/-- With protection on and a region that is not legal the check gives no result. -/
theorem Impu.check_of_not_legal {u : Impu} {acc : Access} (hir : acc.msrIr = true) (hlegal : u.legal = false) (p : Config.Params)
    (m : DMode) (tie : Bool) : u.check p acc m tie = .illegal := by
  simp only [Impu.check, hir, hlegal, Bool.not_true, Bool.not_false, Bool.false_eq_true, if_false, if_true]

/-- Settles O27: protection off allows everything; else the three checks, each by what it allows. -/
theorem allowedExactlyWhenAllChecksPass : Obligations.AllowedExactlyWhenAllChecksPass := by
  refine ⟨fun p u acc m tie hir => Impu.check_of_not_msrIr hir p u m tie, fun p u acc m a tie hir hlegal hoff hon => ?_⟩
  obtain rfl : a = compareAddr p m acc.addr := by
    cases m with
    | off => exact hoff rfl
    | on => exact hon rfl
  rw [Impu.check_of_legal hir hlegal rfl, ← ppOk_iff, ← gOk_iff, ← cmprOk_iff, ← and_assoc, ← Bool.and_eq_true, ← Bool.and_eq_true]
  split_ifs with hok
  · exact iff_of_true rfl hok
  · exact iff_of_false nofun hok

/-- A violation is reported as PP and G say, or by the free bit. -/
theorem Impu.guarded_of_violation {p : Config.Params} {u : Impu} {acc : Access} {m : DMode} {tie guarded : Bool}
    (h : u.check p acc m tie = .violation guarded) :
    guarded = reportsGuarded (ppOk (u.attributesAt (compareAddr p m acc.addr)).pp acc.priv)
      (gOk (u.attributesAt (compareAddr p m acc.addr)).g acc.spec) tie := by
  cases hir : acc.msrIr with
  | false => rw [Impu.check_of_not_msrIr hir] at h; cases h
  | true =>
    cases hlegal : u.legal with
    | false => rw [Impu.check_of_not_legal hir hlegal] at h; cases h
    | true =>
      rw [Impu.check_of_legal hir hlegal rfl] at h
      split_ifs at h
      cases h
      rfl

/-- Settles O29: the bit by the one check that failed, and the two bits of SRR1 by that. -/
theorem violationBitOfOneCause : Obligations.ViolationBitOfOneCause := by
  intro p u acc m tie guarded h
  have hguarded := Impu.guarded_of_violation h
  refine ⟨fun hg hpp => ?_, fun hg hpp => ?_, ?_, rfl, rfl⟩
  · rw [hg, hpp] at hguarded
    subst hguarded
    exact ⟨rfl, rfl, rfl⟩
  · rw [hg, hpp] at hguarded
    subst hguarded
    exact ⟨rfl, rfl, rfl⟩
  · cases guarded <;> rfl

/-! ### Regions that break a precondition (42_impu_protection R213, decision D10) -/

/-- Every enabled region keeps the preconditions exactly when each of the four does or is off. -/
theorem Impu.legal_iff {u : Impu} : u.legal = true ↔ ∀ k, u.regionLegal k = true := by
  simp [Impu.legal, Fin.forall_fin_succ, and_assoc]

/-- A region that breaks a precondition is not legal. -/
theorem BreaksPrecondition.not_legal {u : Impu} (h : BreaksPrecondition u) : u.legal = false := by
  obtain ⟨k, henabled, hbreaks⟩ := h
  rw [← Bool.not_eq_true, Impu.legal_iff]
  intro hlegal
  obtain ⟨hsize, hbase⟩ := (Impu.regionLegal_iff_of_enabled henabled).mp (hlegal k)
  obtain ⟨n, hn, hrs⟩ := (legalSizesArePowersOfTwo.1 _).mp hsize
  obtain hunlisted | hunaligned := hbreaks
  · exact hunlisted n hn hrs
  · exact hunaligned hbase

/-- Issuing an admitted access whose check gives no result. -/
theorem issue_illegal {p : Config.Params} {acc : Access} {m : DMode} {s : State} (taken : Bool) (ha : Admitted p acc m s)
    (hc : s.impu.check p (accessMade p m acc) m (p.freeBit (s.draws + 5)) = .illegal) :
    issue p taken acc s = .refused .illegalRegion := by
  rw [issue_admitted taken ha, hc]

/-- The answer to an access whose check, by the values that govern it, gives no result. -/
theorem answer_illegal {p : Config.Params} {wanted : Bool} {s : State} {e : Pending} {rest : List Pending} (hp : s.pending = e :: rest)
    (he : e.refused = none) (hc : e.judgedBy.check p e.acc e.mode (p.freeBit s.draws) = .illegal) :
    answer p wanted s = .refused .illegalRegion := by
  simp only [answer, hp, he, hc]

/-- Settles O30: a region that breaks a precondition leaves every check without a result, and the access is made with the MSR[IR] it
was issued with. -/
theorem illegalRegionRefusesFetch : Obligations.IllegalRegionRefusesFetch := by
  refine fun p => ⟨fun acc s m ha hir hbreaks => ?_, fun wanted s e rest hp he hir hbreaks => ?_⟩
  · have hc (tie : Bool) : s.impu.check p (accessMade p m acc) m tie = .illegal :=
      Impu.check_of_not_legal (acc := accessMade p m acc) hir hbreaks.not_legal p m tie
    exact ⟨fetch_of_issue_refused (issue_illegal (s := s.flowTo acc) true ha (hc _)), fun taken => issue_illegal taken ha (hc _)⟩
  · exact answer_illegal hp he (Impu.check_of_not_legal hir hbreaks.not_legal ..)

end Sys2Proof.Machine
end

section
/-!
PROOFS. Exception table relocation: where each vector goes, what stays where it is, and the accesses that have no relocated address
(43_exception_relocation R251 to R258, R262, 60_exceptions R316, decisions D11, D12, D36).
-/

namespace Sys2Proof.Machine

/-! ### The table, its entries and the addresses between them (43_exception_relocation R253 to R258) -/

/-- The table is the range of addresses 0xFFF0_0000 to 0xFFF0_1FFF. -/
theorem inExceptionTable_iff {a : Word} : inExceptionTable a = true ↔ 0xFFF00000#32 ≤ a ∧ a ≤ 0xFFF01FFF#32 := by
  have hfield : (docField a 0 19).toNat = a.toNat / 8192 := by
    rw [docField, BitVec.extractLsb'_toNat, Nat.shiftRight_eq_div_pow]
    omega
  rw [inExceptionTable, beq_iff_eq, ← BitVec.toNat_inj, hfield, BitVec.le_def, BitVec.le_def]
  simp only [BitVec.toNat_ofNat]
  omega

/-- The low byte of an address is zero where the address is a multiple of 0x100. -/
theorem docField_lowByte_eq_zero_iff (a : Word) : docField a 24 8 = 0#8 ↔ a.toNat % 256 = 0 := by
  rw [← BitVec.toNat_inj, docField, BitVec.extractLsb'_toNat]
  simp

/-- With relocation off an address stays as it is. -/
theorem relocate_of_not_etre {gov : Bbcmcr} (h : gov.etre = false) (p : Config.Params) (a : Word) : relocate p gov a = .addr a := by
  simp [relocate, h]

/-- An address of the table that is no multiple of 0x100 has no relocated address. -/
theorem relocate_between {gov : Bbcmcr} {a : Word} (he : gov.etre = true) (ht : inExceptionTable a = true) (ha : a.toNat % 256 ≠ 0)
    (p : Config.Params) : relocate p gov a = .gap := by
  simp [relocate, he, ht, docField_lowByte_eq_zero_iff, ha]

/-- The address of vector `n` in the table, the entries being 256 bytes apart. -/
def tableEntry (n : BitVec 5) : Word := 0xFFF00000#32 + (0#27 ++ n) <<< 8

/-- An entry lies in the table, is a multiple of 0x100 and has its vector in bits 19:23. -/
theorem tableEntry_fields : ∀ n, inExceptionTable (tableEntry n) = true ∧ docField (tableEntry n) 24 8 = 0#8 ∧
    docField (tableEntry n) 19 5 = n := by
  decide

/-- With relocation on vector `n` goes to its slot. -/
theorem relocate_vector {gov : Bbcmcr} (he : gov.etre = true) (p : Config.Params) (n : BitVec 5) :
    relocate p gov (tableEntry n) = .addr (p.imb + tableOffset gov.oerc n) := by
  obtain ⟨htable, hlow, hvector⟩ := tableEntry_fields n
  simp [relocate, he, htable, hlow, hvector]

/-- The slot of vector `n` is 8 bytes long, and 32 Kbytes up under OERC but for vector 1. -/
theorem tableOffset_eq (oerc : Bool) (n : BitVec 5) :
    tableOffset oerc n = BitVec.ofNat 32 (8 * n.toNat + if oerc = true ∧ n.toNat ≠ 1 then 0x8000 else 0) := by
  have hslot : (0#27 ++ n : Word) <<< 3 = BitVec.ofNat 32 (8 * n.toNat) := by
    apply BitVec.eq_of_toNat_eq
    rw [BitVec.toNat_shiftLeft, BitVec.toNat_append, BitVec.toNat_ofNat, BitVec.toNat_ofNat]
    simp [Nat.shiftLeft_eq, Nat.mul_comm]
  have hmoved : (oerc && n != 1#5) = true ↔ oerc = true ∧ n.toNat ≠ 1 := by
    simp [← BitVec.toNat_inj]
  rw [tableOffset, hslot, if_congr hmoved rfl rfl]
  split
  · exact (BitVec.ofNat_add ..).symm
  · rfl

/-- Settles O31: the slot of vector `n`, in numbers. -/
theorem relocationOfEveryVector : Obligations.RelocationOfEveryVector := by
  intro p gov n he
  rw [← tableOffset_eq]
  exact relocate_vector he p n

/-- Settles O32: each row of the table is the address and the two slots of one vector. -/
theorem relocationTable : Obligations.RelocationTable := by
  intro p gov he row hrow
  obtain ⟨n, haddr, hlow, hhigh⟩ : ∃ n : BitVec 5, row.1 = tableEntry n ∧ row.2.1 = tableOffset false n ∧
      row.2.2 = tableOffset true n := by
    refine ⟨docField row.1 19 5, ?_⟩
    fin_cases hrow <;> decide
  rw [haddr, hlow, hhigh, relocate_vector he]
  cases gov.oerc <;> simp

/-- Settles O33: the System Reset entry is vector 1, the one that OERC does not move. -/
theorem resetEntryNotMovedByOerc : Obligations.ResetEntryNotMovedByOerc := by
  intro p gov he
  have h := relocationOfEveryVector p gov 1#5 he
  simpa using h

/-! ### Accesses without a relocated address (43_exception_relocation R258, R262, decisions D12, D36) -/

/-- Where relocation has no meaning: with EN_COMP and EXC_COMP on a part that has the decompressor, or for an ON-mode access in the
table; and only with ETRE. -/
theorem relocationMeaningless_iff {p : Config.Params} {gov : Bbcmcr} {m : DMode} {a : Word} :
    relocationMeaningless p gov m a = true ↔
      (p.hasComp = true ∧ gov.enComp = true ∧ gov.excComp = true ∨ m = .on ∧ inExceptionTable a = true) ∧ gov.etre = true := by
  simp only [relocationMeaningless, Bool.and_eq_true, Bool.or_eq_true, beq_iff_eq]
  tauto

/-- Issuing an admitted access that the IMPU allows where relocation has no meaning. -/
theorem issue_meaningless {p : Config.Params} {acc : Access} {m : DMode} {s : State} (taken : Bool) (ha : Admitted p acc m s)
    (hc : s.impu.check p (accessMade p m acc) m (p.freeBit (s.draws + 5)) = .allowed)
    (hn : relocationMeaningless p (s.governing p) m acc.addr = true) : issue p taken acc s = .refused .relocatedCompressed := by
  rw [issue_admitted taken ha, hc]
  exact if_pos hn

/-- Issuing an admitted access that the IMPU allows at an address between two entries. -/
theorem issue_gap {p : Config.Params} {acc : Access} {m : DMode} {s : State} (taken : Bool) (ha : Admitted p acc m s)
    (hc : s.impu.check p (accessMade p m acc) m (p.freeBit (s.draws + 5)) = .allowed)
    (hn : relocationMeaningless p (s.governing p) m acc.addr = false)
    (hr : relocate p (s.governing p) (accessMade p m acc).addr = .gap) :
    issue p taken acc s = .fault (.relocGap (accessMade p m acc).addr) := by
  rw [issue_admitted taken ha, hc]
  simp only [hn, hr, Bool.false_eq_true, if_false]

/-- A fetch whose access faults when it is issued faults. -/
theorem fetch_of_issue_fault {p : Config.Params} {acc : Access} {s : State} {f : Fault}
    (h : issue p true acc (s.flowTo acc) = .fault f) : fetch p acc s = .fault f := by
  simp only [fetch, h]

/-- Settles O34: relocation acts inside the table only and with ETRE only, and an allowed access for which it has no meaning is refused
when it is issued. -/
theorem relocationOnlyInsideTable : Obligations.RelocationOnlyInsideTable := by
  refine ⟨fun p gov a h => ?_, fun p acc s m ha hset hc he hcase => ?_⟩
  · obtain hoff | houtside := h
    · exact relocate_of_not_etre hoff p a
    · refine relocate_outside ?_ p gov
      rw [← Bool.not_eq_true, inExceptionTable_iff]
      bv_omega
  · have hn : relocationMeaningless p (s.governing p) m acc.addr = true := by
      rw [State.governing_settled hset, relocationMeaningless_iff, inExceptionTable_iff]
      exact ⟨hcase, he⟩
    exact ⟨fetch_of_issue_refused (issue_meaningless (s := s.flowTo acc) true ha hc hn), fun taken => issue_meaningless taken ha hc hn⟩

/-- Settles O35: a plain-code access is made at its own address, which lies between two entries, and outside the configuration of
decision D36 its relocation has a meaning. -/
theorem fetchBetweenEntriesFaults : Obligations.FetchBetweenEntriesFaults := by
  intro p acc s ha hset hc he hplain hfrom hto hbetween
  have hn : relocationMeaningless p (s.governing p) .off acc.addr = false := by
    rw [State.governing_settled hset, ← Bool.not_eq_true, relocationMeaningless_iff]
    rintro ⟨⟨hcomp, hen, hexc⟩ | ⟨hmode, -⟩, -⟩
    · simp [hcomp, hen, hexc] at hplain
    · cases hmode
  have haddr : (accessMade p .off acc).addr = acc.addr := by rw [accessMade_off]
  have hr : relocate p (s.governing p) (accessMade p .off acc).addr = .gap := by
    rw [State.governing_settled hset, haddr]
    exact relocate_between he (inExceptionTable_iff.mpr ⟨hfrom, hto⟩) hbetween p
  rw [← haddr]
  exact ⟨fetch_of_issue_fault (issue_gap (s := s.flowTo acc) true ha hc hn hr), fun taken => issue_gap taken ha hc hn hr⟩

end Sys2Proof.Machine
end

section
/-!
PROOFS. The words of the ten registers under a mask: the image of each register field by field, what a write leaves at the writable
positions, and what a read shows at the reserved ones (10_state R23 to R48, 95_test_vectors B2).
-/

namespace Sys2Proof.Machine

/-! ### Words merged under a mask -/

/-- The bits of `x` where the mask is set, those of `y` elsewhere. -/
def maskMerge (m x y : Word) : Word := (x &&& m) ||| (y &&& ~~~m)

/-- A field of a merged word is merged from the two fields. -/
theorem docField_maskMerge {a n : Nat} (h : a + n ≤ 32) (m x y : Word) :
    docField (maskMerge m x y) a n = (docField x a n &&& docField m a n) ||| (docField y a n &&& ~~~docField m a n) := by
  apply BitVec.eq_of_getLsbD_eq
  intro j hj
  have hb : 32 - a - n + j < 32 := by omega
  simp only [docField, maskMerge, BitVec.getLsbD_extractLsb', BitVec.getLsbD_or, BitVec.getLsbD_and, BitVec.getLsbD_not, hj, hb,
    decide_true, Bool.true_and]

/-- A bit of a merged word is that of either word, by the mask. -/
theorem docBit_maskMerge (m x y : Word) (a : Nat) :
    docBit (maskMerge m x y) a = (docBit x a && docBit m a || docBit y a && !docBit m a) := by
  have ha : 31 - a < 32 := by omega
  simp only [docBit, maskMerge, BitVec.getLsbD_or, BitVec.getLsbD_and, BitVec.getLsbD_not, ha, decide_true, Bool.true_and]

/-- At the mask a merged word shows its first word. -/
theorem maskMerge_and_mask (m x y : Word) : maskMerge m x y &&& m = x &&& m := by
  apply BitVec.eq_of_getLsbD_eq
  intro j hj
  cases hm : m.getLsbD j <;> simp [maskMerge, hm]

/-- Off the mask a merged word shows its second word. -/
theorem maskMerge_and_not_mask (m x y : Word) : maskMerge m x y &&& ~~~m = y &&& ~~~m := by
  apply BitVec.eq_of_getLsbD_eq
  intro j hj
  cases hm : m.getLsbD j <;> simp [maskMerge, hm]

section
variable {m x y : Word} {a n : Nat}

/-! A field that is wholly in the mask, or wholly outside it; which of the two is read off the digits of the mask. -/

theorem docField_maskMerge_of_set {z : BitVec n} (hx : docField x a n = z)
    (hm : docField m a n = BitVec.allOnes n := by decide +revert) (h : a + n ≤ 32 := by decide) :
    docField (maskMerge m x y) a n = z := by
  simp [docField_maskMerge h, hm, hx]

theorem docField_maskMerge_of_clear {z : BitVec n} (hy : docField y a n = z) (hm : docField m a n = 0#n := by decide +revert)
    (h : a + n ≤ 32 := by decide) : docField (maskMerge m x y) a n = z := by
  simp [docField_maskMerge h, hm, hy]

theorem docBit_maskMerge_of_set {z : Bool} (hx : docBit x a = z) (hm : docBit m a = true := by decide +revert) :
    docBit (maskMerge m x y) a = z := by
  simp [docBit_maskMerge, hm, hx]

theorem docBit_maskMerge_of_clear {z : Bool} (hy : docBit y a = z) (hm : docBit m a = false := by decide +revert) :
    docBit (maskMerge m x y) a = z := by
  simp [docBit_maskMerge, hm, hy]

end

/-! ### The image of a register, field by field -/

/-- A word is the image of an MI_RBA exactly when its fields are (10_state R23). -/
theorem eq_rbaImage_iff {w : Word} {ra : BitVec 20} : w = rbaImage ra ↔ docField w 0 20 = ra ∧ docField w 20 12 = 0#12 := by
  conv_lhs => rw [← docField_whole w, rbaImage]
  exact docField_eq_append_iff (n := 20) (k := 12) (by decide)

/-- A word is the image of an MI_RA exactly when its fields are (10_state R25). -/
theorem RaReg.eq_image_iff {w : Word} {r : RaReg} : w = r.image ↔ docField w 0 20 = r.rs ∧ docField w 20 2 = r.pp ∧
    docField w 22 3 = 0#3 ∧ docBit w 25 = r.g ∧ docField w 26 2 = r.cmpr ∧ docField w 28 4 = 0#4 := by
  conv_lhs => rw [← docField_whole w, RaReg.image]
  rw [docField_eq_append_iff (k := 4), docField_eq_append_iff (k := 2), docField_eq_append_iff (k := 1),
    docField_eq_append_iff (k := 3), docField_eq_append_iff (k := 2)]
  · simp (disch := decide) only [docField_eq_ofBool_iff, and_assoc]
  all_goals decide

/-- A word is the image of MI_GRA exactly when its fields are (10_state R32). -/
theorem GraReg.eq_image_iff {w : Word} {r : GraReg} : w = r.image ↔ docBit w 0 = r.enr[0] ∧ docBit w 1 = r.enr[1] ∧
    docBit w 2 = r.enr[2] ∧ docBit w 3 = r.enr[3] ∧ docField w 4 16 = 0#16 ∧ docField w 20 2 = r.pp ∧ docField w 22 3 = 0#3 ∧
    docBit w 25 = r.g ∧ docField w 26 2 = r.cmpr ∧ docField w 28 4 = 0#4 := by
  conv_lhs => rw [← docField_whole w, GraReg.image]
  rw [docField_eq_append_iff (k := 4), docField_eq_append_iff (k := 2), docField_eq_append_iff (k := 1),
    docField_eq_append_iff (k := 3), docField_eq_append_iff (k := 2), docField_eq_append_iff (k := 16),
    docField_eq_append_iff (k := 1), docField_eq_append_iff (k := 1), docField_eq_append_iff (k := 1)]
  · simp (disch := decide) only [docField_eq_ofBool_iff, and_assoc, Nat.zero_add]
  all_goals decide

/-- A word is the image of BBCMCR exactly when its fields are (10_state R39). -/
theorem Bbcmcr.eq_image_iff {w : Word} {r : Bbcmcr} : w = r.image ↔ docField w 0 18 = 0#18 ∧ docBit w 18 = r.be ∧
    docBit w 19 = r.etre ∧ docBit w 20 = r.oerc ∧ docBit w 21 = r.enComp ∧ docBit w 22 = r.excComp ∧
    docBit w 23 = r.decompScEn ∧ docField w 24 8 = 0#8 := by
  conv_lhs => rw [← docField_whole w, Bbcmcr.image]
  rw [docField_eq_append_iff (k := 8), docField_eq_append_iff (k := 1), docField_eq_append_iff (k := 1),
    docField_eq_append_iff (k := 1), docField_eq_append_iff (k := 1), docField_eq_append_iff (k := 1),
    docField_eq_append_iff (k := 1)]
  · simp (disch := decide) only [docField_eq_ofBool_iff, and_assoc, Nat.zero_add]
  all_goals decide

/-! ### What a write leaves: the source at the writable positions, the old value elsewhere (44_spr_access R281) -/

theorem rbaImage_write (hasComp : Bool) (k : Fin 4) (old : BitVec 20) (v : Word) :
    rbaImage (docField v 0 20) = maskMerge (writableMask hasComp (.rba k)) v (rbaImage old) := by
  obtain ⟨-, h20⟩ := eq_rbaImage_iff.mp (Eq.refl (rbaImage old))
  exact (eq_rbaImage_iff.mpr ⟨docField_maskMerge_of_set rfl, docField_maskMerge_of_clear h20⟩).symm

theorem RaReg.image_write (hasComp : Bool) (k : Fin 4) (old : RaReg) (v : Word) :
    (RaReg.write hasComp old v).image = maskMerge (writableMask hasComp (.ra k)) v old.image := by
  obtain ⟨-, -, h22, -, hcmpr, h28⟩ := RaReg.eq_image_iff.mp (Eq.refl old.image)
  symm
  refine RaReg.eq_image_iff.mpr ⟨docField_maskMerge_of_set rfl, docField_maskMerge_of_set rfl, docField_maskMerge_of_clear h22,
    docBit_maskMerge_of_set rfl, ?_, docField_maskMerge_of_clear h28⟩
  cases hasComp with
  | false => exact docField_maskMerge_of_clear hcmpr
  | true => exact docField_maskMerge_of_set rfl

theorem GraReg.image_write (hasComp : Bool) (old : GraReg) (v : Word) :
    (GraReg.write hasComp old v).image = maskMerge (writableMask hasComp .gra) v old.image := by
  obtain ⟨-, -, -, -, h4, -, h22, -, hcmpr, h28⟩ := GraReg.eq_image_iff.mp (Eq.refl old.image)
  symm
  refine GraReg.eq_image_iff.mpr ⟨docBit_maskMerge_of_set rfl, docBit_maskMerge_of_set rfl, docBit_maskMerge_of_set rfl,
    docBit_maskMerge_of_set rfl, docField_maskMerge_of_clear h4, docField_maskMerge_of_set rfl, docField_maskMerge_of_clear h22,
    docBit_maskMerge_of_set rfl, ?_, docField_maskMerge_of_clear h28⟩
  cases hasComp with
  | false => exact docField_maskMerge_of_clear hcmpr
  | true => exact docField_maskMerge_of_set rfl

theorem Bbcmcr.image_write (hasComp : Bool) (old : Bbcmcr) (v : Word) :
    (Bbcmcr.write hasComp old v).image = maskMerge (writableMask hasComp .bbcmcr) v old.image := by
  obtain ⟨h0, -, -, -, hen, hexc, hsc, h24⟩ := Bbcmcr.eq_image_iff.mp (Eq.refl old.image)
  symm
  refine Bbcmcr.eq_image_iff.mpr ⟨docField_maskMerge_of_clear h0, docBit_maskMerge_of_set rfl, docBit_maskMerge_of_set rfl,
    docBit_maskMerge_of_set rfl, docBit_maskMerge_of_clear hen, ?_, ?_, docField_maskMerge_of_clear h24⟩
  all_goals cases hasComp
  · exact docBit_maskMerge_of_clear hexc
  · exact docBit_maskMerge_of_set rfl
  · exact docBit_maskMerge_of_clear hsc
  · exact docBit_maskMerge_of_set rfl

/-! ### What a read shows: the fill at the reserved positions, the register elsewhere (44_spr_access R282) -/

theorem State.sprReadable_eq_maskMerge (s : State) (hasComp : Bool) (r : Spr) (fill : Word) :
    s.sprReadable hasComp r fill = maskMerge (reservedMask hasComp r) fill (s.sprImage r) :=
  BitVec.or_comm ..

/-- No position is both writable and reserved. -/
theorem writableMask_not_reserved (hasComp : Bool) (r : Spr) :
    ~~~reservedMask hasComp r &&& writableMask hasComp r = writableMask hasComp r := by
  cases r <;> decide +revert

/-- MI_RBA[i] as read (44_spr_access R284). -/
theorem docField_rbaImage_read (hasComp : Bool) (k : Fin 4) (fill : Word) (ra : BitVec 20) :
    docField (maskMerge (reservedMask hasComp (.rba k)) fill (rbaImage ra)) 0 20 = ra := by
  obtain ⟨hra, -⟩ := eq_rbaImage_iff.mp (Eq.refl (rbaImage ra))
  exact docField_maskMerge_of_clear hra

/-- The word `w` shows the fields of MI_RA[i], CMPR on the MPC556 only (44_spr_access R286). -/
def RaReg.ShownIn (hasComp : Bool) (fill : Word) (r : RaReg) (w : Word) : Prop :=
  docField w 0 20 = r.rs ∧ docField w 20 2 = r.pp ∧ docBit w 25 = r.g ∧
    docField w 26 2 = if hasComp then r.cmpr else docField fill 26 2

theorem RaReg.shownIn_read (hasComp : Bool) (k : Fin 4) (fill : Word) (r : RaReg) :
    r.ShownIn hasComp fill (maskMerge (reservedMask hasComp (.ra k)) fill r.image) := by
  obtain ⟨hrs, hpp, -, hg, hcmpr, -⟩ := RaReg.eq_image_iff.mp (Eq.refl r.image)
  refine ⟨docField_maskMerge_of_clear hrs, docField_maskMerge_of_clear hpp, docBit_maskMerge_of_clear hg, ?_⟩
  cases hasComp with
  | false => exact docField_maskMerge_of_set rfl
  | true => exact docField_maskMerge_of_clear hcmpr

/-- The word `w` shows the fields of MI_GRA, CMPR on the MPC556 only (44_spr_access R288). -/
def GraReg.ShownIn (hasComp : Bool) (fill : Word) (r : GraReg) (w : Word) : Prop :=
  (∀ k : Fin 4, docBit w k = r.enr[k]) ∧ docField w 20 2 = r.pp ∧ docBit w 25 = r.g ∧
    docField w 26 2 = if hasComp then r.cmpr else docField fill 26 2

theorem GraReg.shownIn_read (hasComp : Bool) (fill : Word) (r : GraReg) :
    r.ShownIn hasComp fill (maskMerge (reservedMask hasComp .gra) fill r.image) := by
  obtain ⟨h0, h1, h2, h3, -, hpp, -, hg, hcmpr, -⟩ := GraReg.eq_image_iff.mp (Eq.refl r.image)
  refine ⟨fun k => ?_, docField_maskMerge_of_clear hpp, docBit_maskMerge_of_clear hg, ?_⟩
  · refine docBit_maskMerge_of_clear ?_
    fin_cases k
    exacts [h0, h1, h2, h3]
  · cases hasComp with
    | false => exact docField_maskMerge_of_set rfl
    | true => exact docField_maskMerge_of_clear hcmpr

/-- The word `w` shows the fields of BBCMCR, the last three on the MPC556 only (44_spr_access R290). -/
def Bbcmcr.ShownIn (hasComp : Bool) (fill : Word) (r : Bbcmcr) (w : Word) : Prop :=
  docBit w 18 = r.be ∧ docBit w 19 = r.etre ∧ docBit w 20 = r.oerc ∧
    docBit w 21 = (if hasComp then r.enComp else docBit fill 21) ∧
    docBit w 22 = (if hasComp then r.excComp else docBit fill 22) ∧
    docBit w 23 = (if hasComp then r.decompScEn else docBit fill 23)

theorem Bbcmcr.shownIn_read (hasComp : Bool) (fill : Word) (r : Bbcmcr) :
    r.ShownIn hasComp fill (maskMerge (reservedMask hasComp .bbcmcr) fill r.image) := by
  obtain ⟨-, hbe, hetre, hoerc, hen, hexc, hsc, -⟩ := Bbcmcr.eq_image_iff.mp (Eq.refl r.image)
  refine ⟨docBit_maskMerge_of_clear hbe, docBit_maskMerge_of_clear hetre, docBit_maskMerge_of_clear hoerc, ?_⟩
  cases hasComp with
  | false => exact ⟨docBit_maskMerge_of_set rfl, docBit_maskMerge_of_set rfl, docBit_maskMerge_of_set rfl⟩
  | true => exact ⟨docBit_maskMerge_of_clear hen, docBit_maskMerge_of_clear hexc, docBit_maskMerge_of_clear hsc⟩

end Sys2Proof.Machine
end

section
/-!
PROOFS. `mtspr`, `mfspr` and `isync`: what each leaves in the state, and the claims about the ten registers and the isync window
(44_spr_access R280 to R293).
-/

namespace Sys2Proof.Machine

/-! ### A write of a register of the module -/

theorem Impu.write_rba_same (hasComp : Bool) (k : Fin 4) (v : Word) (m : Impu) :
    (Impu.write hasComp (.rba k) v m).rba[k] = docField v 0 20 :=
  Vector.getElem_set_self _

theorem Impu.write_rba_other {j k : Fin 4} (h : j ≠ k) (hasComp : Bool) (v : Word) (m : Impu) :
    (Impu.write hasComp (.rba k) v m).rba[j] = m.rba[j] :=
  Vector.getElem_set_ne k.isLt j.isLt fun e => h (Fin.ext e.symm)

theorem Impu.write_ra_same (hasComp : Bool) (k : Fin 4) (v : Word) (m : Impu) :
    (Impu.write hasComp (.ra k) v m).ra[k] = RaReg.write hasComp m.ra[k] v :=
  Vector.getElem_set_self _

theorem Impu.write_ra_other {j k : Fin 4} (h : j ≠ k) (hasComp : Bool) (v : Word) (m : Impu) :
    (Impu.write hasComp (.ra k) v m).ra[j] = m.ra[j] :=
  Vector.getElem_set_ne k.isLt j.isLt fun e => h (Fin.ext e.symm)

/-- A register written holds the source's bits at its writable positions and its old bits elsewhere. -/
theorem State.sprImage_writeSpr_same (p : Config.Params) (r : Spr) (v : Word) (s : State) :
    (s.writeSpr p r v).sprImage r = maskMerge (writableMask p.hasComp r) v (s.sprImage r) := by
  cases r with
  | rba k => exact (congrArg rbaImage (Impu.write_rba_same p.hasComp ..)).trans (rbaImage_write ..)
  | ra k => exact (congrArg RaReg.image (Impu.write_ra_same ..)).trans (RaReg.image_write ..)
  | gra => exact GraReg.image_write ..
  | bbcmcr => exact Bbcmcr.image_write ..

/-- A register that is not the one written keeps its value. -/
theorem State.sprImage_writeSpr_other {r r' : Spr} (h : r' ≠ r) (p : Config.Params) (v : Word) (s : State) :
    (s.writeSpr p r v).sprImage r' = s.sprImage r' := by
  cases r' with
  | rba j =>
    cases r with
    | rba k => exact congrArg rbaImage (Impu.write_rba_other (fun e => h (by rw [e])) p.hasComp ..)
    | ra k | gra | bbcmcr => rfl
  | ra j =>
    cases r with
    | ra k => exact congrArg RaReg.image (Impu.write_ra_other (fun e => h (by rw [e])) ..)
    | rba k | gra | bbcmcr => rfl
  | gra =>
    cases r with
    | gra => exact absurd rfl h
    | rba k | ra k | bbcmcr => rfl
  | bbcmcr =>
    cases r with
    | bbcmcr => exact absurd rfl h
    | rba k | ra k | gra => rfl

/-- A write of an IMPU register leaves BBCMCR and its window alone. -/
theorem State.writeSpr_bbcmcr_of_ne {r : Spr} (h : r ≠ .bbcmcr) (p : Config.Params) (v : Word) (s : State) :
    (s.writeSpr p r v).bbcmcr = s.bbcmcr ∧ (s.writeSpr p r v).superseded = s.superseded := by
  cases r with
  | bbcmcr => exact absurd rfl h
  | rba k | ra k | gra => exact ⟨rfl, rfl⟩

/-- Judging the pending accesses again leaves them the same ones, in the same order (20_memory R85). -/
theorem map_rejudge (p : Config.Params) (r : Spr) (v : Word) (n : Nat) (l : List Pending) :
    (rejudge p r v n l).map (fun e => (e.acc, e.mode, e.words, e.gov, e.refused)) =
      l.map (fun e => (e.acc, e.mode, e.words, e.gov, e.refused)) := by
  induction l generalizing n with
  | nil => rfl
  | cons e rest ih =>
    rw [rejudge, List.map_cons, List.map_cons, ih]
    split <;> rfl

theorem State.writeSpr_samePending (p : Config.Params) (r : Spr) (v : Word) (s : State) : SamePending s (s.writeSpr p r v) := by
  cases r with
  | bbcmcr => rfl
  | rba k | ra k | gra => exact map_rejudge ..

/-! ### `mtspr` and `mfspr` where they run -/

/-- The core goes on with the next instruction from a state with the same access and the same ICDU. -/
theorem goesOn_advance {s t : State} (hacc : t.acc = s.acc) (hicdu : t.icdu = s.icdu) : GoesOn s t.advance := by
  simp [GoesOn, State.nextAddr, hacc, hicdu]

/-- An `mtspr` that runs, in either of its rows. -/
theorem exec_writes_runs {i : Instr} {r : Spr} {rS : Reg} {s : State} (hi : WritesSpr i r rS) (hs : SprAccessRuns s) :
    exec i s = .next (s.writeSpr Config.chip r (s.getX rS)).advance :=
  (exec_writes hi s).trans (mtsprTo_runs hs)

/-- An `mfspr` that runs, in either of its rows. -/
theorem exec_reads_runs {i : Instr} {r : Spr} {rD : Reg} {s : State} (hi : ReadsSpr i r rD) (hs : SprAccessRuns s) :
    ∃ t, exec i s = .next t ∧ t = { s.setX rD (s.readSpr Config.chip r) with draws := s.draws + 1 }.advance ∧
      t.getX rD = maskMerge (reservedMask Config.chip.hasComp r) (reservedFill Config.chip s.draws) (s.sprImage r) :=
  ⟨_, (exec_reads hi s).trans (mfsprFrom_runs hs), rfl,
    (State.getX_setX_same s rD _).trans (State.sprReadable_eq_maskMerge ..)⟩

/-- Settles O5: the register written and the nine others, by their images. -/
theorem mtsprWritesWritableBitsOnly : Obligations.MtsprWritesWritableBitsOnly := by
  intro r rS s i hi hs
  exact ⟨_, exec_writes_runs hi hs, State.sprImage_writeSpr_same .., fun r' hr => State.sprImage_writeSpr_other hr ..,
    fun x => State.getX_congr (by simp) x⟩

/-- Settles O6: field by field, an IMPU register and BBCMCR apart. -/
theorem mtsprFrame : Obligations.MtsprFrame := by
  intro r rS s i hi hs
  refine ⟨_, exec_writes_runs hi hs, by simp, by simp [SameHidden], by simp [SameInterface], goesOn_advance (by simp) (by simp),
    by simp [SameMemory], by simp, State.writeSpr_samePending .., fun hr => State.writeSpr_bbcmcr_of_ne hr .., ?_⟩
  rintro rfl
  exact ⟨rfl, rfl, rfl, rfl⟩

/-- Settles O7: the base address by the write, the other three by where it is made. -/
theorem mtsprRbaWritesBaseAddress : Obligations.MtsprRbaWritesBaseAddress := by
  intro k rS s i hi hs
  exact ⟨_, exec_writes_runs hi hs, Impu.write_rba_same Config.chip.hasComp ..,
    fun j hj => Impu.write_rba_other hj Config.chip.hasComp .., rfl, rfl, rfl⟩

/-- Settles O8: the fields by `RaReg.write`, the other three registers by where it is made. -/
theorem mtsprRaWritesSizeAndAttributes : Obligations.MtsprRaWritesSizeAndAttributes := by
  intro k rS s i hi hs
  have hk := Impu.write_ra_same Config.chip.hasComp k (s.getX rS) s.impu
  exact ⟨_, exec_writes_runs hi hs, congrArg RaReg.rs hk, congrArg RaReg.pp hk, congrArg RaReg.g hk, congrArg RaReg.cmpr hk,
    fun j hj => Impu.write_ra_other hj .., rfl, rfl, rfl⟩

/-- Settles O9: the four enable bits one by one, the other fields by `GraReg.write`. -/
theorem mtsprGraWritesEnablesAndAttributes : Obligations.MtsprGraWritesEnablesAndAttributes := by
  intro rS s i hi hs
  refine ⟨_, exec_writes_runs hi hs, fun k => ?_, rfl, rfl, rfl, rfl, rfl, rfl⟩
  fin_cases k <;> rfl

/-- Settles O10: field by field by `Bbcmcr.write`. -/
theorem mtsprBbcmcrWritesControlBits : Obligations.MtsprBbcmcrWritesControlBits := by
  intro rS s i hi hs
  exact ⟨_, exec_writes_runs hi hs, rfl, rfl, rfl, rfl, rfl, rfl, rfl⟩

/-- Settles O12: the destination is merged from the register and the fill; the rest is not written. -/
theorem mfsprReadsRegister : Obligations.MfsprReadsRegister := by
  intro r rD s i hi hs
  obtain ⟨t, ht, rfl, hx⟩ := exec_reads_runs hi hs
  refine ⟨_, ht, ?_, ?_, fun x hne => State.getX_setX_other s _ hne, rfl, rfl, rfl, rfl, rfl, ⟨rfl, rfl⟩, rfl, rfl,
    ⟨rfl, rfl, rfl, rfl, rfl⟩, ⟨rfl, rfl⟩, goesOn_advance rfl rfl, fun _ => rfl, rfl⟩
  · rw [hx, maskMerge_and_not_mask]
  · rw [hx, maskMerge_and_mask, reservedFill]

/-- Settles O13: register by register, the fields of the merged word. -/
theorem mfsprFieldPositions : Obligations.MfsprFieldPositions := by
  intro r rD s i hi hs
  obtain ⟨t, ht, -, hx⟩ := exec_reads_runs hi hs
  refine ⟨t, ht, ?_⟩
  rw [hx]
  refine ⟨?_, ?_, ?_, ?_⟩
  · rintro k rfl
    exact docField_rbaImage_read ..
  · rintro k rfl
    exact RaReg.shownIn_read ..
  · rintro rfl
    exact GraReg.shownIn_read ..
  · rintro rfl
    exact Bbcmcr.shownIn_read ..

/-- Settles O14: no writable position is reserved, so at the writable ones the read shows what the write left. -/
theorem mfsprAfterMtsprReturnsWritten : Obligations.MfsprAfterMtsprReturnsWritten := by
  intro r rS rD s i j hi hj hs
  let t := (s.writeSpr Config.chip r (s.getX rS)).advance
  have ht : SprAccessRuns t := by simpa [SprAccessRuns, t] using hs
  obtain ⟨u, hu, -, hx⟩ := exec_reads_runs hj ht
  refine ⟨t, u, exec_writes_runs hi hs, hu, ?_⟩
  have himage : t.sprImage r = maskMerge (writableMask Config.chip.hasComp r) (s.getX rS) (s.sprImage r) :=
    State.sprImage_writeSpr_same ..
  rw [hx, ← writableMask_not_reserved, ← BitVec.and_assoc, maskMerge_and_not_mask, BitVec.and_assoc, writableMask_not_reserved,
    himage, maskMerge_and_mask]

/-! ### `mtspr` and `mfspr` that do not run, or that name no register of the module -/

/-- Settles O15: both check the level before anything else but standby. -/
theorem userModeSprAccessFaults : Obligations.UserModeSprAccessFaults := by
  intro r x s i hi hmode hpriv
  obtain hw | hr := hi
  · rw [exec_writes hw, mtsprTo, if_neg hmode, if_pos hpriv]
  · rw [exec_reads hr, mfsprFrom, if_neg hmode, if_pos hpriv]

/-- With another SPR number both are an instruction of the core's own. -/
theorem exec_otherSpr {x : Reg} {n : BitVec 10} {i : Instr} (hn : sprOfNumber n = none) (hi : i = .mtspr x n ∨ i = .mfspr x n)
    (s : State) : exec i s = .next (s.ownInstruction Config.chip) := by
  obtain rfl | rfl := hi
  · simp only [exec, execMtspr, hn]
  · simp only [exec, execMfspr, hn]

/-- Settles O16: an instruction of the core's own changes the core's side only. -/
theorem otherSprLeavesModuleAlone : Obligations.OtherSprLeavesModuleAlone := by
  intro x n s i hn hi
  refine ⟨_, exec_otherSpr hn hi s, ⟨rfl, rfl⟩, rfl, rfl, ⟨rfl, rfl, rfl, rfl, rfl⟩, ⟨rfl, rfl⟩, fun _ => rfl, rfl,
    fun hm he => ?_⟩
  rw [State.ownInstruction_acc] at he
  simp [State.ownCore, hm, he]

/-! ### `isync` and the window it closes -/

/-- Settles O17: `isync` empties the window and goes on. -/
theorem isyncSettlesBbcmcr : Obligations.IsyncSettlesBbcmcr := fun _ =>
  ⟨_, rfl, rfl, State.governing_settled rfl, ⟨rfl, rfl⟩, rfl, rfl, rfl, ⟨rfl, rfl, rfl, rfl, rfl⟩, ⟨rfl, rfl⟩,
    goesOn_advance rfl rfl, fun _ => rfl, rfl⟩

/-- What governs in a field is the field of BBCMCR or that of a value written over (decision D20). -/
theorem State.drawField_mem (p : Config.Params) (s : State) (field : Bbcmcr → Bool) (k : Nat) :
    ∃ v ∈ s.bbcmcr :: s.superseded, s.drawField p field k = field v := by
  unfold State.drawField
  split
  · exact ⟨_, List.mem_cons_self, rfl⟩
  · next hall =>
    obtain ⟨o, ho, hne⟩ : ∃ o ∈ s.superseded, field o ≠ field s.bbcmcr := by simpa using hall
    by_cases hb : p.freeBit (s.draws + k) = field s.bbcmcr
    · exact ⟨_, List.mem_cons_self, hb⟩
    · exact ⟨o, List.mem_cons_of_mem _ ho, (Bool.eq_not.mpr hb).trans (Bool.eq_not.mpr hne).symm⟩

/-- The six fields of BBCMCR (10_state R39). -/
def Bbcmcr.fields : List (Bbcmcr → Bool) :=
  [Bbcmcr.be, Bbcmcr.etre, Bbcmcr.oerc, Bbcmcr.enComp, Bbcmcr.excComp, Bbcmcr.decompScEn]

/-- Each field of BBCMCR governs with its value or with one written over. -/
theorem State.governing_mem (p : Config.Params) (s : State) :
    ∀ field ∈ Bbcmcr.fields, ∃ v ∈ s.bbcmcr :: s.superseded, field (s.governing p) = field v := by
  simp only [Bbcmcr.fields, List.forall_mem_cons]
  exact ⟨s.drawField_mem p _ 0, s.drawField_mem p _ 1, s.drawField_mem p _ 2, ⟨_, List.mem_cons_self, rfl⟩,
    s.drawField_mem p _ 3, s.drawField_mem p _ 4, fun _ h => absurd h List.not_mem_nil⟩

/-- Settles O18: in every state by `governing_mem`, and right after a write from a settled state the values are the two. -/
theorem isyncWindowOldOrNew : Obligations.IsyncWindowOldOrNew := by
  refine ⟨fun s => ⟨rfl, s.governing_mem _⟩, fun rS s i hi hs hset => ?_⟩
  refine ⟨_, exec_writes_runs hi hs, fun field hf => ⟨?_, rfl⟩⟩
  obtain ⟨v, hv, hfield⟩ := State.governing_mem Config.chip (s.writeSpr Config.chip .bbcmcr (s.getX rS)).advance field hf
  rw [hfield]
  have hwindow : (s.writeSpr Config.chip .bbcmcr (s.getX rS)).superseded = [s.bbcmcr] := by simp [State.writeSpr, hset]
  obtain rfl | rfl : v = _ ∨ v = s.bbcmcr := by simpa [hwindow] using hv
  · exact .inr rfl
  · exact .inl rfl

end Sys2Proof.Machine
end

section
/-!
PROOFS. A refused access: the IMPU's exception a fetch takes, and what the U-bus sees of the cancelled access (60_exceptions R310 to R314,
R321; 41_modes_of_operation R184, R189).
-/

namespace Sys2Proof.Machine

/-! ### The exception of a refused fetch (60_exceptions R310 to R313, R321) -/

/-- The core's side after a refused access that is taken: SRR1 and SRR0 are new, the rest stays. -/
theorem State.refuseAccess_taken_core (p : Config.Params) (guarded : Bool) (gov : Bbcmcr) (acc : Access) (m : DMode) (s : State) :
    (s.refuseAccess p true guarded gov acc m).core =
      { s.core with srr1 := violationBits guarded, srr0 := s.returnAddress p m } := by
  rw [State.refuseAccess_taken]
  cases h : acc.showCycle || acc.ptrace with
  | false => rw [State.refuseAccess_hidden h]; rfl
  | true => rw [State.refuseAccess_shown h]; simp [State.takeViolation, State.returnAddress]

/-- Going to an access leaves the ICDU's next instruction address alone. -/
theorem State.flowTo_icdu_next (acc : Access) (s : State) : (s.flowTo acc).icdu.next = s.icdu.next := by
  rw [State.flowTo_icdu]
  split <;> rfl

/-- Settles O39: the fetch is refused as `fetch_refused` says; what is reported by `refuseAccess_shows`, where the core goes on by
`refuseAccess_flow`, what it keeps by `refuseAccess_taken_core`. -/
theorem violationTakesImpuException : Obligations.ViolationTakesImpuException := by
  intro p acc s m guarded ha hc
  have hcore := (s.flowTo acc).issuing.refuseAccess_taken_core p guarded (s.governing p) (accessMade p m acc) m
  obtain ⟨hsrr1, haddr, hentry⟩ :=
    (refuseAccess_flow p true guarded (s.governing p) (accessMade p m acc) m (s.flowTo acc).issuing).2 rfl
  have hshow := refuseAccess_shows p true guarded (s.governing p) (accessMade p m acc) m (s.flowTo acc).issuing
  obtain ⟨r, hr, hraddr, hbits, hvector, hdelivered⟩ := hshow.report
  refine ⟨_, fetch_refused ha hc, hsrr1, ?_, haddr, hentry,
    ⟨r, hr, hraddr, hbits.trans hsrr1.symm, hvector.trans haddr.symm, hdelivered⟩, hshow.word, by simp, by simp, by simp,
    by simp [SameRegisters], by simp [hcore], by simp [hcore], by simp [hcore], by simp [hcore], by simp, by simp⟩
  rintro rfl
  rw [hcore]
  exact s.flowTo_icdu_next acc

/-! ### The cancelled access on the U-bus (60_exceptions R314) -/

/-- An access that appears on the U-bus, at the debug port or at some word, adds to it. -/
theorem AppearsOnBus.bus_ne {p : Config.Params} {gov : Bbcmcr} {acc : Access} {m : DMode} {cancelled : Bool} {words : List Word}
    {s t : State} (h : AppearsOnBus p gov acc m cancelled words s t) (hw : words ≠ []) : t.out.bus ≠ s.out.bus := by
  obtain ⟨shown, hb, hdest, -⟩ := h
  rw [hb, Ne, List.append_right_eq_self]
  rintro rfl
  split at hdest
  · cases hdest
  · exact hw (List.map_eq_nil_iff.mp hdest.symm)

/-- A fetch the IMPU refuses shows its violation. -/
theorem fetch_shows_violation {p : Config.Params} {acc : Access} {m : DMode} {s t : State} {guarded : Bool}
    (h : fetch p acc s = .next t) (hm : m = accessMode p (s.governing p) acc)
    (hc : s.impu.check p (accessMade p m acc) m (p.freeBit (s.draws + 5)) = .violation guarded) :
    ShowsViolation p guarded (s.governing p) (accessMade p m acc) m s t := by
  obtain ⟨u, hu, -⟩ := fetch_next h
  have ha : Admitted p acc m s := by
    rw [hm]
    exact (issue_next hu).1
  cases (fetch_refused ha hc).symm.trans h
  exact (refuseAccess_shows p true guarded (s.governing p) (accessMade p m acc) m (s.flowTo acc).issuing).congr rfl rfl rfl

/-- An access the IMPU refuses when it is issued shows its violation, taken or not. -/
theorem issue_shows_violation {p : Config.Params} {taken : Bool} {acc : Access} {m : DMode} {s t : State} {guarded : Bool}
    (h : issue p taken acc s = .next t) (hm : m = accessMode p (s.governing p) acc)
    (hc : s.impu.check p (accessMade p m acc) m (p.freeBit (s.draws + 5)) = .violation guarded) :
    ShowsViolation p guarded (s.governing p) (accessMade p m acc) m s t := by
  have ha : Admitted p acc m s := by
    rw [hm]
    exact (issue_next h).1
  cases (issue_refused taken ha hc).symm.trans h
  have hshow := refuseAccess_shows p taken guarded (s.governing p) (accessMade p m acc) m s.issuing
  cases taken with
  | false => exact hshow.congr rfl rfl rfl
  | true => exact hshow.congr rfl rfl rfl

/-- Settles O40: fetched or issued, the access shows its violation, and what appears on the U-bus is not empty. -/
theorem cancelledAccessShownOnlyWithAttributes : Obligations.CancelledAccessShownOnlyWithAttributes := by
  intro p acc s t m guarded h hm hc
  have hshow : ShowsViolation p guarded (s.governing p) (accessMade p m acc) m s t := by
    obtain hf | ⟨taken, hi⟩ := h
    · exact fetch_shows_violation hf hm hc
    · exact issue_shows_violation hi hm hc
  obtain ⟨r, hr, -, -, -, hdelivered⟩ := hshow.report
  exact ⟨hshow.word, ⟨r, hr, hdelivered⟩, hshow.hidden,
    fun hs => ⟨(hshow.shown hs).bus_ne (forwardedWords_ne_nil p m _ _), hshow.shown hs⟩⟩

end Sys2Proof.Machine
end

section
/-!
PROOFS. The two reset events (70_reset_and_hazards R350 to R354) and the invariant in the state after the first of them.
-/

namespace Sys2Proof.Machine

/-! ### What a reset leaves (10_state R31, R38; 70_reset_and_hazards R351, R354) -/

/-- MI_GRA reads zero after a reset. -/
theorem resetGra_image : resetGra.image = 0#32 := by decide

/-- After a reset the core starts at the System Reset vector of either exception table. -/
theorem resetAccess_addr (ip : Bool) : (resetAccess ip).addr = if ip then 0xFFF00100#32 else 0x00000100#32 := by
  cases ip <;> rfl

/-- The transaction of an event is what the event does, with the event taken from the inputs. -/
theorem transact_event {p : Config.Params} {s : State} {e : Event} {rest : List Event} (hi : s.inputs = e :: rest) :
    transact p s = occur p e { s.cleared with inputs := rest } := by
  simp only [transact, hi]

/-- Either reset event does what a hard reset does, but for MI_RBA, MI_RA and the free values taken; a hard reset keeps these
two. -/
theorem occur_reset {p : Config.Params} {s : State} {w : ResetWord} {e : Event} (he : e = .hardReset w ∨ e = .powerOn w) :
    ∃ (u : Impu) (n : Nat), occur p e s = .next { s.hardReset p w with impu := u, draws := n } ∧ u.gra = resetGra ∧
      (e = .hardReset w → u.rba = s.impu.rba ∧ u.ra = s.impu.ra) := by
  obtain rfl | rfl := he
  · exact ⟨_, _, rfl, rfl, fun _ => ⟨rfl, rfl⟩⟩
  · exact ⟨_, _, rfl, rfl, nofun⟩

/-- Settles O51: a reset hands the core no word, so the step is what `occur_reset` says, read field by field. -/
theorem resetEvents : Obligations.ResetEvents := by
  intro s w rest e he hi
  obtain ⟨u, n, ho, hgra, hkept⟩ := occur_reset (p := Config.chip) (s := { s.cleared with inputs := rest }) he
  refine ⟨_, step_eq_transact ((transact_event hi).trans ho) rfl, hkept, ?_, rfl, rfl, rfl, rfl, rfl, rfl, rfl, rfl, rfl, rfl, rfl,
    resetAccess_addr w.ip, rfl, rfl, rfl, rfl⟩
  exact (congrArg GraReg.image hgra).trans resetGra_image

/-! ### The invariant -/

/-- Settles O60: nothing is in memory, pending or prefetched, and the MPC556-only fields are empty on either part. -/
theorem invariantHoldsAtReset : Obligations.InvariantHoldsAtReset where
  memory := rfl
  standby := fun _ => rfl
  prefetch := .of_none rfl
  mpc555 := fun _ => ⟨rfl, rfl, rfl, rfl, by decide⟩
  pending := fun _ => nofun

end Sys2Proof.Machine
end
